-- ==== Sys2Proof/Syntax.lean ====
section
/-! DEFINITION. The instruction terms, one constructor per row of spec/opcode_table.json (30_encoding.md R80, R86). -/

namespace Sys2Proof

/-- A general register number: a 4-bit field names R0 to R15, and every value names one (R79). -/
abbrev Reg := Fin 16

/-- The second operand of a format RI instruction (R74, R77). -/
inductive Src where
  /-- F = 0: the register named by bits [19:16]. -/
  | reg (rs : Reg)
  /-- F = 1: the signed 16-bit immediate of bits [16:1]. -/
  | imm (v : Int)
deriving DecidableEq, Repr

/-- A decoded instruction with its operands (R86). Immediates and offsets are the signed numbers their
fields denote, a mask is the number of its 16-bit field (R76, R88). -/
inductive Instr where
  /-- ADD: addition (R142). -/
  | add (rd : Reg) (src : Src)
  /-- SUB: subtraction (R143). -/
  | sub (rd : Reg) (src : Src)
  /-- MUL: multiplication, low word (R144). -/
  | mul (rd : Reg) (src : Src)
  /-- DIV: signed division (R145). -/
  | div (rd : Reg) (src : Src)
  /-- MOD: signed remainder (R146). -/
  | mod (rd : Reg) (src : Src)
  /-- AND: bitwise AND (R147). -/
  | and (rd : Reg) (src : Src)
  /-- OR: bitwise inclusive OR (R148). -/
  | or (rd : Reg) (src : Src)
  /-- XOR: bitwise exclusive OR (R149). -/
  | xor (rd : Reg) (src : Src)
  /-- SHL: logical shift left (R150). -/
  | shl (rd : Reg) (src : Src)
  /-- SHR: logical shift right (R151). -/
  | shr (rd : Reg) (src : Src)
  /-- CMP: compare, flags only (R152). -/
  | cmp (rd : Reg) (src : Src)
  /-- MOV: move (R153). -/
  | mov (rd : Reg) (src : Src)
  /-- LDR: load a word (R171). -/
  | ldr (rd : Reg) (rb : Reg) (imm : Int)
  /-- STR: store a word; rd is the register stored (R172). -/
  | str (rd : Reg) (rb : Reg) (imm : Int)
  /-- PUSH: push the registers a mask selects (R183). -/
  | push (mask : Nat)
  /-- POP: pop into the registers a mask selects (R184). -/
  | pop (mask : Nat)
  /-- JMP: jump (R191). -/
  | jmp (off : Int)
  /-- BEQ: branch if equal (R193). -/
  | beq (off : Int)
  /-- BNE: branch if not equal (R194). -/
  | bne (off : Int)
  /-- BLT: branch if signed less (R195). -/
  | blt (off : Int)
  /-- BGE: branch if signed greater or equal (R196). -/
  | bge (off : Int)
  /-- BGT: branch if signed greater (R197). -/
  | bgt (off : Int)
  /-- BLE: branch if signed less or equal (R198). -/
  | ble (off : Int)
  /-- BCS: branch if carry set (R199). -/
  | bcs (off : Int)
  /-- BCC: branch if carry clear (R200). -/
  | bcc (off : Int)
  /-- CALL: call (R201). -/
  | call (off : Int)
  /-- RET: return (R202). -/
  | ret
  /-- INT: software interrupt, or the BIOS handoff (R210). -/
  | int (n : Int)
  /-- IRET: return from interrupt (R211). -/
  | iret
  /-- HLT: halt (R212). -/
  | hlt
deriving DecidableEq, Repr

/-- The thirty operations of the opcode map, in its order (R80). -/
inductive Op where
  | add | sub | mul | div | mod | and | or | xor | shl | shr | cmp | mov
  | ldr | str | push | pop
  | jmp | beq | bne | blt | bge | bgt | ble | bcs | bcc | call
  | ret | int | iret | hlt
deriving DecidableEq, Repr

/-- The instruction family, "one of {R, I, RI, M}, determining operand encoding shape" (R13). -/
inductive Family where
  | R | I | RI | M
deriving DecidableEq, Repr

end Sys2Proof
end

