-- ==== Sys2Proof/WellFormed.lean ====
section
/-! DEFINITION. The ranges an instruction term's fields must lie in to have an encoding (30_encoding.md R88(a)). -/

namespace Sys2Proof

/-- An RI, LDR, STR or INT immediate: a signed 16-bit number (R73, R74, R88). -/
def immInRange (v : Int) : Bool := decide (-32768 ≤ v) && decide (v ≤ 32767)

/-- A PUSH or POP mask: an unsigned 16-bit number (R76, R88). -/
def maskInRange (m : Nat) : Bool := decide (m ≤ 65535)

/-- A format M offset: a signed 24-bit number of words (R78, R88). -/
def offInRange (v : Int) : Bool := decide (-8388608 ≤ v) && decide (v ≤ 8388607)

/-- The range check of a format RI second operand. -/
def Src.wellFormed : Src → Bool
  | .reg _ => true
  | .imm v => immInRange v

/-- Every field of the instruction is in the range of its encoding (R88(a)). A register number is in
range by its type. No word decodes to an ill-formed term (log 9). -/
def Instr.wellFormed : Instr → Bool
  | .add _ src => src.wellFormed
  | .sub _ src => src.wellFormed
  | .mul _ src => src.wellFormed
  | .div _ src => src.wellFormed
  | .mod _ src => src.wellFormed
  | .and _ src => src.wellFormed
  | .or _ src => src.wellFormed
  | .xor _ src => src.wellFormed
  | .shl _ src => src.wellFormed
  | .shr _ src => src.wellFormed
  | .cmp _ src => src.wellFormed
  | .mov _ src => src.wellFormed
  | .ldr _ _ imm => immInRange imm
  | .str _ _ imm => immInRange imm
  | .push mask => maskInRange mask
  | .pop mask => maskInRange mask
  | .jmp off => offInRange off
  | .beq off => offInRange off
  | .bne off => offInRange off
  | .blt off => offInRange off
  | .bge off => offInRange off
  | .bgt off => offInRange off
  | .ble off => offInRange off
  | .bcs off => offInRange off
  | .bcc off => offInRange off
  | .call off => offInRange off
  | .ret => true
  | .int n => immInRange n
  | .iret => true
  | .hlt => true

end Sys2Proof
end

