-- ==== Sys2Proof/Word.lean ====
section
/-! DEFINITION. The data unit of the machine and of an image file (00_scope.md R5, R55). -/

namespace Sys2Proof

/-- A word, "the ISA's fixed instruction/data unit, 32 bits" (R5, R13). Arithmetic on it is modulo
2^32 (R9); `toNat` and `toInt` are the readings `unsigned` and `signed` of R8. -/
abbrev Word := BitVec 32

/-- A byte. The core has none (R55): bytes exist only in the image files the host loads. -/
abbrev Byte := BitVec 8

end Sys2Proof
end

