-- ==== Sys2Proof/Decode.lean ====
section
/-! DEFINITION. The opcode table, the instruction decoder and the encoder (30_encoding.md R70 to R89). -/

namespace Sys2Proof

/-- An instruction descriptor: mnemonic, family, 6-bit opcode and the operand counts the assembler
accepts (R85). -/
structure Descriptor where
  name : String
  family : Family
  opcode : BitVec 6
  minOperands : Nat
  maxOperands : Nat
deriving DecidableEq, Repr

/-- The opcode map of R80 with the operand counts of R85: the one table the decoder, the encoder and
the assembler share (R17, R85). -/
def Op.descriptor : Op → Descriptor
  | .add => ⟨"ADD", .RI, 0x01#6, 2, 2⟩
  | .sub => ⟨"SUB", .RI, 0x02#6, 2, 2⟩
  | .mul => ⟨"MUL", .RI, 0x03#6, 2, 2⟩
  | .div => ⟨"DIV", .RI, 0x04#6, 2, 2⟩
  | .mod => ⟨"MOD", .RI, 0x05#6, 2, 2⟩
  | .and => ⟨"AND", .RI, 0x06#6, 2, 2⟩
  | .or => ⟨"OR", .RI, 0x07#6, 2, 2⟩
  | .xor => ⟨"XOR", .RI, 0x08#6, 2, 2⟩
  | .shl => ⟨"SHL", .RI, 0x09#6, 2, 2⟩
  | .shr => ⟨"SHR", .RI, 0x0A#6, 2, 2⟩
  | .cmp => ⟨"CMP", .RI, 0x0B#6, 2, 2⟩
  | .mov => ⟨"MOV", .RI, 0x0C#6, 2, 2⟩
  | .ldr => ⟨"LDR", .I, 0x0D#6, 3, 3⟩
  | .str => ⟨"STR", .I, 0x0E#6, 3, 3⟩
  | .push => ⟨"PUSH", .I, 0x0F#6, 1, 3⟩
  | .pop => ⟨"POP", .I, 0x10#6, 1, 3⟩
  | .jmp => ⟨"JMP", .M, 0x11#6, 1, 1⟩
  | .beq => ⟨"BEQ", .M, 0x12#6, 1, 1⟩
  | .bne => ⟨"BNE", .M, 0x13#6, 1, 1⟩
  | .blt => ⟨"BLT", .M, 0x14#6, 1, 1⟩
  | .bge => ⟨"BGE", .M, 0x15#6, 1, 1⟩
  | .bgt => ⟨"BGT", .M, 0x16#6, 1, 1⟩
  | .ble => ⟨"BLE", .M, 0x17#6, 1, 1⟩
  | .bcs => ⟨"BCS", .M, 0x18#6, 1, 1⟩
  | .bcc => ⟨"BCC", .M, 0x19#6, 1, 1⟩
  | .call => ⟨"CALL", .M, 0x1A#6, 1, 1⟩
  | .ret => ⟨"RET", .R, 0x1B#6, 0, 0⟩
  | .int => ⟨"INT", .I, 0x1C#6, 1, 1⟩
  | .iret => ⟨"IRET", .R, 0x1D#6, 0, 0⟩
  | .hlt => ⟨"HLT", .R, 0x1E#6, 0, 0⟩

/-- The opcode of an operation (R80). -/
def Op.opcode (op : Op) : BitVec 6 := op.descriptor.opcode

/-- Every operation, in the order of the opcode map (R80). -/
def opcodeTable : List Op :=
  [.add, .sub, .mul, .div, .mod, .and, .or, .xor, .shl, .shr, .cmp, .mov,
   .ldr, .str, .push, .pop,
   .jmp, .beq, .bne, .blt, .bge, .bgt, .ble, .bcs, .bcc, .call,
   .ret, .int, .iret, .hlt]

/-- The operation an opcode is registered for; none for 0x00 and 0x1F to 0x3F (R81, R85). -/
def lookupByOpcode (opc : BitVec 6) : Option Op := opcodeTable.find? (fun op => op.opcode == opc)

/-- ASCII upper case of a character. -/
def upperChar (c : Char) : Char := if 'a' ≤ c ∧ c ≤ 'z' then Char.ofNat (c.toNat - 32) else c

/-- `lookup_by_name`: the operation a mnemonic names, matched case-insensitively (R15, R85). -/
def lookupByName (name : List Char) : Option Op :=
  opcodeTable.find? (fun op => op.descriptor.name.toList == name.map upperChar)

/-- The opcode field, bits [31:26] (R71). -/
def opcodeField (w : Word) : BitVec 6 := w.extractLsb' 26 6

/-- The register a 4-bit field names (R79). -/
def regOfBits (b : BitVec 4) : Reg := ⟨b.toNat, b.isLt⟩

/-- The 4-bit field that names a register (R79). -/
def bitsOfReg (r : Reg) : BitVec 4 := BitVec.ofNat 4 r.val

/-- Bits [23:20]: rd of formats I and RI (R73, R74). -/
def rdField (w : Word) : Reg := regOfBits (w.extractLsb' 20 4)

/-- Bits [19:16]: rb of format I, rs of format RI with F = 0 (R73, R74). -/
def rbField (w : Word) : Reg := regOfBits (w.extractLsb' 16 4)

/-- Bits [15:0] as a signed number: the immediate of LDR, STR and INT (R73, R76). -/
def immField (w : Word) : Int := (w.extractLsb' 0 16).toInt

/-- Bits [15:0] as an unsigned number: the mask of PUSH and POP (R76). -/
def maskField (w : Word) : Nat := (w.extractLsb' 0 16).toNat

/-- The second operand of format RI, chosen by the immediate flag in bit 0 (R74, R77). -/
def srcField (w : Word) : Src :=
  if w.getLsbD 0 then .imm (w.extractLsb' 1 16).toInt else .reg (rbField w)

/-- Bits [23:0] as a signed number: the offset of format M (R75, R78). -/
def offField (w : Word) : Int := (w.extractLsb' 0 24).toInt

/-- What the decoder answers (R15, R86). -/
inductive Decoded where
  /-- One of the thirty instructions. -/
  | instr (i : Instr)
  /-- The opcode has no operation (R81). -/
  | illegal (opcode : BitVec 6)
deriving DecidableEq, Repr

/-- The operand fields of a word, read in the format of the operation (R86). Every bit the format
reserves or the operation does not use is ignored (R82). -/
def decodeOperands (op : Op) (w : Word) : Instr :=
  match op with
  | .add => .add (rdField w) (srcField w)
  | .sub => .sub (rdField w) (srcField w)
  | .mul => .mul (rdField w) (srcField w)
  | .div => .div (rdField w) (srcField w)
  | .mod => .mod (rdField w) (srcField w)
  | .and => .and (rdField w) (srcField w)
  | .or => .or (rdField w) (srcField w)
  | .xor => .xor (rdField w) (srcField w)
  | .shl => .shl (rdField w) (srcField w)
  | .shr => .shr (rdField w) (srcField w)
  | .cmp => .cmp (rdField w) (srcField w)
  | .mov => .mov (rdField w) (srcField w)
  | .ldr => .ldr (rdField w) (rbField w) (immField w)
  | .str => .str (rdField w) (rbField w) (immField w)
  | .push => .push (maskField w)
  | .pop => .pop (maskField w)
  | .jmp => .jmp (offField w)
  | .beq => .beq (offField w)
  | .bne => .bne (offField w)
  | .blt => .blt (offField w)
  | .bge => .bge (offField w)
  | .bgt => .bgt (offField w)
  | .ble => .ble (offField w)
  | .bcs => .bcs (offField w)
  | .bcc => .bcc (offField w)
  | .call => .call (offField w)
  | .ret => .ret
  | .int => .int (immField w)
  | .iret => .iret
  | .hlt => .hlt

/-- The instruction decoder, total on all 2^32 words and a function of the word alone (R84, R86). -/
def decode (w : Word) : Decoded :=
  match lookupByOpcode (opcodeField w) with
  | none => .illegal (opcodeField w)
  | some op => .instr (decodeOperands op w)

/-- The instruction the decoder reads from the bits `w` of an instruction of `nbits` bits, bit 0 the
least significant; every bit from `nbits` on is 0. An instruction is one 32-bit word (R70). -/
def decodeTableWord (nbits w : Nat) : Option Instr :=
  match decode (BitVec.ofNat 32 (w % 2 ^ nbits)) with
  | .instr i => some i
  | .illegal _ => none

/-- The operation of an instruction term. -/
def Instr.op : Instr → Op
  | .add _ _ => .add
  | .sub _ _ => .sub
  | .mul _ _ => .mul
  | .div _ _ => .div
  | .mod _ _ => .mod
  | .and _ _ => .and
  | .or _ _ => .or
  | .xor _ _ => .xor
  | .shl _ _ => .shl
  | .shr _ _ => .shr
  | .cmp _ _ => .cmp
  | .mov _ _ => .mov
  | .ldr _ _ _ => .ldr
  | .str _ _ _ => .str
  | .push _ => .push
  | .pop _ => .pop
  | .jmp _ => .jmp
  | .beq _ => .beq
  | .bne _ => .bne
  | .blt _ => .blt
  | .bge _ => .bge
  | .bgt _ => .bgt
  | .ble _ => .ble
  | .bcs _ => .bcs
  | .bcc _ => .bcc
  | .call _ => .call
  | .int _ => .int
  | .ret => .ret
  | .iret => .iret
  | .hlt => .hlt

/-- The opcode in bits [31:26] of an otherwise zero word, `opcode << 26` (R71, R87). -/
def opcodeBits (op : Op) : Word := op.opcode.setWidth 32 <<< 26

/-- A register number in the 4-bit field whose lowest bit is `lo` (R79, R87). -/
def regBits (r : Reg) (lo : Nat) : Word := (bitsOfReg r).setWidth 32 <<< lo

/-- Format RI as a word: the immediate lies at [16:1], directly above the flag (R74, R87). -/
def encodeRI (op : Op) (rd : Reg) : Src → Word
  | .reg rs => opcodeBits op ||| regBits rd 20 ||| regBits rs 16
  | .imm v => opcodeBits op ||| regBits rd 20 ||| (BitVec.ofInt 16 v).setWidth 32 <<< 1 ||| 1#32

/-- Format I as a word (R73, R87). -/
def encodeI (op : Op) (rd rb : Reg) (imm : BitVec 16) : Word :=
  opcodeBits op ||| regBits rd 20 ||| regBits rb 16 ||| imm.setWidth 32

/-- Format M as a word (R75, R87). -/
def encodeM (op : Op) (off : Int) : Word := opcodeBits op ||| (BitVec.ofInt 24 off).setWidth 32

/-- Format R of an instruction with no operands as a word (R72, R87). -/
def encodeR (op : Op) : Word := opcodeBits op

/-- The encoder: the word of an instruction, with every reserved and unused bit zero (R87). -/
def encode : Instr → Word
  | .add rd src => encodeRI .add rd src
  | .sub rd src => encodeRI .sub rd src
  | .mul rd src => encodeRI .mul rd src
  | .div rd src => encodeRI .div rd src
  | .mod rd src => encodeRI .mod rd src
  | .and rd src => encodeRI .and rd src
  | .or rd src => encodeRI .or rd src
  | .xor rd src => encodeRI .xor rd src
  | .shl rd src => encodeRI .shl rd src
  | .shr rd src => encodeRI .shr rd src
  | .cmp rd src => encodeRI .cmp rd src
  | .mov rd src => encodeRI .mov rd src
  | .ldr rd rb imm => encodeI .ldr rd rb (BitVec.ofInt 16 imm)
  | .str rd rb imm => encodeI .str rd rb (BitVec.ofInt 16 imm)
  | .push mask => encodeI .push 0 0 (BitVec.ofNat 16 mask)
  | .pop mask => encodeI .pop 0 0 (BitVec.ofNat 16 mask)
  | .jmp off => encodeM .jmp off
  | .beq off => encodeM .beq off
  | .bne off => encodeM .bne off
  | .blt off => encodeM .blt off
  | .bge off => encodeM .bge off
  | .bgt off => encodeM .bgt off
  | .ble off => encodeM .ble off
  | .bcs off => encodeM .bcs off
  | .bcc off => encodeM .bcc off
  | .call off => encodeM .call off
  | .ret => encodeR .ret
  | .int n => encodeI .int 0 0 (BitVec.ofInt 16 n)
  | .iret => encodeR .iret
  | .hlt => encodeR .hlt

/-- The bits of a word of operation `op` that the decoder ignores: [25:24] in every format, and what
the format reserves or the instruction does not use (R82). -/
def ignoredBits (op : Op) (w : Word) : Word :=
  match op.descriptor.family with
  | .R => 0x03FFFFFF#32
  | .I => if op = .ldr ∨ op = .str then 0x03000000#32 else 0x03FF0000#32
  | .RI => if w.getLsbD 0 then 0x030E0000#32 else 0x0300FFFE#32
  | .M => 0x03000000#32

end Sys2Proof
end

