-- ==== Sys2Proof/Config.lean ====
section
/-! DEFINITION. The launch parameters of the machine and the values the spec fixes (00_scope.md R5, R6). -/

namespace Sys2Proof

/-- The parameters R6 leaves open, which "a model takes as an argument". They are fixed at launch and
no step changes them (log 2). -/
structure Config where
  /-- RAM_WORDS, the size of RAM in words (R6, D14). -/
  ramWords : Nat
  /-- ROM_WORDS, the size of ROM in words, when there is a ROM (R6, D14). -/
  romWords : Nat
  /-- FB_BASE, the first RAM word of the framebuffer window (R6, D28). -/
  fbBase : Nat
  /-- FB_WIDTH, the words of one framebuffer row (R6, D28). -/
  fbWidth : Nat
  /-- FB_HEIGHT, the rows of the framebuffer window (R6, D28). -/
  fbHeight : Nat
deriving DecidableEq, Repr

/-- VEC_BASE: the RAM word address of the vector table (R6, D18). -/
def Config.vecBase : Nat := 0x0100

/-- NUM_VECTORS: the number of interrupt vectors (R6, D18). -/
def Config.numVectors : Nat := 16

/-- TIMER_PERIOD: the timer ticks every 1000 cycles (R5, R237). -/
def Config.timerPeriod : Nat := 1000

/-- The size of the framebuffer window in words; 0 means no window (R6, R60). -/
def Config.fbWords (c : Config) : Nat := c.fbWidth * c.fbHeight

/-- The constraints of R6 on the parameters: the vector table fits in RAM, both memories have at most
2^31 words, ROM has at least one, and the framebuffer window lies inside RAM. -/
def Config.valid (c : Config) : Bool :=
  decide (Config.vecBase + 2 * Config.numVectors ≤ c.ramWords) && decide (c.ramWords ≤ 2 ^ 31) &&
  decide (1 ≤ c.romWords) && decide (c.romWords ≤ 2 ^ 31) &&
  (decide (c.fbWords = 0) || decide (c.fbBase + c.fbWords ≤ c.ramWords))

/-- The parameters of `State.reset`: the spec's default memory sizes (R6). DESIGN CHOICE: no
framebuffer window, since FB_BASE, FB_WIDTH and FB_HEIGHT are OPEN (D28, log 4). -/
def Config.default : Config :=
  { ramWords := 0x10000, romWords := 0x10000, fbBase := 0, fbWidth := 0, fbHeight := 0 }

end Sys2Proof
end

