-- ==== Sys2Proof/Machine/State.lean ====
section
/-! DEFINITION. The state of the machine, its fault records, the outcomes of an operation, and the state after reset
(10_state.md, 60_exceptions.md R230 to R233). -/

namespace Sys2Proof.Machine

/-- A privilege mode (10_state.md R29, 60_exceptions.md R250). The 2-bit value 3 is never held. -/
inductive Mode where
  | bios | kernel | user
deriving DecidableEq, Repr

/-- The six flags of the 8-bit flag register (10_state.md R24). Bits 6 and 7 always read 0 and are
constants of the byte view `Flags.toByte` (log 7). -/
structure Flags where
  /-- Z, bit 0: the last flag-setting result was zero. -/
  z : Bool
  /-- C, bit 1: carry out of ADD, borrow of SUB and CMP. -/
  c : Bool
  /-- N, bit 2: bit 31 of the last flag-setting result. -/
  n : Bool
  /-- V, bit 3: signed overflow of ADD, SUB and CMP. -/
  v : Bool
  /-- IE, bit 4: pending interrupts may be dispatched. -/
  ie : Bool
  /-- IP, bit 5: an interrupt is pending. -/
  ip : Bool
deriving DecidableEq, Repr

/-- The fault kinds of R230, in the order of their codes 1 to 7. -/
inductive FaultKind where
  /-- Code 1: the fetched word's opcode has no operation. -/
  | illegalOpcode
  /-- Code 2: DIV or MOD with divisor 0. -/
  | divisionByZero
  /-- Code 3: a push with sp = 0. -/
  | stackOverflow
  /-- Code 4: a pop with sp at or beyond RAM_WORDS. -/
  | stackUnderflow
  /-- Code 5: a fetch outside the fetch space, or an LDR or STR address outside RAM. -/
  | memoryOutOfBounds
  /-- Code 6: INT in KERNEL or USER mode with a number that names no vector. -/
  | invalidInterruptNumber
  /-- Code 7: IRET of a status word whose mode field is 3. -/
  | invalidStatusWord
deriving DecidableEq, Repr

/-- The `address` of a fault record when it has one (R233): a word (a memory address, sp, the status
word, the fetched word), or the interrupt number "as a signed number". -/
inductive FaultAddress where
  | word (w : Word)
  | number (n : Int)
deriving DecidableEq, Repr

/-- The fault record `{kind, pc, opcode, address}` (10_state.md R31, 60_exceptions.md R233). -/
structure FaultRecord where
  kind : FaultKind
  pc : Word
  opcode : Option (BitVec 6)
  address : Option FaultAddress
deriving DecidableEq, Repr

/-- One listed word of a memory: its word address and its value. The core is word-addressed and has no
bytes (20_memory.md R51, R55; log 1). -/
abbrev Cell := Nat × Word

/-- A memory: the words that differ from what an unlisted address reads as, at strictly rising
addresses (`Mem.wf`). -/
abbrev Mem := List Cell

/-- The `row_slice` of a framebuffer notification: the words of the written row (20_memory.md R60). -/
abbrev RowSlice := List Word

/-- The state of the machine. Every field but `cfg` and `fbEvents` is state the spec names. -/
structure State where
  /-- The launch parameters, which no step changes (00_scope.md R6; log 2). -/
  cfg : Config
  /-- The general registers x[0] to x[15] (R20). -/
  regs : Vector Word 16
  /-- The program counter, a word index into the fetch space (R22). -/
  pc : Word
  /-- The stack pointer, a RAM word index in [0, RAM_WORDS] (R23). -/
  sp : Word
  /-- The flag register (R24). -/
  flags : Flags
  /-- The pending interrupt-number latch (R27). -/
  irqNum : Word
  /-- The privilege mode (R29). -/
  mode : Mode
  /-- The cycle counter, one per step of a running machine (R30). -/
  cycle : BitVec 64
  /-- True while the engine is Running, false once it is Halted (R31). -/
  running : Bool
  /-- The fault record, None until a fault halts the machine (R31). -/
  fault : Option FaultRecord
  /-- RAM, the data space in every mode (R32, R50). -/
  ram : Mem
  /-- ROM when a BIOS image was supplied; None is HAS_ROM = false, "no ROM array exists" (R32, log 10). -/
  rom : Option Mem
  /-- The framebuffer notifications emitted so far, oldest first: the model's record of the core's
  output, which nothing reads (R60, log 5). -/
  fbEvents : List RowSlice
deriving DecidableEq, Repr

/-- The model's own stop. The machine's seven faults are NOT these: they are states, in which the
machine is halted with a fault record (R232, log 6). -/
inductive Fault where
  /-- The core would touch RAM word `a`, which does not exist, where the spec says the access is
  always in bounds. Raised by a push with sp beyond RAM_WORDS and by a framebuffer row that leaves
  RAM. No state that keeps R36 and R6 raises it. Safe: the model stops, it invents no effect. -/
  | absentRam (a : Nat)
deriving DecidableEq, Repr

/-- The model's refusals. -/
inductive Refusal where
  /-- The instruction has no meaning in this model. Raised by no arm of `exec`: every instruction of
  the opcode table has its meaning. Safe. -/
  | notModelled (mnemonic : String)
deriving DecidableEq, Repr

/-- The result of an operation inside a step. -/
inductive Res (α : Type) where
  /-- The operation completes with a value. -/
  | ok (a : α)
  /-- The operation raises a fault of the machine, `raise <Fault>(info)` of R10. -/
  | raise (kind : FaultKind) (address : Option FaultAddress)
  /-- The operation would touch an absent RAM word (`Fault.absentRam`). -/
  | absent (a : Nat)
deriving DecidableEq, Repr

/-- Run `f` on the value of an operation that completes; a fault ends the step. -/
def Res.bind {α β : Type} (r : Res α) (f : α → Res β) : Res β :=
  match r with
  | .ok a => f a
  | .raise k addr => .raise k addr
  | .absent a => .absent a

/-- The flags after reset: "flags cleared except InterruptEnable set" (R35). -/
def Flags.reset : Flags := { z := false, c := false, n := false, v := false, ie := true, ip := false }

/-- The state after reset with parameters `cfg`, the words `ram` loaded, and the BIOS image `rom` if
one was supplied (R35, 70_reset_and_hazards.md R271). -/
def State.resetWith (cfg : Config) (ram : Mem) (rom : Option Mem) : State :=
  { cfg := cfg
    regs := Vector.replicate 16 0
    pc := 0
    sp := BitVec.ofNat 32 cfg.ramWords
    flags := Flags.reset
    irqNum := 0
    mode := if rom.isSome then .bios else .kernel
    cycle := 0
    running := true
    fault := none
    ram := ram
    rom := rom
    fbEvents := [] }

/-- The machine right after reset, with the default parameters, no program image and no ROM image
(R35). A program is loaded from outside the machine (`launch`, log 3). -/
def State.reset : State := State.resetWith Config.default [] none

end Sys2Proof.Machine
end

