-- ==== Sys2Proof/Machine/Memory.lean ====
section
/-! DEFINITION. Memory as canonical data, the state's setters, and the bounds-checked accesses of 20_memory.md
(R50 to R57). -/

namespace Sys2Proof.Machine

/-- What an unlisted address reads as: RAM and ROM beyond the images are 0 at reset (10_state.md R35,
D36). -/
def Mem.unlisted : Word := 0

/-- The word at an address. -/
def Mem.read : Mem → Nat → Word
  | [], _ => Mem.unlisted
  | (b, v) :: m, a => if a = b then v else Mem.read m a

/-- Store a word at an address, keeping the canonical form: writing what an unlisted address reads as
removes the entry. -/
def Mem.write : Mem → Nat → Word → Mem
  | [], a, v => if v = Mem.unlisted then [] else [(a, v)]
  | (b, u) :: m, a, v =>
    if a < b then (if v = Mem.unlisted then (b, u) :: m else (a, v) :: (b, u) :: m)
    else if a = b then (if v = Mem.unlisted then m else (a, v) :: m)
    else (b, u) :: Mem.write m a v

/-- The canonical form: addresses strictly rising, and no entry equal to what an unlisted address
reads as. -/
abbrev Mem.wf (m : Mem) : Prop :=
  m.Pairwise (fun c d => c.1 < d.1) ∧ ∀ c ∈ m, c.2 ≠ Mem.unlisted

/-- Every listed address is below `n`, the size of the memory's array. -/
abbrev Mem.within (m : Mem) (n : Nat) : Prop := ∀ c ∈ m, c.1 < n

/-- The memory that holds the words of an image from address `a` on and nothing else (R59). -/
def Mem.ofWords : Nat → List Word → Mem
  | _, [] => []
  | a, w :: ws =>
    if w = Mem.unlisted then Mem.ofWords (a + 1) ws else (a, w) :: Mem.ofWords (a + 1) ws

/-- x[r] (10_state.md R20). -/
def State.getReg (s : State) (r : Reg) : Word := s.regs[r]

/-- `x[r] <- v` (10_state.md R20): every register is writable. -/
def State.setReg (s : State) (r : Reg) (v : Word) : State := { s with regs := s.regs.set r v }

/-- `pc <- p`. -/
def State.setPc (s : State) (p : Word) : State := { s with pc := p }

/-- `sp <- v`. -/
def State.setSp (s : State) (v : Word) : State := { s with sp := v }

/-- Write the flag register. -/
def State.setFlags (s : State) (f : Flags) : State := { s with flags := f }

/-- `irq_num <- n`. -/
def State.setIrqNum (s : State) (n : Word) : State := { s with irqNum := n }

/-- `mode <- m`. -/
def State.setMode (s : State) (m : Mode) : State := { s with mode := m }

/-- `cycle <- c`. -/
def State.setCycle (s : State) (c : BitVec 64) : State := { s with cycle := c }

/-- `running <- b`. -/
def State.setRunning (s : State) (b : Bool) : State := { s with running := b }

/-- `fault <- r`. -/
def State.setFault (s : State) (r : FaultRecord) : State := { s with fault := some r }

/-- Replace the RAM array. -/
def State.setRam (s : State) (m : Mem) : State := { s with ram := m }

/-- Replace the ROM array. Only a launch does this: "ROM is never written" by a step (R54). -/
def State.setRom (s : State) (m : Mem) : State := { s with rom := some m }

/-- Emit the event `on_framebuffer_write(row)` (R60). -/
def State.emit (s : State) (row : RowSlice) : State := { s with fbEvents := s.fbEvents ++ [row] }

/-- HAS_ROM: whether a ROM image was supplied at launch (00_scope.md R6). -/
def State.hasRom (s : State) : Bool := s.rom.isSome

/-- RAM[a], the word at RAM address `a`. -/
def State.ramWord (s : State) (a : Nat) : Word := Mem.read s.ram a

/-- `MemRead(a, 1)` (R53): the data space is RAM in every mode (R50). -/
def memRead (a : Word) (s : State) : Res Word :=
  if a.toNat < s.cfg.ramWords then .ok (s.ramWord a.toNat)
  else .raise .memoryOutOfBounds (some (.word a))

/-- `MemWrite(a, 1, v)` (R53). -/
def memWrite (a v : Word) (s : State) : Res State :=
  if a.toNat < s.cfg.ramWords then .ok (s.setRam (Mem.write s.ram a.toNat v))
  else .raise .memoryOutOfBounds (some (.word a))

/-- `FetchRead(a)` (R52): BIOS mode fetches from ROM when there is one, every other case from RAM;
none is the MemoryOutOfBounds of an address outside the fetch space, which `fetch` raises. -/
def fetchRead (a : Word) (s : State) : Option Word :=
  match s.mode, s.rom with
  | .bios, some rom => if a.toNat < s.cfg.romWords then some (Mem.read rom a.toNat) else none
  | _, _ => if a.toNat < s.cfg.ramWords then some (s.ramWord a.toNat) else none

end Sys2Proof.Machine
end

