-- ==== Sys2Proof/Machine/Flags.lean ====
section
/-! DEFINITION. The flag register: its byte view, the status word, every flag computation and every branch condition
(10_state.md R24 to R29, 40_alu.md R141, 43_branch.md R192). -/

namespace Sys2Proof.Machine

/-- The flag register as a byte, `{0, 0, IP, IE, V, N, C, Z}` (R24). -/
def Flags.toByte (f : Flags) : BitVec 8 :=
  (BitVec.ofBool f.z).setWidth 8 ||| (BitVec.ofBool f.c).setWidth 8 <<< 1 |||
  (BitVec.ofBool f.n).setWidth 8 <<< 2 ||| (BitVec.ofBool f.v).setWidth 8 <<< 3 |||
  (BitVec.ofBool f.ie).setWidth 8 <<< 4 ||| (BitVec.ofBool f.ip).setWidth 8 <<< 5

/-- The 2-bit value of a mode: BIOS 0, KERNEL 1, USER 2 (R29). -/
def Mode.toBits : Mode → BitVec 2
  | .bios => 0
  | .kernel => 1
  | .user => 2

/-- The mode a 2-bit field names; none for the value 3 (R29). -/
def Mode.ofBits (b : BitVec 2) : Option Mode :=
  if b = 0 then some .bios else if b = 1 then some .kernel else if b = 2 then some .user else none

/-- The status word interrupt entry pushes, `{zeros[31:10], mode[9:8], flags[7:0]}` (R28). -/
def State.statusWord (s : State) : Word :=
  s.mode.toBits.setWidth 32 <<< 8 ||| s.flags.toByte.setWidth 32

/-- The mode field of a status word, bits [9:8]; none for 3 (R28). -/
def statusMode (st : Word) : Option Mode := Mode.ofBits (st.extractLsb' 8 2)

/-- The flags IRET restores from a status word: Z, C, N, V and IE from bits 0 to 4; IP stays, and
bits 5, 6, 7 and [31:10] are ignored (R28, 44_system.md R211). -/
def Flags.restore (f : Flags) (st : Word) : Flags :=
  { z := st.getLsbD 0, c := st.getLsbD 1, n := st.getLsbD 2, v := st.getLsbD 3, ie := st.getLsbD 4,
    ip := f.ip }

/-- `setZN(r)` (R141). -/
def Flags.setZN (f : Flags) (r : Word) : Flags := { f with z := decide (r = 0), n := r.msb }

/-- `setAddCV(a, b, r)` (R141): the carry out of a + b and its signed overflow. -/
def Flags.setAddCV (f : Flags) (a b r : Word) : Flags :=
  { f with
    c := decide (2 ^ 32 ≤ a.toNat + b.toNat)
    v := a.msb == b.msb && r.msb != a.msb }

/-- `setSubCV(a, b, r)` (R141): C is the borrow of a - b, V its signed overflow. -/
def Flags.setSubCV (f : Flags) (a b r : Word) : Flags :=
  { f with
    c := decide (a.toNat < b.toNat)
    v := a.msb != b.msb && r.msb != a.msb }

/-- BEQ's condition: Z == 1 (R192). -/
def Flags.eq (f : Flags) : Bool := f.z

/-- BNE's condition: Z == 0 (R192). -/
def Flags.ne (f : Flags) : Bool := !f.z

/-- BLT's condition: N != V (R192). -/
def Flags.lt (f : Flags) : Bool := f.n != f.v

/-- BGE's condition: N == V (R192). -/
def Flags.ge (f : Flags) : Bool := f.n == f.v

/-- BGT's condition: Z == 0 and N == V (R192). -/
def Flags.gt (f : Flags) : Bool := !f.z && f.n == f.v

/-- BLE's condition: Z == 1 or N != V (R192). -/
def Flags.le (f : Flags) : Bool := f.z || f.n != f.v

/-- BCS's condition: C == 1 (R192). -/
def Flags.cs (f : Flags) : Bool := f.c

/-- BCC's condition: C == 0 (R192). -/
def Flags.cc (f : Flags) : Bool := !f.c

end Sys2Proof.Machine
end

