-- ==== Sys2Proof/Machine/Operands.lean ====
section
/-! DEFINITION. Every operand form: the format RI second operand, the effective address, the branch target, the register
mask and the framebuffer row (30_encoding.md R76 to R78, 41_load_store.md R170, 43_branch.md R190, 20_memory.md R60). -/

namespace Sys2Proof.Machine

/-- A signed operand as a 32-bit word, the `sext_N` of its field (00_scope.md R8). -/
def signedWord (v : Int) : Word := BitVec.ofInt 32 v

/-- The value of a format RI second operand, read before any write (30_encoding.md R77, 40_alu.md R140). -/
def State.srcValue (s : State) : Src → Word
  | .reg rs => s.getReg rs
  | .imm v => signedWord v

/-- `ea <- x[rb] + sext_16(imm16)` modulo 2^32 (R170). -/
def State.effectiveAddress (s : State) (rb : Reg) (imm : Int) : Word := s.getReg rb + signedWord imm

/-- The target of a format M instruction, `(ia + 1) + sext_24(off24)` modulo 2^32; pc holds ia + 1
while the instruction executes (R190, 30_encoding.md R92). -/
def State.branchTarget (s : State) (off : Int) : Word := s.pc + signedWord off

/-- Bit i of a mask selects register Ri (30_encoding.md R76). -/
def maskSelects (mask : Nat) (r : Reg) : Bool := mask.testBit r.val

/-- The registers in the order PUSH takes them, low to high (R183). -/
def regsLowToHigh : List Reg := [0, 1, 2, 3, 4, 5, 6, 7, 8, 9, 10, 11, 12, 13, 14, 15]

/-- The registers in the order POP takes them, high to low (R184). -/
def regsHighToLow : List Reg := [15, 14, 13, 12, 11, 10, 9, 8, 7, 6, 5, 4, 3, 2, 1, 0]

/-- How many registers a mask selects (`popcount`, 00_scope.md R9). -/
def maskCount (mask : Nat) : Nat := regsLowToHigh.countP (maskSelects mask)

/-- A RAM address lies in the framebuffer window (R60). -/
def inWindow (c : Config) (a : Nat) : Bool := decide (c.fbBase ≤ a) && decide (a < c.fbBase + c.fbWords)

/-- The row of the framebuffer that holds address `a` (R60). -/
def fbRow (c : Config) (a : Nat) : Nat := (a - c.fbBase) / c.fbWidth

/-- The first RAM address of the row that holds address `a` (R60). -/
def rowStart (c : Config) (a : Nat) : Nat := c.fbBase + fbRow c a * c.fbWidth

/-- `row_slice`: the FB_WIDTH words of the row that holds address `a` (R60). A row that leaves RAM is
possible only with parameters outside R6; the operation is then stopped. -/
def rowSlice (a : Nat) (s : State) : Res RowSlice :=
  let first := rowStart s.cfg a
  if first + s.cfg.fbWidth ≤ s.cfg.ramWords then
    .ok ((List.range s.cfg.fbWidth).map (fun k => s.ramWord (first + k)))
  else .absent s.cfg.ramWords

end Sys2Proof.Machine
end

