-- ==== Sys2Proof/Machine/Ops.lean ====
section
/-! DEFINITION. The shared operations of a step: the stack primitives, taking a fault, trap entry and trap return, the
timer tick, interrupt dispatch and the fetch (42_stack.md R181, R182; 60_exceptions.md R230 to R245; 30_encoding.md R90). -/

namespace Sys2Proof.Machine

/-- `Push1(v)` (R181); `sp0` is sp at the start of the step, the address a StackOverflow reports. -/
def pushWord (sp0 v : Word) (s : State) : Res State :=
  if s.sp = 0 then .raise .stackOverflow (some (.word sp0))
  else
    let top := s.sp - 1
    if top.toNat < s.cfg.ramWords then .ok ((s.setSp top).setRam (Mem.write s.ram top.toNat v))
    else .absent top.toNat

/-- `Pop1()` (R182): the word popped and the state after it. -/
def popWord (sp0 : Word) (s : State) : Res (Word × State) :=
  if s.cfg.ramWords ≤ s.sp.toNat then .raise .stackUnderflow (some (.word sp0))
  else .ok (s.ramWord s.sp.toNat, s.setSp (s.sp + 1))

/-- Push the registers of a list that the mask selects, in the list's order (R183). -/
def pushRegs (mask : Nat) (sp0 : Word) : List Reg → State → Res State
  | [], s => .ok s
  | r :: rs, s =>
    if maskSelects mask r then (pushWord sp0 (s.getReg r) s).bind (fun t => pushRegs mask sp0 rs t)
    else pushRegs mask sp0 rs s

/-- Pop into the registers of a list that the mask selects, in the list's order (R184). -/
def popRegs (mask : Nat) (sp0 : Word) : List Reg → State → Res State
  | [], s => .ok s
  | r :: rs, s =>
    if maskSelects mask r then
      (popWord sp0 s).bind (fun p => popRegs mask sp0 rs (p.2.setReg r p.1))
    else popRegs mask sp0 rs s

/-- TAKING A FAULT (R232): of the step, only `pc <- r.pc`, `running <- false` and the record are
committed over `s`, the state after the tick. -/
def State.haltWith (s : State) (r : FaultRecord) : State := ((s.setPc r.pc).setRunning false).setFault r

/-- End a step from the result of its operation: a fault halts `s`, the state before the operation,
with the record of R233; everything the operation wrote is discarded (R232). -/
def finish (opcode : Option (BitVec 6)) (faultPc : Word) (s : State) (r : Res State) :
    Host.Outcome State Fault Refusal :=
  match r with
  | .ok t => .next t
  | .raise k addr => .next (s.haltWith { kind := k, pc := faultPc, opcode := opcode, address := addr })
  | .absent a => .fault (.absentRam a)

/-- End an instruction's execution: pc holds ia + 1 while it executes, so a fault's pc is
ia = pc - 1 (30_encoding.md R92; log 8). -/
def complete (op : Op) (s : State) (r : Res State) : Host.Outcome State Fault Refusal :=
  finish (some op.opcode) (s.pc - 1) s r

/-- The RAM address of vector `n`'s handler word, VEC_BASE + 2n (R243; log 11). -/
def vectorAddress (n : Word) : Word := BitVec.ofNat 32 Config.vecBase + 2 * n

/-- TAKING A TRAP, `TrapEntry(n, ret)`, shared by INT and Dispatch (R241): push the status word, push
the return pc, clear IE, enter BIOS mode, go to the handler the vector table names. -/
def trapEntry (n ret sp0 : Word) (s : State) : Res State :=
  (pushWord sp0 s.statusWord s).bind fun s1 =>
  (pushWord sp0 ret s1).bind fun s2 =>
  let s3 := (s2.setFlags { s2.flags with ie := false }).setMode .bios
  (memRead (vectorAddress n) s3).bind fun handler =>
  .ok (s3.setPc handler)

/-- RETURNING FROM A TRAP (44_system.md R211): pop the return pc, pop the status word, restore pc,
mode, Z, C, N, V and IE; a mode field of 3 is an InvalidStatusWord. -/
def trapReturn (sp0 : Word) (s : State) : Res State :=
  (popWord sp0 s).bind fun p =>
  (popWord sp0 p.2).bind fun q =>
  match statusMode q.1 with
  | none => .raise .invalidStatusWord (some (.word q.1))
  | some m => .ok (((q.2.setPc p.1).setMode m).setFlags (q.2.flags.restore q.1))

/-- Parts 2 and 3 of a step: count the cycle, and at every TIMER_PERIOD-th cycle set IP and latch
interrupt number 0 (R237, R240). -/
def tick (s : State) : State :=
  let s1 := s.setCycle (s.cycle + 1)
  if s1.cycle.toNat % Config.timerPeriod = 0 then
    (s1.setFlags { s1.flags with ip := true }).setIrqNum 0
  else s1

/-- The pending interrupt is dispatched in this step: IP and IE are both set (R236, R240). -/
def interruptDue (s : State) : Bool := s.flags.ip && s.flags.ie

/-- `Dispatch()` (R242): clear IP, then enter the trap of `irq_num` with the current pc as return
address. A fault leaves pc as it is, and its record has no opcode (R232, R233). -/
def dispatchInterrupt (s : State) : Host.Outcome State Fault Refusal :=
  finish none s.pc s
    (trapEntry s.irqNum s.pc s.sp (s.setFlags { s.flags with ip := false }))

/-- What a fetch gives. -/
inductive Fetched where
  /-- An instruction to execute, and the state it executes in: pc is ia + 1. -/
  | instr (i : Instr) (s : State)
  /-- The fetch or the decode faulted: the halted state. -/
  | halted (s : State)
deriving DecidableEq, Repr

/-- The fetch and decode of part 4 of a step (30_encoding.md R90, R91): read the word at ia = pc,
advance pc, decode. A fetch outside the fetch space is a MemoryOutOfBounds with no opcode; an opcode
with no operation is an IllegalOpcode whose address is the fetched word (R81, R233). -/
def fetch (s : State) : Fetched :=
  match fetchRead s.pc s with
  | none =>
    .halted (s.haltWith
      { kind := .memoryOutOfBounds, pc := s.pc, opcode := none, address := some (.word s.pc) })
  | some w =>
    match decode w with
    | .illegal opc =>
      .halted (s.haltWith
        { kind := .illegalOpcode, pc := s.pc, opcode := some opc, address := some (.word w) })
    | .instr i => .instr i (s.setPc (s.pc + 1))

/-- Store a word where the next fetch reads: ROM in BIOS mode with a ROM, else RAM (20_memory.md R52).
A pc outside the fetch space has no such word, and the state is unchanged. -/
def placeFetchWord (s : State) (w : Word) : State :=
  match s.mode, s.rom with
  | .bios, some rom =>
    if s.pc.toNat < s.cfg.romWords then s.setRom (Mem.write rom s.pc.toNat w) else s
  | _, _ =>
    if s.pc.toNat < s.cfg.ramWords then s.setRam (Mem.write s.ram s.pc.toNat w) else s

/-- The numeric code of a fault kind (R230). -/
def FaultKind.code : FaultKind → Nat
  | .illegalOpcode => 1
  | .divisionByZero => 2
  | .stackOverflow => 3
  | .stackUnderflow => 4
  | .memoryOutOfBounds => 5
  | .invalidInterruptNumber => 6
  | .invalidStatusWord => 7

end Sys2Proof.Machine
end

