-- ==== Sys2Proof/Machine/Alu.lean ====
section
/-! DEFINITION. The alu block and the meanings of ADD, SUB, MUL, DIV, MOD, AND, OR, XOR, SHL, SHR, CMP and MOV
(40_alu.md R140 to R153). -/

namespace Sys2Proof.Machine

/-- What the alu gives: a 32-bit result and the updated flags (00_scope.md R16). -/
structure AluOut where
  result : Word
  flags : Flags
deriving DecidableEq, Repr

/-- A result whose operation writes Z and N and leaves C and V unchanged (10_state.md R25). -/
def aluZN (r : Word) (f : Flags) : AluOut := { result := r, flags := f.setZN r }

/-- The sum modulo 2^32 with all four flags (R142). -/
def aluAdd (a b : Word) (f : Flags) : AluOut :=
  { result := a + b, flags := (f.setZN (a + b)).setAddCV a b (a + b) }

/-- The difference modulo 2^32 with all four flags, C the borrow (R143, R152). -/
def aluSub (a b : Word) (f : Flags) : AluOut :=
  { result := a - b, flags := (f.setZN (a - b)).setSubCV a b (a - b) }

/-- The low 32 bits of the product (R144). -/
def aluMul (a b : Word) (f : Flags) : AluOut := aluZN (BitVec.ofNat 32 (a.toNat * b.toNat)) f

/-- The signed quotient, truncated toward zero and narrowed to a word; none is DivisionByZero (R145).
Narrowing gives 0x80000000 for -2^31 / -1, as the rule's special case says. -/
def aluDiv (a b : Word) (f : Flags) : Option AluOut :=
  if b = 0 then none else some (aluZN (BitVec.ofInt 32 (a.toInt.tdiv b.toInt)) f)

/-- The signed remainder with the sign of the dividend, `a - trunc(a / b) * b`; none is DivisionByZero
(R146). For -2^31 and -1 it is 0, as the rule's special case says. -/
def aluMod (a b : Word) (f : Flags) : Option AluOut :=
  if b = 0 then none
  else some (aluZN (BitVec.ofInt 32 (a.toInt - a.toInt.tdiv b.toInt * b.toInt)) f)

/-- Bitwise AND (R147). -/
def aluAnd (a b : Word) (f : Flags) : AluOut := aluZN (a &&& b) f

/-- Bitwise inclusive OR (R148). -/
def aluOr (a b : Word) (f : Flags) : AluOut := aluZN (a ||| b) f

/-- Bitwise exclusive OR (R149). -/
def aluXor (a b : Word) (f : Flags) : AluOut := aluZN (a ^^^ b) f

/-- Logical shift left by the whole operand read as unsigned; 32 or more gives 0 (R150). -/
def aluShl (a b : Word) (f : Flags) : AluOut :=
  aluZN (if 32 ≤ b.toNat then 0 else a <<< b.toNat) f

/-- Logical shift right by the whole operand read as unsigned; 32 or more gives 0 (R151). -/
def aluShr (a b : Word) (f : Flags) : AluOut :=
  aluZN (if 32 ≤ b.toNat then 0 else a >>> b.toNat) f

/-- Write an alu result to rd and its flags to the flag register. -/
def writeAlu (rd : Reg) (o : AluOut) (s : State) : State := (s.setReg rd o.result).setFlags o.flags

/-- Run an alu operation that cannot fault on x[rd] and the second operand, both read before any
write (R140). -/
def runAlu (f : Word → Word → Flags → AluOut) (rd : Reg) (src : Src) (s : State) : State :=
  writeAlu rd (f (s.getReg rd) (s.srcValue src) s.flags) s

/-- Run a division: none raises DivisionByZero, with no register or flag written (R145, R146). -/
def runDivision (f : Word → Word → Flags → Option AluOut) (rd : Reg) (src : Src) (s : State) :
    Res State :=
  match f (s.getReg rd) (s.srcValue src) s.flags with
  | none => .raise .divisionByZero none
  | some o => .ok (writeAlu rd o s)

/-- ADD (R142). -/
def execAdd (rd : Reg) (src : Src) (s : State) : Host.Outcome State Fault Refusal :=
  .next (runAlu aluAdd rd src s)

/-- SUB (R143). -/
def execSub (rd : Reg) (src : Src) (s : State) : Host.Outcome State Fault Refusal :=
  .next (runAlu aluSub rd src s)

/-- MUL (R144). -/
def execMul (rd : Reg) (src : Src) (s : State) : Host.Outcome State Fault Refusal :=
  .next (runAlu aluMul rd src s)

/-- DIV (R145). -/
def execDiv (rd : Reg) (src : Src) (s : State) : Host.Outcome State Fault Refusal :=
  complete .div s (runDivision aluDiv rd src s)

/-- MOD (R146). -/
def execMod (rd : Reg) (src : Src) (s : State) : Host.Outcome State Fault Refusal :=
  complete .mod s (runDivision aluMod rd src s)

/-- AND (R147). -/
def execAnd (rd : Reg) (src : Src) (s : State) : Host.Outcome State Fault Refusal :=
  .next (runAlu aluAnd rd src s)

/-- OR (R148). -/
def execOr (rd : Reg) (src : Src) (s : State) : Host.Outcome State Fault Refusal :=
  .next (runAlu aluOr rd src s)

/-- XOR (R149). -/
def execXor (rd : Reg) (src : Src) (s : State) : Host.Outcome State Fault Refusal :=
  .next (runAlu aluXor rd src s)

/-- SHL (R150). -/
def execShl (rd : Reg) (src : Src) (s : State) : Host.Outcome State Fault Refusal :=
  .next (runAlu aluShl rd src s)

/-- SHR (R151). -/
def execShr (rd : Reg) (src : Src) (s : State) : Host.Outcome State Fault Refusal :=
  .next (runAlu aluShr rd src s)

/-- CMP (R152): subtract and write only the flags; no register is written. -/
def execCmp (rd : Reg) (src : Src) (s : State) : Host.Outcome State Fault Refusal :=
  .next (s.setFlags (aluSub (s.getReg rd) (s.srcValue src) s.flags).flags)

/-- MOV (R153): `x[rd] <- src`; no flag is written. -/
def execMov (rd : Reg) (src : Src) (s : State) : Host.Outcome State Fault Refusal :=
  .next (s.setReg rd (s.srcValue src))

end Sys2Proof.Machine
end

