-- ==== Sys2Proof/Machine/Branch.lean ====
section
/-! DEFINITION. The meanings of the branches, CALL and RET (43_branch.md R190 to R203). -/

namespace Sys2Proof.Machine

/-- `if cond(flags): pc <- target`; otherwise pc stays at ia + 1 (R192). -/
def branchIf (cond : Bool) (off : Int) (s : State) : State :=
  if cond then s.setPc (s.branchTarget off) else s

/-- JMP (R191). -/
def execJmp (off : Int) (s : State) : Host.Outcome State Fault Refusal :=
  .next (s.setPc (s.branchTarget off))

/-- BEQ (R193). -/
def execBeq (off : Int) (s : State) : Host.Outcome State Fault Refusal :=
  .next (branchIf s.flags.eq off s)

/-- BNE (R194). -/
def execBne (off : Int) (s : State) : Host.Outcome State Fault Refusal :=
  .next (branchIf s.flags.ne off s)

/-- BLT (R195). -/
def execBlt (off : Int) (s : State) : Host.Outcome State Fault Refusal :=
  .next (branchIf s.flags.lt off s)

/-- BGE (R196). -/
def execBge (off : Int) (s : State) : Host.Outcome State Fault Refusal :=
  .next (branchIf s.flags.ge off s)

/-- BGT (R197). -/
def execBgt (off : Int) (s : State) : Host.Outcome State Fault Refusal :=
  .next (branchIf s.flags.gt off s)

/-- BLE (R198). -/
def execBle (off : Int) (s : State) : Host.Outcome State Fault Refusal :=
  .next (branchIf s.flags.le off s)

/-- BCS (R199). -/
def execBcs (off : Int) (s : State) : Host.Outcome State Fault Refusal :=
  .next (branchIf s.flags.cs off s)

/-- BCC (R200). -/
def execBcc (off : Int) (s : State) : Host.Outcome State Fault Refusal :=
  .next (branchIf s.flags.cc off s)

/-- CALL (R201): push the return address ia + 1, then jump. -/
def execCall (off : Int) (s : State) : Host.Outcome State Fault Refusal :=
  complete .call s
    ((pushWord s.sp s.pc s).bind (fun t => .ok (t.setPc (s.branchTarget off))))

/-- RET (R202): pop pc. -/
def execRet (s : State) : Host.Outcome State Fault Refusal :=
  complete .ret s ((popWord s.sp s).bind (fun p => .ok (p.2.setPc p.1)))

end Sys2Proof.Machine
end

