-- ==== Sys2Proof/Machine/LoadStore.lean ====
section
/-! DEFINITION. The meanings of LDR and STR (41_load_store.md R170 to R172). -/

namespace Sys2Proof.Machine

/-- Notify the framebuffer after an STR to RAM address `a`: the row that holds `a`, read after the
write, if `a` lies in the window; nothing otherwise (20_memory.md R60). -/
def notifyFramebuffer (a : Nat) (s : State) : Res State :=
  if inWindow s.cfg a then (rowSlice a s).bind (fun row => .ok (s.emit row)) else .ok s

/-- LDR (R171): the base is read before rd is written; data accesses always use RAM. -/
def execLdr (rd rb : Reg) (imm : Int) (s : State) : Host.Outcome State Fault Refusal :=
  complete .ldr s ((memRead (s.effectiveAddress rb imm) s).bind (fun v => .ok (s.setReg rd v)))

/-- STR (R172): store x[rd], then notify the framebuffer. -/
def execStr (rd rb : Reg) (imm : Int) (s : State) : Host.Outcome State Fault Refusal :=
  let ea := s.effectiveAddress rb imm
  complete .str s ((memWrite ea (s.getReg rd) s).bind (fun t => notifyFramebuffer ea.toNat t))

end Sys2Proof.Machine
end

