-- ==== Sys2Proof/Machine/Stack.lean ====
section
/-! DEFINITION. The meanings of PUSH and POP (42_stack.md R183, R184). -/

namespace Sys2Proof.Machine

/-- PUSH (R183): push the selected registers low to high, all or nothing. -/
def execPush (mask : Nat) (s : State) : Host.Outcome State Fault Refusal :=
  complete .push s (pushRegs mask s.sp regsLowToHigh s)

/-- POP (R184): pop into the selected registers high to low, all or nothing. -/
def execPop (mask : Nat) (s : State) : Host.Outcome State Fault Refusal :=
  complete .pop s (popRegs mask s.sp regsHighToLow s)

end Sys2Proof.Machine
end

