-- ==== Sys2Proof/Machine/System.lean ====
section
/-! DEFINITION. The meanings of INT, IRET and HLT (44_system.md R210 to R213). -/

namespace Sys2Proof.Machine

/-- INT outside BIOS mode: check the number, then enter the trap with return address ia + 1 (R210). -/
def softwareInterrupt (n : Int) (s : State) : Res State :=
  if 0 ≤ n ∧ n < Config.numVectors then trapEntry (signedWord n) s.pc s.sp s
  else .raise .invalidInterruptNumber (some (.number n))

/-- INT (R210): in BIOS mode the handoff to KERNEL at address 0, whatever n is (60_exceptions.md R252);
in KERNEL and USER mode a trap. -/
def execInt (n : Int) (s : State) : Host.Outcome State Fault Refusal :=
  if s.mode = .bios then .next ((s.setMode .kernel).setPc 0)
  else complete .int s (softwareInterrupt n s)

/-- IRET (R211). -/
def execIret (s : State) : Host.Outcome State Fault Refusal :=
  complete .iret s (trapReturn s.sp s)

/-- HLT (R212): running <- false; the fault stays None and pc stays at ia + 1. -/
def execHlt (s : State) : Host.Outcome State Fault Refusal :=
  .next (s.setRunning false)

end Sys2Proof.Machine
end

