-- ==== Sys2Proof/Machine/Step.lean ====
section
/-! DEFINITION. One step of the machine (60_exceptions.md R240), and the host's placing of one instruction word. -/

namespace Sys2Proof.Machine

/-- `Step()` (R240): a halted machine does nothing (R234); a running one counts the cycle, applies the
timer tick, then dispatches the pending interrupt or fetches and executes one instruction. -/
def step (s : State) : Host.Outcome State Fault Refusal :=
  if s.running then
    let s1 := tick s
    if interruptDue s1 then dispatchInterrupt s1
    else
      match fetch s1 with
      | .instr i t => exec i t
      | .halted t => .next t
  else .next s

/-- `s` with the instruction whose bits are `w` (those from `nbits` on 0) stored where the next fetch
reads. It changes one word of the fetch space; a running machine with no interrupt due in its next
step then executes that instruction (log 3). -/
def State.withFetchWord (s : State) (nbits w : Nat) : State :=
  placeFetchWord s (BitVec.ofNat 32 (w % 2 ^ nbits))

end Sys2Proof.Machine
end

