-- ==== Sys2Proof/Machine/Disassembler.lean ====
section
/-! DEFINITION. The canonical disassembly text of an instruction (30_encoding.md R89). -/

namespace Sys2Proof.Machine

/-- Text, as the list of its characters. -/
abbrev Text := List Char

/-- The decimal digit of a number below 10. -/
def decDigit (d : Nat) : Char := Char.ofNat (48 + d)

/-- The decimal digits of `n`, most significant first, in at most `fuel` digits. -/
def decDigits : Nat → Nat → Text
  | 0, _ => []
  | fuel + 1, n => if n < 10 then [decDigit n] else decDigits fuel (n / 10) ++ [decDigit (n % 10)]

/-- A number in decimal; `n + 1` digits always suffice. -/
def decText (n : Nat) : Text := decDigits (n + 1) n

/-- The hex digit of a number below 16. DESIGN CHOICE: upper case, since R89 does not say the case of a
mask's digits (log 21). -/
def hexDigit (d : Nat) : Char := if d < 10 then Char.ofNat (48 + d) else Char.ofNat (55 + d)

/-- A mask as `#0x<4 hex digits>` (R89). -/
def maskText (m : Nat) : Text :=
  ['#', '0', 'x', hexDigit (m / 4096 % 16), hexDigit (m / 256 % 16), hexDigit (m / 16 % 16), hexDigit (m % 16)]

/-- A register as `R<k>` (R89). -/
def regText (r : Reg) : Text := 'R' :: decText r.val

/-- An immediate or offset as `#<signed decimal>` (R89). -/
def intText (v : Int) : Text := if v < 0 then '#' :: '-' :: decText v.natAbs else '#' :: decText v.natAbs

/-- A format RI second operand. -/
def srcText : Src → Text
  | .reg r => regText r
  | .imm v => intText v

/-- The separator of operands (R89). -/
def comma : Text := [',', ' ']

/-- The operands of an instruction, in assembler order (R80, R89). -/
def operandText : Instr → List Text
  | .add rd src => [regText rd, srcText src]
  | .sub rd src => [regText rd, srcText src]
  | .mul rd src => [regText rd, srcText src]
  | .div rd src => [regText rd, srcText src]
  | .mod rd src => [regText rd, srcText src]
  | .and rd src => [regText rd, srcText src]
  | .or rd src => [regText rd, srcText src]
  | .xor rd src => [regText rd, srcText src]
  | .shl rd src => [regText rd, srcText src]
  | .shr rd src => [regText rd, srcText src]
  | .cmp rd src => [regText rd, srcText src]
  | .mov rd src => [regText rd, srcText src]
  | .ldr rd rb imm => [regText rd, regText rb, intText imm]
  | .str rd rb imm => [regText rd, regText rb, intText imm]
  | .push mask => [maskText mask]
  | .pop mask => [maskText mask]
  | .jmp off => [intText off]
  | .beq off => [intText off]
  | .bne off => [intText off]
  | .blt off => [intText off]
  | .bge off => [intText off]
  | .bgt off => [intText off]
  | .ble off => [intText off]
  | .bcs off => [intText off]
  | .bcc off => [intText off]
  | .call off => [intText off]
  | .ret => []
  | .int n => [intText n]
  | .iret => []
  | .hlt => []

/-- The mnemonic in upper case, then the operands separated by a comma and a space (R89). -/
def disassemble (i : Instr) : Text :=
  match operandText i with
  | [] => i.op.descriptor.name.toList
  | t :: ts => i.op.descriptor.name.toList ++ [' '] ++ t ++ ts.flatMap (comma ++ ·)

/-- The canonical text of a word; none for an illegal word, which has no instruction (R81, R89). -/
def disassembleWord (w : Word) : Option Text :=
  match decode w with
  | .instr i => some (disassemble i)
  | .illegal _ => none

end Sys2Proof.Machine
end

