-- ==== Sys2Proof/Machine/Assembler.lean ====
section
/-! DEFINITION. The two-pass assembler: lines, labels, operand tokens, instructions and errors (31_assembler.md R100 to
R123). -/

namespace Sys2Proof.Machine

/-- The kinds of assembly error (R122): the source's six and the spec's SyntaxError. -/
inductive ErrorKind where
  | unknownMnemonic | unknownLabel | invalidRegister | invalidImmediate | duplicateLabel
  | offsetOutOfRange | syntaxError
deriving DecidableEq, Repr

/-- "The construct the parser expected", which every error carries (R122). The spec names no list of
constructs: these are the model's (log 12). -/
inductive Expected where
  /-- A mnemonic of the opcode table or an accepted second spelling. -/
  | mnemonic
  /-- Between `lo` and `hi` operands. -/
  | operandCount (lo hi : Nat)
  /-- A register R0 to R15, "the valid range 0-15" (R110). -/
  | register
  /-- An immediate in a range (R111, R113). -/
  | immediate (lo hi : Int)
  /-- A branch offset in a range (R118). -/
  | offset (lo hi : Int)
  /-- A known label: at most 16 of them, in definition order (R112); which ones, log 22. -/
  | knownLabel (known : List Text)
  /-- A well-formed label name (R104). -/
  | labelName
  /-- A label name not bound before (R106). -/
  | freshLabel
  /-- The end of the line. -/
  | endOfLine
deriving DecidableEq, Repr

/-- What is wrong with one token. -/
structure TokenError where
  kind : ErrorKind
  token : Text
  expected : Expected
deriving DecidableEq, Repr

/-- An assembly error: its kind, the line number from 1, the line's content, the offending token, and
the construct the parser expected (R122). -/
structure AssembleError where
  kind : ErrorKind
  line : Nat
  content : Text
  token : Text
  expected : Expected
deriving DecidableEq, Repr

/-- A token's error on line `n` with content `raw`. -/
def TokenError.onLine (e : TokenError) (n : Nat) (raw : Text) : AssembleError :=
  { kind := e.kind, line := n, content := raw, token := e.token, expected := e.expected }

/-- The label table: names and word offsets, in definition order (R107). -/
abbrev LabelTable := List (Text × Nat)

/-! ### Lines and tokens -/

/-- The lines of a text, split at each LF (R101). -/
def splitLines (text : Text) : List Text := text.splitOn '\n'

/-- Whitespace inside a line: space, tab, CR (R101, R102). -/
def isSpace (c : Char) : Bool := c == ' ' || c == '\t' || c == '\r'

/-- A token separator: whitespace or a comma (R103). -/
def isSeparator (c : Char) : Bool := isSpace c || c == ','

/-- A line without its comment (R102). -/
def stripComment (raw : Text) : Text := raw.takeWhile (· != ';')

/-- The tokens of a line: split at separators, empty tokens dropped (R103). -/
def tokens (body : Text) : List Text := (body.splitOnP isSeparator).filter (fun t => !t.isEmpty)

/-- What a line is. -/
inductive LineKind where
  /-- It contributes no word (R102). -/
  | blank
  /-- Its first token ends in a colon: the name without it, and the other tokens (R104). -/
  | label (name : Text) (rest : List Text)
  /-- An instruction line: one word (R105). -/
  | code (toks : List Text)
deriving DecidableEq, Repr

/-- Classify a line (R102 to R105). -/
def classify (raw : Text) : LineKind :=
  let body := stripComment raw
  if body.all isSpace then .blank
  else
    match tokens body with
    | [] => .code []
    | t :: ts => if t.getLast? = some ':' then .label t.dropLast ts else .code (t :: ts)

/-! ### Labels -/

/-- A letter or underscore, the first character of a label name (R104). -/
def isNameStart (c : Char) : Bool :=
  (decide ('A' ≤ c) && decide (c ≤ 'Z')) || (decide ('a' ≤ c) && decide (c ≤ 'z')) || c == '_'

/-- The value of a decimal digit. -/
def decValue (c : Char) : Option Nat := if '0' ≤ c ∧ c ≤ '9' then some (c.toNat - 48) else none

/-- A character of a label name after the first (R104). -/
def isNameChar (c : Char) : Bool := isNameStart c || (decValue c).isSome

/-- `[A-Za-z_][A-Za-z0-9_]*` (R104). -/
def isLabelName : Text → Bool
  | [] => false
  | c :: cs => isNameStart c && cs.all isNameChar

/-- The offset a name is bound to; names are case-sensitive (R104, R107). -/
def lookupLabel (tbl : LabelTable) (name : Text) : Option Nat := tbl.lookup name

/-- The error of a label line, if it has one: a malformed name, another token on the line, a name
already bound, in this order (R104, R106, log 16). -/
def labelError (tbl : LabelTable) (name : Text) (rest : List Text) : Option TokenError :=
  if !isLabelName name then some { kind := .syntaxError, token := name ++ [':'], expected := .labelName }
  else
    match rest with
    | t :: _ => some { kind := .syntaxError, token := t, expected := .endOfLine }
    | [] =>
      if (lookupLabel tbl name).isSome then
        some { kind := .duplicateLabel, token := name, expected := .freshLabel }
      else none

/-- Pass 1 from line `n` and word offset `off` on (R105): blank lines leave the offset, a label line
binds its name to it, every other line advances it by one. -/
def pass1 (n off : Nat) (tbl : LabelTable) : List Text → Except AssembleError LabelTable
  | [] => .ok tbl
  | raw :: rest =>
    match classify raw with
    | .blank => pass1 (n + 1) off tbl rest
    | .label name extra =>
      match labelError tbl name extra with
      | some e => .error (e.onLine n raw)
      | none => pass1 (n + 1) off (tbl ++ [(name, off)]) rest
    | .code _ => pass1 (n + 1) (off + 1) tbl rest

/-! ### Operand tokens -/

/-- The value of a hex digit, in either case (R111). -/
def hexValue (c : Char) : Option Nat :=
  if '0' ≤ c ∧ c ≤ '9' then some (c.toNat - 48)
  else if 'a' ≤ c ∧ c ≤ 'f' then some (c.toNat - 87)
  else if 'A' ≤ c ∧ c ≤ 'F' then some (c.toNat - 55)
  else none

/-- The number a list of digits denotes, continuing from `acc`; none if one is no digit. -/
def digitsFrom (base : Nat) (value : Char → Option Nat) (acc : Nat) : Text → Option Nat
  | [] => some acc
  | c :: cs =>
    match value c with
    | none => none
    | some d => digitsFrom base value (acc * base + d) cs

/-- One or more digits. -/
def digits (base : Nat) (value : Char → Option Nat) (t : Text) : Option Nat :=
  if t.isEmpty then none else digitsFrom base value 0 t

/-- Decimal digits, or 0x or 0X and hex digits (R111). -/
def magnitude : Text → Option Nat
  | '0' :: 'x' :: hex => digits 16 hexValue hex
  | '0' :: 'X' :: hex => digits 16 hexValue hex
  | dec => digits 10 decValue dec

/-- The exact integer of an immediate token after its number sign: an optional sign, then a magnitude
(R111). -/
def immediateValue : Text → Option Int
  | '+' :: t => (magnitude t).map (fun n => (n : Int))
  | '-' :: t => (magnitude t).map (fun n => -(n : Int))
  | t => (magnitude t).map (fun n => (n : Int))

/-- A register token: R or r and one or more decimal digits with a value in 0..15 (R110). -/
def registerValue : Text → Option Reg
  | c :: ds =>
    if c = 'R' ∨ c = 'r' then
      match digits 10 decValue ds with
      | some k => if h : k < 16 then some ⟨k, h⟩ else none
      | none => none
    else none
  | [] => none

/-- Parse a token where a register is expected (R110). -/
def parseRegister (t : Text) : Except TokenError Reg :=
  match registerValue t with
  | some r => .ok r
  | none => .error { kind := .invalidRegister, token := t, expected := .register }

/-- The word offset of a label operand; a name with no binding, a malformed one too (log 14), is an
UnknownLabel that lists at most 16 known labels in definition order (R112). DESIGN CHOICE (log 22):
where more than 16 are known, R112 does not say which are listed, and these are the 16 defined first. -/
def parseLabel (tbl : LabelTable) (t name : Text) : Except TokenError Nat :=
  match lookupLabel tbl name with
  | some off => .ok off
  | none =>
    .error { kind := .unknownLabel, token := t, expected := .knownLabel ((tbl.take 16).map Prod.fst) }

/-- The token is an immediate or a label-immediate (R111, R112). -/
def isImmediateToken : Text → Bool
  | '#' :: _ => true
  | '$' :: _ => true
  | _ => false

/-- Parse an immediate or label-immediate whose value must lie in [lo, hi]; any other token is an
InvalidImmediate (R111 to R113, log 15). -/
def parseImmediate (tbl : LabelTable) (lo hi : Int) (t : Text) : Except TokenError Int :=
  let bad : TokenError := { kind := .invalidImmediate, token := t, expected := .immediate lo hi }
  let inRange (v : Int) : Except TokenError Int := if lo ≤ v ∧ v ≤ hi then .ok v else .error bad
  match t with
  | '#' :: u =>
    match immediateValue u with
    | some v => inRange v
    | none => .error bad
  | '$' :: name =>
    match parseLabel tbl t name with
    | .ok off => inRange off
    | .error e => .error e
  | _ => .error bad

/-- Parse a signed 16-bit immediate (R113). -/
def parseImm16 (tbl : LabelTable) (t : Text) : Except TokenError Int := parseImmediate tbl (-32768) 32767 t

/-- Parse a format RI second operand; `immOnly` is LDI's restriction to an immediate (R114, R121). -/
def parseSrc (immOnly : Bool) (tbl : LabelTable) (t : Text) : Except TokenError Src :=
  if immOnly || isImmediateToken t then (parseImm16 tbl t).map .imm else (parseRegister t).map .reg

/-- Parse a format M operand of the instruction at word address `a`: a raw offset, or a label, whose
field is L - (a + 1) (R118, 90_conflicts.md C1). -/
def parseOffset (tbl : LabelTable) (a : Nat) (t : Text) : Except TokenError Int :=
  let inRange (v : Int) : Except TokenError Int :=
    if -8388608 ≤ v ∧ v ≤ 8388607 then .ok v
    else .error { kind := .offsetOutOfRange, token := t, expected := .offset (-8388608) 8388607 }
  let toLabel (name : Text) : Except TokenError Int :=
    match parseLabel tbl t name with
    | .ok l => inRange ((l : Int) - ((a : Int) + 1))
    | .error e => .error e
  match t with
  | '#' :: u =>
    match immediateValue u with
    | some v => inRange v
    | none =>
      .error { kind := .invalidImmediate, token := t, expected := .offset (-8388608) 8388607 }
  | '$' :: name => toLabel name
  | name => toLabel name

/-- Parse register tokens from left to right. -/
def parseRegisters : List Text → Except TokenError (List Reg)
  | [] => .ok []
  | t :: ts =>
    match parseRegister t with
    | .error e => .error e
    | .ok r => (parseRegisters ts).map (r :: ·)

/-- The mask of a list of registers: a repeated register sets its bit once (R117). -/
def maskOfRegisters (rs : List Reg) : Nat := rs.foldl (fun m r => m ||| 1 <<< r.val) 0

/-! ### Instructions -/

/-- The second spellings the assembler accepts, with the operation each stands for (R121). LDI is MOV
restricted to an immediate second operand. -/
def secondSpellings : List (String × Op × Bool) :=
  [("HALT", .hlt, false), ("SVC", .int, false), ("B", .jmp, false), ("LDI", .mov, true)]

/-- Look a mnemonic up case-insensitively, first among the second spellings, then in the opcode table
(R109); the flag is LDI's restriction. -/
def lookupMnemonic (t : Text) : Option (Op × Bool) :=
  match secondSpellings.find? (fun p => p.1.toList == t.map upperChar) with
  | some p => some p.2
  | none => (lookupByName t).map (fun op => (op, false))

/-- The SyntaxError of an operand count (R120); its token is the mnemonic (log 12). -/
def countError (op : Op) (mnemonic : Text) : TokenError :=
  { kind := .syntaxError, token := mnemonic,
    expected := .operandCount op.descriptor.minOperands op.descriptor.maxOperands }

/-- Format RI operands (R114). -/
def parseRI (immOnly : Bool) (tbl : LabelTable) (count : TokenError) :
    List Text → Except TokenError (Reg × Src)
  | [t, u] =>
    match parseRegister t with
    | .error e => .error e
    | .ok rd => (parseSrc immOnly tbl u).map (fun src => (rd, src))
  | _ => .error count

/-- LDR and STR operands (R115). -/
def parseLoadStore (tbl : LabelTable) (count : TokenError) :
    List Text → Except TokenError (Reg × Reg × Int)
  | [t, u, v] =>
    match parseRegister t with
    | .error e => .error e
    | .ok rd =>
      match parseRegister u with
      | .error e => .error e
      | .ok rb => (parseImm16 tbl v).map (fun imm => (rd, rb, imm))
  | _ => .error count

/-- PUSH and POP operands: one mask, or one to three registers (R117). Operands are checked from left to
right (R123), so a second operand after a mask, a SyntaxError, is reported only when the mask is right
(log 17). -/
def parseMask (tbl : LabelTable) (count : TokenError) : List Text → Except TokenError Nat
  | [] => .error count
  | t :: ts =>
    if isImmediateToken t then
      match parseImmediate tbl 0 65535 t with
      | .error e => .error e
      | .ok mask =>
        match ts with
        | [] => .ok mask.toNat
        | u :: _ => .error { kind := .syntaxError, token := u, expected := .endOfLine }
    else (parseRegisters (t :: ts)).map maskOfRegisters

/-- A format M operand (R118). -/
def parseM (tbl : LabelTable) (a : Nat) (count : TokenError) : List Text → Except TokenError Int
  | [t] => parseOffset tbl a t
  | _ => .error count

/-- INT's operand (R116). -/
def parseInterruptNumber (tbl : LabelTable) (count : TokenError) : List Text → Except TokenError Int
  | [t] => parseImm16 tbl t
  | _ => .error count

/-- The operands of an operation, after their count was checked, by its family (R114 to R119). -/
def parseOperands (op : Op) (immOnly : Bool) (tbl : LabelTable) (a : Nat) (count : TokenError)
    (ts : List Text) : Except TokenError Instr :=
  match op with
  | .add => (parseRI immOnly tbl count ts).map (fun p => .add p.1 p.2)
  | .sub => (parseRI immOnly tbl count ts).map (fun p => .sub p.1 p.2)
  | .mul => (parseRI immOnly tbl count ts).map (fun p => .mul p.1 p.2)
  | .div => (parseRI immOnly tbl count ts).map (fun p => .div p.1 p.2)
  | .mod => (parseRI immOnly tbl count ts).map (fun p => .mod p.1 p.2)
  | .and => (parseRI immOnly tbl count ts).map (fun p => .and p.1 p.2)
  | .or => (parseRI immOnly tbl count ts).map (fun p => .or p.1 p.2)
  | .xor => (parseRI immOnly tbl count ts).map (fun p => .xor p.1 p.2)
  | .shl => (parseRI immOnly tbl count ts).map (fun p => .shl p.1 p.2)
  | .shr => (parseRI immOnly tbl count ts).map (fun p => .shr p.1 p.2)
  | .cmp => (parseRI immOnly tbl count ts).map (fun p => .cmp p.1 p.2)
  | .mov => (parseRI immOnly tbl count ts).map (fun p => .mov p.1 p.2)
  | .ldr => (parseLoadStore tbl count ts).map (fun p => .ldr p.1 p.2.1 p.2.2)
  | .str => (parseLoadStore tbl count ts).map (fun p => .str p.1 p.2.1 p.2.2)
  | .push => (parseMask tbl count ts).map .push
  | .pop => (parseMask tbl count ts).map .pop
  | .jmp => (parseM tbl a count ts).map .jmp
  | .beq => (parseM tbl a count ts).map .beq
  | .bne => (parseM tbl a count ts).map .bne
  | .blt => (parseM tbl a count ts).map .blt
  | .bge => (parseM tbl a count ts).map .bge
  | .bgt => (parseM tbl a count ts).map .bgt
  | .ble => (parseM tbl a count ts).map .ble
  | .bcs => (parseM tbl a count ts).map .bcs
  | .bcc => (parseM tbl a count ts).map .bcc
  | .call => (parseM tbl a count ts).map .call
  | .ret => .ok .ret
  | .int => (parseInterruptNumber tbl count ts).map .int
  | .iret => .ok .iret
  | .hlt => .ok .hlt

/-- Parse an instruction line at word address `a`: the mnemonic, then the operand count, then the
operands from left to right (R108, R109, R120, R123). A line of commas only has no token, and is an
UnknownMnemonic of the empty token (log 13). -/
def parseInstr (tbl : LabelTable) (a : Nat) : List Text → Except TokenError Instr
  | [] => .error { kind := .unknownMnemonic, token := [], expected := .mnemonic }
  | m :: ts =>
    match lookupMnemonic m with
    | none => .error { kind := .unknownMnemonic, token := m, expected := .mnemonic }
    | some (op, immOnly) =>
      let count := countError op m
      if op.descriptor.minOperands ≤ ts.length ∧ ts.length ≤ op.descriptor.maxOperands then
        parseOperands op immOnly tbl a count ts
      else .error count

/-- Pass 2 from line `n` and word address `a` on: one instruction per instruction line (R108). -/
def pass2 (tbl : LabelTable) (n a : Nat) : List Text → Except AssembleError (List Instr)
  | [] => .ok []
  | raw :: rest =>
    match classify raw with
    | .blank => pass2 tbl (n + 1) a rest
    | .label _ _ => pass2 tbl (n + 1) a rest
    | .code toks =>
      match parseInstr tbl a toks with
      | .error e => .error (e.onLine n raw)
      | .ok i => (pass2 tbl (n + 1) (a + 1) rest).map (i :: ·)

/-- The instructions of a source text, or its first error: pass 1, then pass 2 (R100, R107, R123). -/
def assembleInstrs (text : Text) : Except AssembleError (List Instr) :=
  let lines := splitLines text
  match pass1 1 0 [] lines with
  | .error e => .error e
  | .ok tbl => pass2 tbl 1 0 lines

/-- `assemble(source_text)`: the word image, one word per instruction line in source order, or the
first error and no image (R17, R100). -/
def assemble (text : Text) : Except AssembleError (List Word) := (assembleInstrs text).map (List.map encode)

end Sys2Proof.Machine
end

