-- ==== Sys2Proof/Machine/HostView.lean ====
section
/-! DEFINITION. What the host reads between steps (00_scope.md R19, 10_state.md R34, 70_reset_and_hazards.md R277). -/

namespace Sys2Proof.Machine

/-- The read-only copy `snapshot()` returns, with the running flag and the fault record that the spec
adds to it (R34, D43). -/
structure Snapshot where
  regs : Vector Word 16
  pc : Word
  sp : Word
  flags : Flags
  mode : Mode
  cycle : BitVec 64
  running : Bool
  fault : Option FaultRecord
deriving DecidableEq, Repr

/-- `snapshot()` (R34). It changes no state. -/
def snapshot (s : State) : Snapshot :=
  { regs := s.regs, pc := s.pc, sp := s.sp, flags := s.flags, mode := s.mode, cycle := s.cycle,
    running := s.running, fault := s.fault }

/-- `read_memory(range)` (R34): a copy of the `count` RAM words from `first` on; none for a range that
leaves RAM (log 18). -/
def readMemory (first count : Nat) (s : State) : Option (List Word) :=
  if first + count ≤ s.cfg.ramWords then some ((List.range count).map (fun k => s.ramWord (first + k)))
  else none

/-- The run has ended (R277). -/
def ended (s : State) : Bool := !s.running

/-- The run ended normally, which only HLT causes (R277). -/
def endedNormally (s : State) : Bool := !s.running && s.fault.isNone

/-- The run ended by a fault (R277). -/
def endedByFault (s : State) : Bool := !s.running && s.fault.isSome

end Sys2Proof.Machine
end

