-- ==== Sys2Proof/Machine/Launch.lean ====
section
/-! DEFINITION. Image files and the launch of the machine (20_memory.md R55, R59; 70_reset_and_hazards.md R270). -/

namespace Sys2Proof.Machine

/-- Word i of an image file is bytes 4i to 4i + 3, byte 4i the least significant (R55). -/
def wordOfBytes (b0 b1 b2 b3 : Byte) : Word :=
  b0.setWidth 32 ||| b1.setWidth 32 <<< 8 ||| b2.setWidth 32 <<< 16 ||| b3.setWidth 32 <<< 24

/-- The words of an image file; none when its length is not a multiple of 4 (R59). -/
def imageWords : List Byte → Option (List Word)
  | [] => some []
  | b0 :: b1 :: b2 :: b3 :: rest => (imageWords rest).map (wordOfBytes b0 b1 b2 b3 :: ·)
  | _ => none

/-- The four bytes of a word in an image file, the least significant first (R55). -/
def bytesOfWord (w : Word) : List Byte :=
  [w.extractLsb' 0 8, w.extractLsb' 8 8, w.extractLsb' 16 8, w.extractLsb' 24 8]

/-- The image file of a list of words, as the assembler's wrapper writes it (31_assembler.md R100). -/
def imageBytes (ws : List Word) : List Byte := ws.flatMap bytesOfWord

/-- Why the host refuses a launch; the machine then never starts (R59). DESIGN CHOICE: the spec says only
that it is refused, and the reasons are the model's (log 20). -/
inductive LaunchRefusal where
  /-- An image's byte length is not a multiple of 4. -/
  | badLength
  /-- An image holds more words than its array. -/
  | tooLarge
  /-- The parameters break the constraints of 00_scope.md R6 (log 19). -/
  | badParameters
deriving DecidableEq, Repr

/-- Load an image file into an array of `size` words: its words from address 0 on, verbatim (R59). DESIGN
CHOICE: a file whose length is not a multiple of 4 is a `badLength`, however many words it holds (log 20). -/
def loadImage (size : Nat) (file : List Byte) : Except LaunchRefusal Mem :=
  match imageWords file with
  | none => .error .badLength
  | some ws => if ws.length ≤ size then .ok (Mem.ofWords 0 ws) else .error .tooLarge

/-- A launch: load the program image into RAM and, if one is given, the BIOS image into ROM, set
HAS_ROM accordingly, and reset (R59, R270). DESIGN CHOICE: where several reasons to refuse apply, the
parameters' comes first, then the program image's, then the BIOS image's (log 20). -/
def launch (cfg : Config) (program : List Byte) (bios : Option (List Byte)) :
    Except LaunchRefusal State :=
  if cfg.valid then
    match loadImage cfg.ramWords program with
    | .error e => .error e
    | .ok ram =>
      match bios with
      | none => .ok (State.resetWith cfg ram none)
      | some file =>
        match loadImage cfg.romWords file with
        | .error e => .error e
        | .ok rom => .ok (State.resetWith cfg ram (some rom))
  else .error .badParameters

end Sys2Proof.Machine
end

