-- ==== Sys2Proof/Safety.lean ====
section
/-! DEFINITION. What counts as a sound state and as an untouched one, in the terms the statements use (10_state.md R36,
00_scope.md R6, 60_exceptions.md R232). -/

namespace Sys2Proof.Machine

/-- The invariants every step preserves (R36), with the parameter constraints of R6, the canonical
form of the memories, and R31's "a fault sets running to false". Mode is one of three and flag bits 6
and 7 are 0 by the types of State. -/
structure State.Inv (s : State) : Prop where
  /-- The parameters satisfy R6. -/
  cfg : s.cfg.valid = true
  /-- 0 <= sp <= RAM_WORDS. -/
  sp : s.sp.toNat ≤ s.cfg.ramWords
  /-- irq_num = 0. -/
  irqNum : s.irqNum = 0
  /-- RAM is in canonical form. -/
  ramWf : Mem.wf s.ram
  /-- RAM lists addresses below RAM_WORDS only. -/
  ramWithin : Mem.within s.ram s.cfg.ramWords
  /-- ROM, where there is one, is in canonical form and lists addresses below ROM_WORDS only. -/
  rom : ∀ m, s.rom = some m → Mem.wf m ∧ Mem.within m s.cfg.romWords
  /-- A running machine has no fault record. -/
  fault : s.running = true → s.fault = none
  /-- Every notified row has FB_WIDTH words (R60). -/
  rows : ∀ row ∈ s.fbEvents, row.length = s.cfg.fbWidth

/-- What no instruction of a step writes, taken together: the parameters, the latch, the cycle
counter and ROM; and running with its fault record, which only HLT and faults write. -/
structure SameControl (s t : State) : Prop where
  cfg : t.cfg = s.cfg
  irqNum : t.irqNum = s.irqNum
  cycle : t.cycle = s.cycle
  rom : t.rom = s.rom
  running : t.running = s.running
  fault : t.fault = s.fault

/-- Every general register is unchanged. -/
def SameRegs (s t : State) : Prop := ∀ r, t.getReg r = s.getReg r

/-- Every general register but `rd` is unchanged. -/
def OtherRegsSame (rd : Reg) (s t : State) : Prop := ∀ r, r ≠ rd → t.getReg r = s.getReg r

/-- Every word of RAM is unchanged. -/
def SameRam (s t : State) : Prop := ∀ a, t.ramWord a = s.ramWord a

/-- Every word of RAM outside the addresses from `lo` up to but not `hi` is unchanged. -/
def SameRamOutside (lo hi : Nat) (s t : State) : Prop := ∀ a, a < lo ∨ hi ≤ a → t.ramWord a = s.ramWord a

/-- Only general registers and flags may differ: the frame of an instruction that touches neither
memory, the stack, the pc nor the mode. -/
structure SameButRegsFlags (s t : State) : Prop extends SameControl s t where
  pc : t.pc = s.pc
  sp : t.sp = s.sp
  mode : t.mode = s.mode
  ram : SameRam s t
  fbEvents : t.fbEvents = s.fbEvents

/-- Only the pc may differ: the frame of a branch. -/
structure SameButPc (s t : State) : Prop extends SameControl s t where
  regs : SameRegs s t
  sp : t.sp = s.sp
  flags : t.flags = s.flags
  mode : t.mode = s.mode
  ram : SameRam s t
  fbEvents : t.fbEvents = s.fbEvents

/-- Only pc, sp and RAM may differ: the frame of an instruction that moves the stack and keeps the
registers, the flags and the mode. -/
structure SameButStack (s t : State) : Prop extends SameControl s t where
  regs : SameRegs s t
  flags : t.flags = s.flags
  mode : t.mode = s.mode
  fbEvents : t.fbEvents = s.fbEvents

/-- The branch target rule of R190: pc is the pc after fetch plus the offset, modulo 2^32. -/
def TargetOf (s : State) (off : Int) (t : State) : Prop :=
  (t.pc.toNat : Int) = ((s.pc.toNat : Int) + off) % 2 ^ 32

/-- Every word of format RI with this opcode decodes to `make` of its rd and its second operand, whatever
its ignored bits hold (30_encoding.md R74, R77). -/
def DecodedRI (opcode : BitVec 6) (make : Reg → Src → Instr) : Prop :=
  ∀ w : Word, w.extractLsb' 26 6 = opcode →
    decode w = .instr (make (regOfBits (w.extractLsb' 20 4))
      (if w.getLsbD 0 then .imm (w.extractLsb' 1 16).toInt else .reg (regOfBits (w.extractLsb' 16 4))))

/-- Every word of format I with this opcode decodes to `make` of its rd, rb and 16-bit field
(30_encoding.md R73). -/
def DecodedI (opcode : BitVec 6) (make : Reg → Reg → BitVec 16 → Instr) : Prop :=
  ∀ w : Word, w.extractLsb' 26 6 = opcode →
    decode w = .instr (make (regOfBits (w.extractLsb' 20 4)) (regOfBits (w.extractLsb' 16 4)) (w.extractLsb' 0 16))

/-- Every word of format M with this opcode decodes to `make` of its signed 24-bit field (30_encoding.md
R75, R78). -/
def DecodedM (opcode : BitVec 6) (make : Int → Instr) : Prop :=
  ∀ w : Word, w.extractLsb' 26 6 = opcode → decode w = .instr (make (w.extractLsb' 0 24).toInt)

/-- Every word of format R with this opcode decodes to `i` (30_encoding.md R72, R82). -/
def DecodedR (opcode : BitVec 6) (i : Instr) : Prop :=
  ∀ w : Word, w.extractLsb' 26 6 = opcode → decode w = .instr i

/-- A conditional branch follows R192: it has this opcode in format M, it is taken exactly when its
condition holds, and nothing but the pc differs. -/
def BranchesOn (opcode : BitVec 6) (branch : Int → Instr) (cond : Flags → Prop) : Prop :=
  DecodedM opcode branch ∧
  ∀ (off : Int) (s : State), ∃ t, exec (branch off) s = .next t ∧ SameButPc s t ∧
    (cond s.flags → TargetOf s off t) ∧ (¬ cond s.flags → t.pc = s.pc)

/-- Trap entry from `s` with number `n` and return address `ret` leaves `t` (60_exceptions.md R241): the
status word of `s` and below it the return pc on the stack, IE clear, BIOS mode, pc the handler that
vector `n` holds; everything else unchanged. -/
structure TrapEntered (s : State) (n : Nat) (ret : Word) (t : State) : Prop extends SameControl s t where
  sp : t.sp.toNat = s.sp.toNat - 2
  status : t.ramWord (s.sp.toNat - 1) = s.statusWord
  ret : t.ramWord (s.sp.toNat - 2) = ret
  ram : SameRamOutside (s.sp.toNat - 2) s.sp.toNat s t
  flags : t.flags = { s.flags with ie := false }
  mode : t.mode = .bios
  pc : t.pc = t.ramWord (0x100 + 2 * n)
  regs : SameRegs s t
  fbEvents : t.fbEvents = s.fbEvents

/-- The state a fault of the instruction at pc - 1 leaves: `s` halted with the record, its pc set back
to the instruction, and nothing else changed (R232, R233, 30_encoding.md R92). -/
def faultedAt (s : State) (kind : FaultKind) (opcode : BitVec 6) (address : Option FaultAddress) : State :=
  { s with
    pc := s.pc - 1
    running := false
    fault := some { kind := kind, pc := s.pc - 1, opcode := some opcode, address := address } }

/-- How many registers below `r` a mask selects. -/
def selectedBelow (mask : Nat) (r : Reg) : Nat :=
  (regsLowToHigh.filter (fun q => decide (q < r))).countP (maskSelects mask)

/-- How many registers above `r` a mask selects. -/
def selectedAbove (mask : Nat) (r : Reg) : Nat :=
  (regsLowToHigh.filter (fun q => decide (r < q))).countP (maskSelects mask)

/-- The instruction writes general register `r` (10_state.md R21). -/
def writesReg (i : Instr) (r : Reg) : Prop :=
  match i with
  | .add rd _ | .sub rd _ | .mul rd _ | .div rd _ | .mod rd _ | .and rd _ | .or rd _ | .xor rd _
  | .shl rd _ | .shr rd _ | .mov rd _ | .ldr rd _ _ => r = rd
  | .pop mask => maskSelects mask r = true
  | _ => False

/-- The operation writes Z and N (10_state.md R25). -/
def writesZN (op : Op) : Prop :=
  op ∈ [Op.add, .sub, .cmp, .mul, .div, .mod, .and, .or, .xor, .shl, .shr, .iret]

/-- The operation writes C and V (10_state.md R25). -/
def writesCV (op : Op) : Prop := op ∈ [Op.add, .sub, .cmp, .iret]

/-- The operation writes IE: INT by its trap entry, IRET from the status word (10_state.md R26). -/
def writesIE (op : Op) : Prop := op ∈ [Op.int, .iret]

/-- The operation moves sp (10_state.md R23). -/
def movesSp (op : Op) : Prop := op ∈ [Op.push, .pop, .call, .ret, .int, .iret]

/-- The operation stores to RAM. -/
def storesRam (op : Op) : Prop := op ∈ [Op.str, .push, .call, .int]

/-- The fault kinds an instruction's own execution can raise (60_exceptions.md R231). -/
def mayRaise (op : Op) : List FaultKind :=
  match op with
  | .div | .mod => [.divisionByZero]
  | .ldr | .str => [.memoryOutOfBounds]
  | .push | .call => [.stackOverflow]
  | .pop | .ret => [.stackUnderflow]
  | .int => [.invalidInterruptNumber, .stackOverflow]
  | .iret => [.stackUnderflow, .invalidStatusWord]
  | _ => []

/-- A step of `s` executes the instruction `i` in the state `u`: the machine runs, no interrupt is
dispatched, and the fetch after the tick gives `i` (60_exceptions.md R240). -/
def Executes (s : State) (i : Instr) (u : State) : Prop :=
  s.running = true ∧ interruptDue (tick s) = false ∧ fetch (tick s) = .instr i u

/-- An instruction line of a source text (31_assembler.md R105). -/
def isCodeLine (raw : Text) : Bool :=
  match classify raw with
  | .code _ => true
  | _ => false

end Sys2Proof.Machine
end

