-- ==== Sys2Proof/Certificates/Slice0/Obligations.lean ====
section
/-! DEFINITION. The statements for the provers. In them `s` is the state in which an instruction executes: its pc is
already ia + 1 (30_encoding.md R92). -/

open Sys2Proof Sys2Proof.Machine

/-! ### Launch, reset and invariants -/

/-- R35: a launch that is not refused leaves every register, flag and memory word at the reset value. The
parameters held in the state and the empty list of events are the model's own fields (log 2, log 5). -/
def Obligations.LaunchLeavesResetValues : Prop :=
  ∀ (cfg : Config) (program : List Byte) (bios : Option (List Byte)) (s : State),
    launch cfg program bios = .ok s →
    ∃ ws, imageWords program = some ws ∧
      s.cfg = cfg ∧ (∀ r, s.getReg r = 0) ∧ s.pc = 0 ∧ s.sp.toNat = cfg.ramWords ∧
      s.flags = ⟨false, false, false, false, true, false⟩ ∧ s.flags.toByte = 0x10 ∧
      s.irqNum = 0 ∧ s.cycle = 0 ∧ s.running = true ∧ s.fault = none ∧ s.fbEvents = [] ∧
      s.mode = (if bios.isSome then .bios else .kernel) ∧
      (∀ a, s.ramWord a = ws.getD a 0) ∧
      (bios = none → s.rom = none) ∧
      (∀ file, bios = some file → ∃ vs rom, imageWords file = some vs ∧ s.rom = some rom ∧
        ∀ a, Mem.read rom a = vs.getD a 0)

/-- R59: with parameters that satisfy R6, the host starts the machine exactly when every image's length
is a multiple of 4 and no image holds more words than its array. R35, R36: every machine it starts
satisfies the invariant; the canonical form of the memories and the length of the notified rows are the
model's own (log 1, log 5). -/
def Obligations.LaunchRefusesOnlyBadImages : Prop :=
  ∀ (cfg : Config) (program : List Byte) (bios : Option (List Byte)), cfg.valid = true →
    ((∃ s, launch cfg program bios = .ok s) ↔
      (program.length % 4 = 0 ∧ program.length / 4 ≤ cfg.ramWords ∧
        ∀ file, bios = some file → file.length % 4 = 0 ∧ file.length / 4 ≤ cfg.romWords)) ∧
    (∀ s, launch cfg program bios = .ok s → s.Inv)

/-- R55, R100: the first four bytes of an image file are its first word, byte 0 the least significant,
and the rest of the file gives the rest of the words; the file written for a list of words is read back
as those words, so it is written in the same order. -/
def Obligations.ImageFileIsLittleEndian : Prop :=
  (∀ (b0 b1 b2 b3 : Byte) (rest : List Byte), ∃ w : Word,
    w.toNat = b0.toNat + 256 * b1.toNat + 65536 * b2.toNat + 16777216 * b3.toNat ∧
    imageWords (b0 :: b1 :: b2 :: b3 :: rest) = (imageWords rest).map (w :: ·)) ∧
  (∀ ws : List Word, imageWords (imageBytes ws) = some ws)

/-- The state after reset satisfies the invariant (R36 with R6 and the canonical memory form). The
reset parameters are the model's default (log 4). -/
def Obligations.ResetSatisfiesInvariant : Prop := State.reset.Inv

/-- R36: every step keeps the invariant, with the mode one of three, flag bits 6 and 7 zero, and the
cycle counter counting the steps of a running machine. The canonical form of the memories and the
length of the notified rows are the model's own (log 1, log 5). -/
def Obligations.StepKeepsInvariant : Prop :=
  ∀ s t : State, s.Inv → step s = .next t →
    t.Inv ∧ t.mode.toBits.toNat ≤ 2 ∧
    t.flags.toByte.getLsbD 6 = false ∧ t.flags.toByte.getLsbD 7 = false ∧
    t.cycle = if s.running then s.cycle + 1 else s.cycle

/-- In every state that satisfies the invariant a step answers a next state: the machine's faults are next
states, and the model's own stop is never reached (log 6). -/
def Obligations.StepAlwaysAnswers : Prop := ∀ s : State, s.Inv → ∃ t, step s = .next t

/-- R54: no step writes ROM, and no step changes the launch parameters. -/
def Obligations.StepNeverWritesRom : Prop :=
  ∀ s t : State, step s = .next t → t.rom = s.rom ∧ t.cfg = s.cfg

/-! ### The step -/

/-- R234: a step of a halted machine changes nothing. -/
def Obligations.HaltedStepChangesNothing : Prop := ∀ s : State, s.running = false → step s = .next s

/-- A step with no interrupt due runs the decoded instruction: the word at pc, decoded, executed with
pc advanced by one, over the state whose cycle was counted and timer applied. -/
def Obligations.StepRunsDecodedInstruction : Prop :=
  ∀ (s : State) (w : Word) (i : Instr),
    s.running = true → interruptDue (tick s) = false → fetchRead s.pc s = some w → decode w = .instr i →
    step s = exec i ((tick s).setPc (s.pc + 1))

/-- R237: the tick counts the cycle and, exactly at the multiples of 1000, sets IP and latches number
0; it changes nothing else. -/
def Obligations.TickFollowsRule : Prop :=
  ∀ s : State,
    (tick s).cycle = s.cycle + 1 ∧
    ((s.cycle + 1).toNat % 1000 = 0 → (tick s).flags = { s.flags with ip := true } ∧ (tick s).irqNum = 0) ∧
    ((s.cycle + 1).toNat % 1000 ≠ 0 → (tick s).flags = s.flags ∧ (tick s).irqNum = s.irqNum) ∧
    SameRegs s (tick s) ∧ SameRam s (tick s) ∧ (tick s).pc = s.pc ∧ (tick s).sp = s.sp ∧
    (tick s).mode = s.mode ∧ (tick s).running = s.running ∧ (tick s).fault = s.fault ∧
    (tick s).rom = s.rom ∧ (tick s).cfg = s.cfg ∧ (tick s).fbEvents = s.fbEvents

/-- R81: fetching a word whose opcode is 0x00 or 0x1F to 0x3F halts with IllegalOpcode, naming the
opcode and the faulting pc; those are exactly the illegal opcodes. -/
def Obligations.IllegalOpcodeHalts : Prop :=
  (∀ w : Word, (∃ opc, decode w = .illegal opc) ↔
    ((w.extractLsb' 26 6).toNat = 0 ∨ 0x1F ≤ (w.extractLsb' 26 6).toNat)) ∧
  (∀ (s : State) (w : Word),
    s.running = true → interruptDue (tick s) = false → fetchRead s.pc s = some w →
    ((w.extractLsb' 26 6).toNat = 0 ∨ 0x1F ≤ (w.extractLsb' 26 6).toNat) →
    step s = .next { tick s with
      running := false
      fault := some ⟨.illegalOpcode, s.pc, some (w.extractLsb' 26 6), some (.word w)⟩ })

/-- R52, R90: a fetch reads ROM in BIOS mode with a ROM and RAM otherwise; a pc outside that array
halts with MemoryOutOfBounds, no opcode, and the pc as address. -/
def Obligations.FetchOutsideSpaceHalts : Prop :=
  ∀ s : State, s.running = true → interruptDue (tick s) = false →
    (∀ rom, s.mode = .bios → s.rom = some rom →
      (s.pc.toNat < s.cfg.romWords → fetchRead s.pc s = some (Mem.read rom s.pc.toNat)) ∧
      (s.cfg.romWords ≤ s.pc.toNat →
        step s = .next { tick s with
          running := false, fault := some ⟨.memoryOutOfBounds, s.pc, none, some (.word s.pc)⟩ })) ∧
    (s.mode ≠ .bios ∨ s.rom = none →
      (s.pc.toNat < s.cfg.ramWords → fetchRead s.pc s = some (s.ramWord s.pc.toNat)) ∧
      (s.cfg.ramWords ≤ s.pc.toNat →
        step s = .next { tick s with
          running := false, fault := some ⟨.memoryOutOfBounds, s.pc, none, some (.word s.pc)⟩ }))

/-- R242: a step with an interrupt due fetches nothing and enters the trap of vector 0, in every mode,
with IP cleared before the status word is taken and the unadvanced pc as return address. -/
def Obligations.DispatchEntersTrap : Prop :=
  ∀ s : State, s.Inv → s.running = true → interruptDue (tick s) = true → 2 ≤ s.sp.toNat →
    ∃ t, step s = .next t ∧
      TrapEntered ((tick s).setFlags { (tick s).flags with ip := false }) 0 s.pc t

/-- R232(b), R233: a dispatch whose frame does not fit halts with StackOverflow, no opcode and the pc
unchanged; of the step only the cycle and the tick remain. -/
def Obligations.DispatchOverflowHalts : Prop :=
  ∀ s : State, s.Inv → s.running = true → interruptDue (tick s) = true → s.sp.toNat < 2 →
    step s = .next { tick s with
      running := false, fault := some ⟨.stackOverflow, s.pc, none, some (.word s.sp)⟩ }

/-- R277: a step that ends the run with no fault record executes HLT. -/
def Obligations.OnlyHltEndsNormally : Prop :=
  ∀ s t : State, s.running = true → step s = .next t → t.running = false → t.fault = none →
    ∃ u, Executes s .hlt u

/-- R255: the mode changes only by dispatch, INT and IRET, as the transition table says. -/
def Obligations.ModeChangesByTableOnly : Prop :=
  ∀ s t : State, s.Inv → step s = .next t → t.mode ≠ s.mode →
    (s.running = true ∧ interruptDue (tick s) = true ∧ 2 ≤ s.sp.toNat ∧ t.mode = .bios) ∨
    (∃ n u, Executes s (.int n) u ∧ s.mode = .bios ∧ t.mode = .kernel ∧ t.pc = 0 ∧ t.sp = s.sp) ∨
    (∃ n u, Executes s (.int n) u ∧ s.mode ≠ .bios ∧ 0 ≤ n ∧ n < 16 ∧ 2 ≤ s.sp.toNat ∧ t.mode = .bios) ∨
    (∃ u, Executes s .iret u ∧ s.sp.toNat + 2 ≤ s.cfg.ramWords ∧
      t.mode.toBits = (s.ramWord (s.sp.toNat + 1)).extractLsb' 8 2)

/-! ### Frames of all instructions -/

/-- R21: a general register changes only under an instruction that names it as destination. -/
def Obligations.RegistersWrittenOnlyByDestination : Prop :=
  ∀ (i : Instr) (s t : State) (r : Reg), exec i s = .next t → ¬ writesReg i r → t.getReg r = s.getReg r

/-- R25, R26: each flag changes only under an instruction the rules name for it; no instruction
writes IP. -/
def Obligations.FlagsWrittenOnlyAsNamed : Prop :=
  ∀ (i : Instr) (s t : State), exec i s = .next t →
    (¬ writesZN i.op → t.flags.z = s.flags.z ∧ t.flags.n = s.flags.n) ∧
    (¬ writesCV i.op → t.flags.c = s.flags.c ∧ t.flags.v = s.flags.v) ∧
    (¬ writesIE i.op → t.flags.ie = s.flags.ie) ∧
    t.flags.ip = s.flags.ip

/-- Sp moves only under a stack instruction, RAM changes only under a storing one, the mode only under
INT and IRET (R255); the latch, the cycle counter, ROM (R54) and the parameters (R33) change under none.
The list of events and the parameters held in the state are the model's own fields (log 2, log 5). Which
words a storing instruction writes is said by StrFollowsRule, PushFollowsRule, CallFollowsRule and
IntFollowsRule. -/
def Obligations.OtherStateWrittenOnlyAsNamed : Prop :=
  ∀ (i : Instr) (s t : State), exec i s = .next t →
    (¬ movesSp i.op → t.sp = s.sp) ∧
    (¬ storesRam i.op → SameRam s t) ∧
    (i.op ≠ .int → i.op ≠ .iret → t.mode = s.mode) ∧
    (i.op ≠ .str → t.fbEvents = s.fbEvents) ∧
    t.irqNum = s.irqNum ∧ t.cycle = s.cycle ∧ t.rom = s.rom ∧ t.cfg = s.cfg

/-- R232: an instruction that faults commits nothing but pc <- ia, running <- false and the record,
whose opcode is its own. -/
def Obligations.FaultCommitsNothingElse : Prop :=
  ∀ (i : Instr) (s t : State), exec i s = .next t → s.fault = none → t.fault ≠ none →
    ∃ kind address, t = faultedAt s kind i.op.opcode address

/-- R231: each instruction raises only the fault kinds the rule lists for it. -/
def Obligations.InstructionFaultKinds : Prop :=
  ∀ (i : Instr) (s t : State) (r : FaultRecord), s.cfg.valid = true →
    exec i s = .next t → s.fault = none → t.fault = some r → r.kind ∈ mayRaise i.op

/-- R213: every instruction but INT executes the same way in every mode. -/
def Obligations.InstructionsIgnoreMode : Prop :=
  ∀ (i : Instr) (s t : State) (m : Mode), i.op ≠ .int → s.fault = none → exec i s = .next t →
    ∃ u, exec i (s.setMode m) = .next u ∧ u.setMode t.mode = t ∧
      (u.mode = if i.op = .iret ∧ t.fault = none then t.mode else m)

/-! ### Arithmetic, logic, compare and move -/

/-- R77: the second operand is the register's value or the sign-extended immediate. -/
def Obligations.SecondOperandValue : Prop :=
  ∀ s : State, (∀ r, s.srcValue (.reg r) = s.getReg r) ∧
    (∀ v, (Src.imm v).wellFormed = true → (s.srcValue (.imm v)).toInt = v)

/-- R142. -/
def Obligations.AddFollowsRule : Prop :=
  DecodedRI 0x01 .add ∧
  ∀ (rd : Reg) (src : Src) (s : State), ∃ t, exec (.add rd src) s = .next t ∧
    (t.getReg rd).toNat = ((s.getReg rd).toNat + (s.srcValue src).toNat) % 2 ^ 32 ∧
    t.flags = { s.flags with
      z := decide (t.getReg rd = 0)
      n := (t.getReg rd).getLsbD 31
      c := decide (2 ^ 32 ≤ (s.getReg rd).toNat + (s.srcValue src).toNat)
      v := (s.getReg rd).getLsbD 31 == (s.srcValue src).getLsbD 31 &&
        (t.getReg rd).getLsbD 31 != (s.getReg rd).getLsbD 31 } ∧
    OtherRegsSame rd s t ∧ SameButRegsFlags s t

/-- R143. -/
def Obligations.SubFollowsRule : Prop :=
  DecodedRI 0x02 .sub ∧
  ∀ (rd : Reg) (src : Src) (s : State), ∃ t, exec (.sub rd src) s = .next t ∧
    ((t.getReg rd).toNat : Int) = ((s.getReg rd).toNat - (s.srcValue src).toNat : Int) % 2 ^ 32 ∧
    t.flags = { s.flags with
      z := decide (t.getReg rd = 0)
      n := (t.getReg rd).getLsbD 31
      c := decide ((s.getReg rd).toNat < (s.srcValue src).toNat)
      v := (s.getReg rd).getLsbD 31 != (s.srcValue src).getLsbD 31 &&
        (t.getReg rd).getLsbD 31 != (s.getReg rd).getLsbD 31 } ∧
    OtherRegsSame rd s t ∧ SameButRegsFlags s t

/-- The V that ADD and SUB write is set exactly when the exact signed sum or difference leaves the
signed 32-bit range. -/
def Obligations.OverflowFlagIsSignedOverflow : Prop :=
  ∀ (rd : Reg) (src : Src) (s t : State),
    (exec (.add rd src) s = .next t →
      (t.flags.v = true ↔ ¬ (-2 ^ 31 ≤ (s.getReg rd).toInt + (s.srcValue src).toInt ∧
        (s.getReg rd).toInt + (s.srcValue src).toInt < 2 ^ 31))) ∧
    (exec (.sub rd src) s = .next t →
      (t.flags.v = true ↔ ¬ (-2 ^ 31 ≤ (s.getReg rd).toInt - (s.srcValue src).toInt ∧
        (s.getReg rd).toInt - (s.srcValue src).toInt < 2 ^ 31)))

/-- R144. -/
def Obligations.MulFollowsRule : Prop :=
  DecodedRI 0x03 .mul ∧
  ∀ (rd : Reg) (src : Src) (s : State), ∃ t, exec (.mul rd src) s = .next t ∧
    (t.getReg rd).toNat = ((s.getReg rd).toNat * (s.srcValue src).toNat) % 2 ^ 32 ∧
    t.flags = { s.flags with z := decide (t.getReg rd = 0), n := (t.getReg rd).getLsbD 31 } ∧
    OtherRegsSame rd s t ∧ SameButRegsFlags s t

/-- R145: the quotient truncated toward zero, 0x80000000 for -2^31 / -1, and DivisionByZero for a zero
divisor. -/
def Obligations.DivFollowsRule : Prop :=
  DecodedRI 0x04 .div ∧
  ∀ (rd : Reg) (src : Src) (s : State),
    (s.srcValue src = 0 → exec (.div rd src) s = .next (faultedAt s .divisionByZero 0x04 none)) ∧
    (s.srcValue src ≠ 0 → ∃ t, exec (.div rd src) s = .next t ∧
      ((s.getReg rd).toInt = -2 ^ 31 ∧ (s.srcValue src).toInt = -1 → t.getReg rd = 0x80000000) ∧
      (¬ ((s.getReg rd).toInt = -2 ^ 31 ∧ (s.srcValue src).toInt = -1) →
        (t.getReg rd).toInt = (s.getReg rd).toInt.tdiv (s.srcValue src).toInt) ∧
      t.flags = { s.flags with z := decide (t.getReg rd = 0), n := (t.getReg rd).getLsbD 31 } ∧
      OtherRegsSame rd s t ∧ SameButRegsFlags s t)

/-- R146: the signed remainder, with the identity that defines it and the sign of the dividend, and
DivisionByZero for a zero divisor. -/
def Obligations.ModFollowsRule : Prop :=
  DecodedRI 0x05 .mod ∧
  ∀ (rd : Reg) (src : Src) (s : State),
    (s.srcValue src = 0 → exec (.mod rd src) s = .next (faultedAt s .divisionByZero 0x05 none)) ∧
    (s.srcValue src ≠ 0 → ∃ t, exec (.mod rd src) s = .next t ∧
      (t.getReg rd).toInt = (s.getReg rd).toInt -
        (s.getReg rd).toInt.tdiv (s.srcValue src).toInt * (s.srcValue src).toInt ∧
      (t.getReg rd).toInt.natAbs < (s.srcValue src).toInt.natAbs ∧
      (0 < (t.getReg rd).toInt → 0 < (s.getReg rd).toInt) ∧
      ((t.getReg rd).toInt < 0 → (s.getReg rd).toInt < 0) ∧
      t.flags = { s.flags with z := decide (t.getReg rd = 0), n := (t.getReg rd).getLsbD 31 } ∧
      OtherRegsSame rd s t ∧ SameButRegsFlags s t)

/-- R147, R148, R149: AND, OR and XOR work bit by bit. -/
def Obligations.LogicFollowsRules : Prop :=
  DecodedRI 0x06 .and ∧ DecodedRI 0x07 .or ∧ DecodedRI 0x08 .xor ∧
  ∀ (rd : Reg) (src : Src) (s : State),
    (∃ t, exec (.and rd src) s = .next t ∧
      (∀ k, k < 32 → (t.getReg rd).getLsbD k = ((s.getReg rd).getLsbD k && (s.srcValue src).getLsbD k)) ∧
      t.flags = { s.flags with z := decide (t.getReg rd = 0), n := (t.getReg rd).getLsbD 31 } ∧
      OtherRegsSame rd s t ∧ SameButRegsFlags s t) ∧
    (∃ t, exec (.or rd src) s = .next t ∧
      (∀ k, k < 32 → (t.getReg rd).getLsbD k = ((s.getReg rd).getLsbD k || (s.srcValue src).getLsbD k)) ∧
      t.flags = { s.flags with z := decide (t.getReg rd = 0), n := (t.getReg rd).getLsbD 31 } ∧
      OtherRegsSame rd s t ∧ SameButRegsFlags s t) ∧
    (∃ t, exec (.xor rd src) s = .next t ∧
      (∀ k, k < 32 → (t.getReg rd).getLsbD k = ((s.getReg rd).getLsbD k != (s.srcValue src).getLsbD k)) ∧
      t.flags = { s.flags with z := decide (t.getReg rd = 0), n := (t.getReg rd).getLsbD 31 } ∧
      OtherRegsSame rd s t ∧ SameButRegsFlags s t)

/-- R150, R151: the shift amount is the whole second operand read as unsigned; 32 or more gives 0. -/
def Obligations.ShiftsFollowRules : Prop :=
  DecodedRI 0x09 .shl ∧ DecodedRI 0x0A .shr ∧
  ∀ (rd : Reg) (src : Src) (s : State),
    (∃ t, exec (.shl rd src) s = .next t ∧
      (t.getReg rd).toNat = (if 32 ≤ (s.srcValue src).toNat then 0
        else (s.getReg rd).toNat * 2 ^ (s.srcValue src).toNat % 2 ^ 32) ∧
      t.flags = { s.flags with z := decide (t.getReg rd = 0), n := (t.getReg rd).getLsbD 31 } ∧
      OtherRegsSame rd s t ∧ SameButRegsFlags s t) ∧
    (∃ t, exec (.shr rd src) s = .next t ∧
      (t.getReg rd).toNat = (if 32 ≤ (s.srcValue src).toNat then 0
        else (s.getReg rd).toNat / 2 ^ (s.srcValue src).toNat) ∧
      t.flags = { s.flags with z := decide (t.getReg rd = 0), n := (t.getReg rd).getLsbD 31 } ∧
      OtherRegsSame rd s t ∧ SameButRegsFlags s t)

/-- R152: CMP writes the flags of the subtraction and no register; afterwards Z, N != V and C say
equal, signed less and unsigned less. -/
def Obligations.CmpFollowsRule : Prop :=
  DecodedRI 0x0B .cmp ∧
  ∀ (rd : Reg) (src : Src) (s : State), ∃ t, exec (.cmp rd src) s = .next t ∧
    t.flags = { s.flags with
      z := decide (s.getReg rd - s.srcValue src = 0)
      n := (s.getReg rd - s.srcValue src).getLsbD 31
      c := decide ((s.getReg rd).toNat < (s.srcValue src).toNat)
      v := (s.getReg rd).getLsbD 31 != (s.srcValue src).getLsbD 31 &&
        (s.getReg rd - s.srcValue src).getLsbD 31 != (s.getReg rd).getLsbD 31 } ∧
    (t.flags.z = true ↔ s.getReg rd = s.srcValue src) ∧
    (t.flags.n ≠ t.flags.v ↔ (s.getReg rd).toInt < (s.srcValue src).toInt) ∧
    (t.flags.c = true ↔ (s.getReg rd).toNat < (s.srcValue src).toNat) ∧
    SameRegs s t ∧ SameButRegsFlags s t

/-- R153. -/
def Obligations.MovFollowsRule : Prop :=
  DecodedRI 0x0C .mov ∧
  ∀ (rd : Reg) (src : Src) (s : State), ∃ t, exec (.mov rd src) s = .next t ∧
    t.getReg rd = s.srcValue src ∧ t.flags = s.flags ∧ OtherRegsSame rd s t ∧ SameButRegsFlags s t

/-! ### Loads and stores -/

/-- R171: LDR reads RAM at base plus displacement modulo 2^32, or halts with MemoryOutOfBounds. -/
def Obligations.LdrFollowsRule : Prop :=
  DecodedI 0x0D (fun rd rb imm => .ldr rd rb imm.toInt) ∧
  ∀ (rd rb : Reg) (imm : Int) (s : State),
    (s.effectiveAddress rb imm).toNat = (((s.getReg rb).toNat : Int) + imm) % 2 ^ 32 ∧
    ((s.effectiveAddress rb imm).toNat < s.cfg.ramWords → ∃ t, exec (.ldr rd rb imm) s = .next t ∧
      t.getReg rd = s.ramWord (s.effectiveAddress rb imm).toNat ∧ t.flags = s.flags ∧
      OtherRegsSame rd s t ∧ SameButRegsFlags s t) ∧
    (s.cfg.ramWords ≤ (s.effectiveAddress rb imm).toNat →
      exec (.ldr rd rb imm) s =
        .next (faultedAt s .memoryOutOfBounds 0x0D (some (.word (s.effectiveAddress rb imm)))))

/-- R172: STR writes x[rd] at base plus displacement and, exactly when that address lies in the
framebuffer window, notifies with the row read after the write; outside RAM it halts. -/
def Obligations.StrFollowsRule : Prop :=
  DecodedI 0x0E (fun rd rb imm => .str rd rb imm.toInt) ∧
  ∀ (rd rb : Reg) (imm : Int) (s : State), s.cfg.valid = true → Mem.wf s.ram →
    ((s.effectiveAddress rb imm).toNat < s.cfg.ramWords → ∃ t, exec (.str rd rb imm) s = .next t ∧
      (∀ a, t.ramWord a = if a = (s.effectiveAddress rb imm).toNat then s.getReg rd else s.ramWord a) ∧
      (s.cfg.fbBase ≤ (s.effectiveAddress rb imm).toNat ∧
          (s.effectiveAddress rb imm).toNat < s.cfg.fbBase + s.cfg.fbWidth * s.cfg.fbHeight →
        t.fbEvents = s.fbEvents ++ [(List.range s.cfg.fbWidth).map (fun k => t.ramWord
          (s.cfg.fbBase + ((s.effectiveAddress rb imm).toNat - s.cfg.fbBase) / s.cfg.fbWidth * s.cfg.fbWidth + k))]) ∧
      (¬ (s.cfg.fbBase ≤ (s.effectiveAddress rb imm).toNat ∧
          (s.effectiveAddress rb imm).toNat < s.cfg.fbBase + s.cfg.fbWidth * s.cfg.fbHeight) →
        t.fbEvents = s.fbEvents) ∧
      SameRegs s t ∧ SameControl s t ∧ t.pc = s.pc ∧ t.sp = s.sp ∧ t.flags = s.flags ∧ t.mode = s.mode) ∧
    (s.cfg.ramWords ≤ (s.effectiveAddress rb imm).toNat →
      exec (.str rd rb imm) s =
        .next (faultedAt s .memoryOutOfBounds 0x0E (some (.word (s.effectiveAddress rb imm)))))

/-- R274: the word an STR stores is what the next fetch of that RAM address reads. -/
def Obligations.StoreSeenByNextFetch : Prop :=
  ∀ (rd rb : Reg) (imm : Int) (s t : State), Mem.wf s.ram →
    (s.effectiveAddress rb imm).toNat < s.cfg.ramWords → s.mode ≠ .bios ∨ s.rom = none →
    exec (.str rd rb imm) s = .next t → fetchRead (s.effectiveAddress rb imm) t = some (s.getReg rd)

/-! ### The stack -/

/-- R183: PUSH stores the selected registers low to high below sp, or halts with StackOverflow and
changes nothing; it halts exactly when sp is below the number of registers selected. -/
def Obligations.PushFollowsRule : Prop :=
  DecodedI 0x0F (fun _ _ mask => .push mask.toNat) ∧
  ∀ (mask : Nat) (s : State), s.cfg.valid = true → s.sp.toNat ≤ s.cfg.ramWords → Mem.wf s.ram →
    (s.sp.toNat < maskCount mask →
      exec (.push mask) s = .next (faultedAt s .stackOverflow 0x0F (some (.word s.sp)))) ∧
    (maskCount mask ≤ s.sp.toNat → ∃ t, exec (.push mask) s = .next t ∧
      t.sp.toNat = s.sp.toNat - maskCount mask ∧
      (∀ r, maskSelects mask r = true →
        t.ramWord (s.sp.toNat - 1 - selectedBelow mask r) = s.getReg r) ∧
      SameRamOutside (s.sp.toNat - maskCount mask) s.sp.toNat s t ∧
      t.pc = s.pc ∧ SameButStack s t)

/-- R184: POP loads the selected registers high to low from sp up, or halts with StackUnderflow and
changes nothing; it halts exactly when fewer words than that lie between sp and RAM_WORDS. -/
def Obligations.PopFollowsRule : Prop :=
  DecodedI 0x10 (fun _ _ mask => .pop mask.toNat) ∧
  ∀ (mask : Nat) (s : State), s.cfg.valid = true → s.sp.toNat ≤ s.cfg.ramWords →
    (s.cfg.ramWords < s.sp.toNat + maskCount mask →
      exec (.pop mask) s = .next (faultedAt s .stackUnderflow 0x10 (some (.word s.sp)))) ∧
    (s.sp.toNat + maskCount mask ≤ s.cfg.ramWords → ∃ t, exec (.pop mask) s = .next t ∧
      t.sp.toNat = s.sp.toNat + maskCount mask ∧
      (∀ r, maskSelects mask r = true → t.getReg r = s.ramWord (s.sp.toNat + selectedAbove mask r)) ∧
      (∀ r, maskSelects mask r = false → t.getReg r = s.getReg r) ∧
      SameRam s t ∧ SameControl s t ∧ t.pc = s.pc ∧ t.flags = s.flags ∧ t.mode = s.mode ∧
      t.fbEvents = s.fbEvents)

/-- A PUSH followed by a POP of the same mask restores every selected register and sp, whatever the
registers held in between. -/
def Obligations.PushThenPopRestores : Prop :=
  ∀ (mask : Nat) (s t : State) (regs : Vector Word 16),
    s.cfg.valid = true → s.sp.toNat ≤ s.cfg.ramWords → Mem.wf s.ram → maskCount mask ≤ s.sp.toNat →
    exec (.push mask) s = .next t →
    ∃ u, exec (.pop mask) { t with regs := regs } = .next u ∧ u.sp = s.sp ∧
      (∀ r, maskSelects mask r = true → u.getReg r = s.getReg r)

/-! ### Branches, calls and returns -/

/-- R191. -/
def Obligations.JmpFollowsRule : Prop :=
  DecodedM 0x11 .jmp ∧
  ∀ (off : Int) (s : State), ∃ t, exec (.jmp off) s = .next t ∧ TargetOf s off t ∧ SameButPc s t

/-- R192 to R200: each conditional branch tests the flags its row names. -/
def Obligations.ConditionalBranchesFollowTable : Prop :=
  BranchesOn 0x12 .beq (fun f => f.z = true) ∧ BranchesOn 0x13 .bne (fun f => f.z = false) ∧
  BranchesOn 0x14 .blt (fun f => f.n ≠ f.v) ∧ BranchesOn 0x15 .bge (fun f => f.n = f.v) ∧
  BranchesOn 0x16 .bgt (fun f => f.z = false ∧ f.n = f.v) ∧ BranchesOn 0x17 .ble (fun f => f.z = true ∨ f.n ≠ f.v) ∧
  BranchesOn 0x18 .bcs (fun f => f.c = true) ∧ BranchesOn 0x19 .bcc (fun f => f.c = false)

/-- The meaning column of R192's table: after `CMP a, b` each conditional branch is taken exactly when
its relation holds between a and b. -/
def Obligations.BranchAfterCmpDecidesRelation : Prop :=
  ∀ (rd : Reg) (src : Src) (off : Int) (s t : State), exec (.cmp rd src) s = .next t →
    (s.getReg rd = s.srcValue src →
      exec (.beq off) t = .next (t.setPc (t.branchTarget off)) ∧ exec (.bne off) t = .next t) ∧
    (s.getReg rd ≠ s.srcValue src →
      exec (.bne off) t = .next (t.setPc (t.branchTarget off)) ∧ exec (.beq off) t = .next t) ∧
    ((s.getReg rd).toInt < (s.srcValue src).toInt →
      exec (.blt off) t = .next (t.setPc (t.branchTarget off)) ∧ exec (.bge off) t = .next t) ∧
    ((s.srcValue src).toInt ≤ (s.getReg rd).toInt →
      exec (.bge off) t = .next (t.setPc (t.branchTarget off)) ∧ exec (.blt off) t = .next t) ∧
    ((s.srcValue src).toInt < (s.getReg rd).toInt →
      exec (.bgt off) t = .next (t.setPc (t.branchTarget off)) ∧ exec (.ble off) t = .next t) ∧
    ((s.getReg rd).toInt ≤ (s.srcValue src).toInt →
      exec (.ble off) t = .next (t.setPc (t.branchTarget off)) ∧ exec (.bgt off) t = .next t) ∧
    ((s.getReg rd).toNat < (s.srcValue src).toNat →
      exec (.bcs off) t = .next (t.setPc (t.branchTarget off)) ∧ exec (.bcc off) t = .next t) ∧
    ((s.srcValue src).toNat ≤ (s.getReg rd).toNat →
      exec (.bcc off) t = .next (t.setPc (t.branchTarget off)) ∧ exec (.bcs off) t = .next t)

/-- R201. -/
def Obligations.CallFollowsRule : Prop :=
  DecodedM 0x1A .call ∧
  ∀ (off : Int) (s : State), s.sp.toNat ≤ s.cfg.ramWords → Mem.wf s.ram →
    (s.sp = 0 → exec (.call off) s = .next (faultedAt s .stackOverflow 0x1A (some (.word 0)))) ∧
    (s.sp ≠ 0 → ∃ t, exec (.call off) s = .next t ∧ TargetOf s off t ∧
      t.sp.toNat = s.sp.toNat - 1 ∧ t.ramWord (s.sp.toNat - 1) = s.pc ∧
      SameRamOutside (s.sp.toNat - 1) s.sp.toNat s t ∧ SameButStack s t)

/-- R202. -/
def Obligations.RetFollowsRule : Prop :=
  DecodedR 0x1B .ret ∧
  ∀ s : State, s.cfg.valid = true →
    (s.cfg.ramWords ≤ s.sp.toNat →
      exec .ret s = .next (faultedAt s .stackUnderflow 0x1B (some (.word s.sp)))) ∧
    (s.sp.toNat < s.cfg.ramWords → ∃ t, exec .ret s = .next t ∧ t.pc = s.ramWord s.sp.toNat ∧
      t.sp.toNat = s.sp.toNat + 1 ∧ SameRam s t ∧ SameButStack s t)

/-! ### INT, IRET, HLT -/

/-- R28: the status word is the flag byte with the mode in bits 9 and 8 and zeros above. -/
def Obligations.StatusWordLayout : Prop :=
  ∀ s : State, s.statusWord.toNat =
    256 * s.mode.toBits.toNat + 32 * s.flags.ip.toNat + 16 * s.flags.ie.toNat + 8 * s.flags.v.toNat +
      4 * s.flags.n.toNat + 2 * s.flags.c.toNat + s.flags.z.toNat

/-- R210: INT in KERNEL and USER mode checks the number, then that the frame fits, and enters the trap
with return address ia + 1; in BIOS mode it is the handoff. -/
def Obligations.IntFollowsRule : Prop :=
  DecodedI 0x1C (fun _ _ n => .int n.toInt) ∧
  ∀ (n : Int) (s : State), s.cfg.valid = true → s.sp.toNat ≤ s.cfg.ramWords → Mem.wf s.ram →
    (s.mode = .bios → exec (.int n) s = .next { s with mode := .kernel, pc := 0 }) ∧
    (s.mode ≠ .bios → ¬ (0 ≤ n ∧ n < 16) →
      exec (.int n) s = .next (faultedAt s .invalidInterruptNumber 0x1C (some (.number n)))) ∧
    (s.mode ≠ .bios → 0 ≤ n ∧ n < 16 → s.sp.toNat < 2 →
      exec (.int n) s = .next (faultedAt s .stackOverflow 0x1C (some (.word s.sp)))) ∧
    (s.mode ≠ .bios → 0 ≤ n ∧ n < 16 → 2 ≤ s.sp.toNat →
      ∃ t, exec (.int n) s = .next t ∧ TrapEntered s n.toNat s.pc t)

/-- R211: IRET pops the return pc and the status word and restores pc, mode, Z, C, N, V and IE; with
fewer than two words it is a StackUnderflow, with mode field 3 an InvalidStatusWord. -/
def Obligations.IretFollowsRule : Prop :=
  DecodedR 0x1D .iret ∧
  ∀ s : State, s.cfg.valid = true → s.sp.toNat ≤ s.cfg.ramWords →
    (s.cfg.ramWords < s.sp.toNat + 2 →
      exec .iret s = .next (faultedAt s .stackUnderflow 0x1D (some (.word s.sp)))) ∧
    (s.sp.toNat + 2 ≤ s.cfg.ramWords → (s.ramWord (s.sp.toNat + 1)).extractLsb' 8 2 = 3 →
      exec .iret s =
        .next (faultedAt s .invalidStatusWord 0x1D (some (.word (s.ramWord (s.sp.toNat + 1)))))) ∧
    (s.sp.toNat + 2 ≤ s.cfg.ramWords → (s.ramWord (s.sp.toNat + 1)).extractLsb' 8 2 ≠ 3 →
      ∃ t, exec .iret s = .next t ∧ t.pc = s.ramWord s.sp.toNat ∧ t.sp.toNat = s.sp.toNat + 2 ∧
        t.mode.toBits = (s.ramWord (s.sp.toNat + 1)).extractLsb' 8 2 ∧
        t.flags =
          { z := (s.ramWord (s.sp.toNat + 1)).getLsbD 0, c := (s.ramWord (s.sp.toNat + 1)).getLsbD 1
            n := (s.ramWord (s.sp.toNat + 1)).getLsbD 2, v := (s.ramWord (s.sp.toNat + 1)).getLsbD 3
            ie := (s.ramWord (s.sp.toNat + 1)).getLsbD 4, ip := s.flags.ip } ∧
        SameRegs s t ∧ SameRam s t ∧ SameControl s t ∧ t.fbEvents = s.fbEvents)

/-- A trap and its return: after an INT is taken, an IRET that finds the same two frame words, whatever
the handler did to the rest, resumes at ia + 1 in the interrupted mode with sp, Z, C, N, V and IE as
they were, and leaves the registers and IP alone. -/
def Obligations.TrapThenIretResumes : Prop :=
  ∀ (n : Int) (s t u : State), s.cfg.valid = true → s.sp.toNat ≤ s.cfg.ramWords → Mem.wf s.ram →
    s.mode ≠ .bios → 0 ≤ n ∧ n < 16 → 2 ≤ s.sp.toNat → exec (.int n) s = .next t →
    u.cfg = t.cfg → u.sp = t.sp → u.ramWord t.sp.toNat = t.ramWord t.sp.toNat →
    u.ramWord (t.sp.toNat + 1) = t.ramWord (t.sp.toNat + 1) →
    ∃ v, exec .iret u = .next v ∧ v.pc = s.pc ∧ v.mode = s.mode ∧ v.sp = s.sp ∧
      v.flags = { s.flags with ip := u.flags.ip } ∧ SameRegs u v

/-- R212: HLT halts with the pc at ia + 1 and nothing else changed, and every further step is a no-op. -/
def Obligations.HltFollowsRule : Prop :=
  DecodedR 0x1E .hlt ∧
  ∀ s : State, s.fault = none → ∃ t, exec .hlt s = .next t ∧ t.running = false ∧ t.fault = none ∧
    t.pc = s.pc ∧ t.sp = s.sp ∧ t.flags = s.flags ∧ t.mode = s.mode ∧ t.cfg = s.cfg ∧
    t.irqNum = s.irqNum ∧ t.cycle = s.cycle ∧ t.rom = s.rom ∧ t.fbEvents = s.fbEvents ∧
    SameRegs s t ∧ SameRam s t ∧ step t = .next t

/-! ### Encoding and the decoder -/

/-- R88(a): decoding the encoding of a well-formed instruction gives it back, for all thirty. -/
def Obligations.DecodeOfEncode : Prop := ∀ i : Instr, i.wellFormed = true → decode (encode i) = .instr i

/-- R88(b), (c): encoding what a legal word decodes to gives the word with its ignored bits cleared,
and the cleared word decodes to the same instruction. -/
def Obligations.EncodeOfDecodeClearsIgnoredBits : Prop :=
  ∀ (w : Word) (i : Instr), decode w = .instr i →
    encode i = w &&& ~~~(ignoredBits i.op w) ∧ decode (w &&& ~~~(ignoredBits i.op w)) = .instr i

/-- R82: two words of one opcode that differ only in bits the decoder ignores decode alike. -/
def Obligations.IgnoredBitsDoNotMatter : Prop :=
  ∀ (w w' : Word) (op : Op), w.extractLsb' 26 6 = op.opcode →
    w' &&& ~~~(ignoredBits op w) = w &&& ~~~(ignoredBits op w) → decode w' = decode w

/-- Every instruction the decoder answers is well-formed, whatever the word. -/
def Obligations.DecodedInstructionWellFormed : Prop :=
  ∀ (w : Word) (i : Instr), decode w = .instr i → i.wellFormed = true

/-- Words written out from the formats and the opcode map decode to the instructions they stand for. -/
def Obligations.SampleWordsDecode : Prop :=
  decode 0x04120000 = .instr (.add 1 (.reg 2)) ∧ decode 0x0411FFFF = .instr (.add 1 (.imm (-1))) ∧
  decode 0x3434FFFE = .instr (.ldr 3 4 (-2)) ∧ decode 0x3C000006 = .instr (.push 6) ∧
  decode 0x44FFFFFF = .instr (.jmp (-1)) ∧ decode 0x70000003 = .instr (.int 3) ∧
  decode 0x6CFFFFFF = .instr .ret ∧ decode 0x7C000000 = .illegal 0x1F

/-! ### The assembler -/

/-- R89: assembling the canonical text of a well-formed instruction gives the one word of its encoding. -/
def Obligations.AssembleOfDisassembly : Prop :=
  ∀ i : Instr, i.wellFormed = true → assemble (disassemble i) = .ok [encode i]

/-- Every word the assembler produces decodes to a well-formed instruction whose encoding is that word,
for every source text. -/
def Obligations.AssembledWordsDecode : Prop :=
  ∀ (text : Text) (ws : List Word), assemble text = .ok ws →
    ∀ w ∈ ws, ∃ i : Instr, i.wellFormed = true ∧ decode w = .instr i ∧ encode i = w

/-- R105: an image has one word per instruction line; pass 1 binds the name of every label line to the
number of instruction lines before it, and binds nothing else. -/
def Obligations.LabelsCountInstructionLines : Prop :=
  ∀ (text : Text),
    (∀ ws, assemble text = .ok ws → ws.length = (splitLines text).countP isCodeLine) ∧
    (∀ tbl k raw name rest, pass1 1 0 [] (splitLines text) = .ok tbl → (splitLines text)[k]? = some raw →
      classify raw = .label name rest →
      lookupLabel tbl name = some (((splitLines text).take k).countP isCodeLine)) ∧
    (∀ tbl name off, pass1 1 0 [] (splitLines text) = .ok tbl → lookupLabel tbl name = some off →
      ∃ k raw, (splitLines text)[k]? = some raw ∧ classify raw = .label name [] ∧
        off = ((splitLines text).take k).countP isCodeLine)

/-- R118: an instruction line of format M whose operand names a label, as `$name` or as a bare name, at
word address a, assembles to an instruction that lands exactly on the label when it is executed with pc
at a + 1: JMP always, a conditional branch when its condition holds, CALL when it can push. -/
def Obligations.LabelBranchLandsOnLabel : Prop :=
  ∀ (tbl : LabelTable) (a l : Nat) (name token mnemonic : Text) (i : Instr) (off : Int) (s : State),
    (token = '$' :: name ∨ token = name ∧ isLabelName name = true) →
    parseInstr tbl a [mnemonic, token] = .ok i → lookupLabel tbl name = some l →
    s.pc = BitVec.ofNat 32 (a + 1) →
    (i = .jmp off → exec i s = .next (s.setPc (BitVec.ofNat 32 l))) ∧
    (i = .beq off → s.flags.z = true → exec i s = .next (s.setPc (BitVec.ofNat 32 l))) ∧
    (i = .bne off → s.flags.z = false → exec i s = .next (s.setPc (BitVec.ofNat 32 l))) ∧
    (i = .blt off → s.flags.n ≠ s.flags.v → exec i s = .next (s.setPc (BitVec.ofNat 32 l))) ∧
    (i = .bge off → s.flags.n = s.flags.v → exec i s = .next (s.setPc (BitVec.ofNat 32 l))) ∧
    (i = .bgt off → s.flags.z = false ∧ s.flags.n = s.flags.v →
      exec i s = .next (s.setPc (BitVec.ofNat 32 l))) ∧
    (i = .ble off → s.flags.z = true ∨ s.flags.n ≠ s.flags.v →
      exec i s = .next (s.setPc (BitVec.ofNat 32 l))) ∧
    (i = .bcs off → s.flags.c = true → exec i s = .next (s.setPc (BitVec.ofNat 32 l))) ∧
    (i = .bcc off → s.flags.c = false → exec i s = .next (s.setPc (BitVec.ofNat 32 l))) ∧
    (i = .call off → s.sp ≠ 0 → s.sp.toNat ≤ s.cfg.ramWords →
      ∃ t, exec i s = .next t ∧ t.pc = BitVec.ofNat 32 l)

/-- R106: a source text in which two label lines bind the same name is not assembled. -/
def Obligations.DuplicateLabelsRefused : Prop :=
  ∀ (text : Text) (j k : Nat) (raw raw' name : Text), j < k →
    (splitLines text)[j]? = some raw → (splitLines text)[k]? = some raw' →
    classify raw = .label name [] → classify raw' = .label name [] →
    ∃ e, assemble text = .error e

/-- R121: HALT, SVC and B give what HLT, INT and JMP give on the same operands, and LDI what MOV gives;
LDI's second operand is never a register. -/
def Obligations.SecondSpellingsAssembleAlike : Prop :=
  ∀ (tbl : LabelTable) (a : Nat) (ops : List Text) (i : Instr),
    (parseInstr tbl a ("HALT".toList :: ops) = .ok i ↔ parseInstr tbl a ("HLT".toList :: ops) = .ok i) ∧
    (parseInstr tbl a ("SVC".toList :: ops) = .ok i ↔ parseInstr tbl a ("INT".toList :: ops) = .ok i) ∧
    (parseInstr tbl a ("B".toList :: ops) = .ok i ↔ parseInstr tbl a ("JMP".toList :: ops) = .ok i) ∧
    (parseInstr tbl a ("LDI".toList :: ops) = .ok i ↔
      parseInstr tbl a ("MOV".toList :: ops) = .ok i ∧ ∃ rd v, i = .mov rd (.imm v))
end

