-- ==== Sys2Proof/Laws/Decode.lean ====
section
/-! SUPPORT. The fields of the encoded words, and the opcode table as a bijection. -/

namespace Sys2Proof

/-- An opcode finds its operation in the table (R85: opcodes are unique). -/
@[simp] theorem lookupByOpcode_opcode (op : Op) : lookupByOpcode op.opcode = some op := by
  cases op <;> rfl

/-- What the table finds for an opcode has that opcode. -/
theorem opcode_of_lookupByOpcode {opc : BitVec 6} {op : Op} (h : lookupByOpcode opc = some op) :
    op.opcode = opc := by
  have := List.find?_some h
  simpa using this

/-- The opcodes with an operation are 0x01 to 0x1E (R80, R81). -/
theorem lookupByOpcode_isSome (opc : BitVec 6) :
    (lookupByOpcode opc).isSome = (decide (1 ≤ opc.toNat) && decide (opc.toNat ≤ 0x1E)) := by
  revert opc; decide

@[simp] theorem regOfBits_bitsOfReg (r : Reg) : regOfBits (bitsOfReg r) = r := by
  revert r; decide

@[simp] theorem bitsOfReg_regOfBits (b : BitVec 4) : bitsOfReg (regOfBits b) = b := by
  revert b; decide

/-! ### Bits of the encoded words -/

theorem opcodeBits_low (op : Op) {i : Nat} (h : i < 26) : (opcodeBits op).getLsbD i = false := by
  simp [opcodeBits, h]

theorem opcodeBits_high (op : Op) {i : Nat} (h : i < 6) : (opcodeBits op).getLsbD (26 + i) = op.opcode.getLsbD i := by
  simp [opcodeBits, show 26 + i < 32 by omega]

theorem regBits_out (r : Reg) {lo i : Nat} (h : i < lo ∨ lo + 4 ≤ i) : (regBits r lo).getLsbD i = false := by
  rcases h with h | h
  · simp [regBits, h]
  · have : (bitsOfReg r).getLsbD (i - lo) = false := BitVec.getLsbD_of_ge _ _ (by omega)
    simp [regBits, BitVec.getLsbD_setWidth, this]

theorem regBits_in (r : Reg) {lo i : Nat} (h : i < 4) (hlo : lo ≤ 28) :
    (regBits r lo).getLsbD (lo + i) = (bitsOfReg r).getLsbD i := by
  simp [regBits, show lo + i < 32 by omega]

theorem narrow_high {n : Nat} (x : BitVec n) {i : Nat} (h : n ≤ i) : (x.setWidth 32).getLsbD i = false := by
  simp [BitVec.getLsbD_setWidth, BitVec.getLsbD_of_ge x i h]

theorem narrow_low {n : Nat} (x : BitVec n) {i : Nat} (h : i < 32) : (x.setWidth 32).getLsbD i = x.getLsbD i := by
  simp [h]

theorem narrow_high_shift {n : Nat} (x : BitVec n) {i k : Nat} (h : n + k ≤ i) :
    (x.setWidth 32 <<< k).getLsbD i = false := by
  rw [BitVec.getLsbD_shiftLeft, narrow_high x (by omega)]; simp

theorem narrow_shift_below {n : Nat} (x : BitVec n) {i k : Nat} (h : i < k) :
    (x.setWidth 32 <<< k).getLsbD i = false := by
  simp [h]

theorem narrow_shift_in {n : Nat} (x : BitVec n) {i k : Nat} (h : k + i < 32) :
    (x.setWidth 32 <<< k).getLsbD (k + i) = x.getLsbD i := by
  simp [h]

theorem one_getLsbD_pos {i : Nat} (h : 0 < i) : (1#32).getLsbD i = false := by
  simp [BitVec.getLsbD_one]; omega

/-! ### Format RI -/

@[simp] theorem opcodeField_encodeRI (op : Op) (rd : Reg) (src : Src) :
    opcodeField (encodeRI op rd src) = op.opcode := by
  refine BitVec.eq_of_getLsbD_eq (fun i hi => ?_)
  cases src <;>
    simp (disch := omega) only [opcodeField, encodeRI, BitVec.getLsbD_extractLsb', BitVec.getLsbD_or,
      opcodeBits_high, regBits_out, narrow_high_shift, one_getLsbD_pos, hi, decide_true,
      Bool.true_and, Bool.or_false]

@[simp] theorem rdField_encodeRI (op : Op) (rd : Reg) (src : Src) : rdField (encodeRI op rd src) = rd := by
  have : (encodeRI op rd src).extractLsb' 20 4 = bitsOfReg rd := by
    refine BitVec.eq_of_getLsbD_eq (fun i hi => ?_)
    cases src <;>
      simp (disch := omega) only [encodeRI, BitVec.getLsbD_extractLsb', BitVec.getLsbD_or, opcodeBits_low,
        regBits_in, regBits_out, narrow_high_shift, one_getLsbD_pos, hi, decide_true, Bool.true_and,
        Bool.or_false, Bool.false_or]
  simp [rdField, this]

/-- The second operand read back from an encoded format RI word: the flag bit tells the forms apart. -/
theorem srcField_encodeRI (op : Op) (rd : Reg) (src : Src) :
    srcField (encodeRI op rd src) =
      match src with
      | .reg rs => .reg rs
      | .imm v => .imm (BitVec.ofInt 16 v).toInt := by
  cases src with
  | reg rs =>
    have h0 : (encodeRI op rd (.reg rs)).getLsbD 0 = false := by
      simp (disch := omega) only [encodeRI, BitVec.getLsbD_or, opcodeBits_low, regBits_out, Bool.or_false]
    have h1 : (encodeRI op rd (.reg rs)).extractLsb' 16 4 = bitsOfReg rs := by
      refine BitVec.eq_of_getLsbD_eq (fun i hi => ?_)
      simp (disch := omega) only [encodeRI, BitVec.getLsbD_extractLsb', BitVec.getLsbD_or, opcodeBits_low,
        regBits_in, regBits_out, hi, decide_true, Bool.true_and, Bool.or_false, Bool.false_or]
    unfold srcField rbField
    rw [h0, h1, regOfBits_bitsOfReg]; rfl
  | imm v =>
    have h0 : (encodeRI op rd (.imm v)).getLsbD 0 = true := by
      simp [encodeRI]
    have h1 : (encodeRI op rd (.imm v)).extractLsb' 1 16 = BitVec.ofInt 16 v := by
      refine BitVec.eq_of_getLsbD_eq (fun i hi => ?_)
      simp (disch := omega) only [encodeRI, BitVec.getLsbD_extractLsb', BitVec.getLsbD_or, opcodeBits_low,
        regBits_out, narrow_shift_in, one_getLsbD_pos, hi, decide_true, Bool.true_and, Bool.or_false,
        Bool.false_or]
    unfold srcField
    rw [h0, h1]; rfl

/-! ### Format I -/

@[simp] theorem opcodeField_encodeI (op : Op) (rd rb : Reg) (x : BitVec 16) :
    opcodeField (encodeI op rd rb x) = op.opcode := by
  refine BitVec.eq_of_getLsbD_eq (fun i hi => ?_)
  simp (disch := omega) only [opcodeField, encodeI, BitVec.getLsbD_extractLsb', BitVec.getLsbD_or,
    opcodeBits_high, regBits_out, narrow_high, hi, decide_true, Bool.true_and, Bool.or_false]

@[simp] theorem rdField_encodeI (op : Op) (rd rb : Reg) (x : BitVec 16) : rdField (encodeI op rd rb x) = rd := by
  have : (encodeI op rd rb x).extractLsb' 20 4 = bitsOfReg rd := by
    refine BitVec.eq_of_getLsbD_eq (fun i hi => ?_)
    simp (disch := omega) only [encodeI, BitVec.getLsbD_extractLsb', BitVec.getLsbD_or, opcodeBits_low,
      regBits_in, regBits_out, narrow_high, hi, decide_true, Bool.true_and, Bool.or_false, Bool.false_or]
  simp [rdField, this]

@[simp] theorem rbField_encodeI (op : Op) (rd rb : Reg) (x : BitVec 16) : rbField (encodeI op rd rb x) = rb := by
  have : (encodeI op rd rb x).extractLsb' 16 4 = bitsOfReg rb := by
    refine BitVec.eq_of_getLsbD_eq (fun i hi => ?_)
    simp (disch := omega) only [encodeI, BitVec.getLsbD_extractLsb', BitVec.getLsbD_or, opcodeBits_low,
      regBits_in, regBits_out, narrow_high, hi, decide_true, Bool.true_and, Bool.or_false, Bool.false_or]
  simp [rbField, this]

@[simp] theorem imm16_encodeI (op : Op) (rd rb : Reg) (x : BitVec 16) :
    (encodeI op rd rb x).extractLsb' 0 16 = x := by
  refine BitVec.eq_of_getLsbD_eq (fun i hi => ?_)
  simp (disch := omega) only [encodeI, BitVec.getLsbD_extractLsb', BitVec.getLsbD_or, opcodeBits_low,
    regBits_out, narrow_low, hi, decide_true, Bool.true_and, Bool.false_or, Nat.zero_add]

/-! ### Formats M and R -/

@[simp] theorem opcodeField_encodeM (op : Op) (off : Int) : opcodeField (encodeM op off) = op.opcode := by
  refine BitVec.eq_of_getLsbD_eq (fun i hi => ?_)
  simp (disch := omega) only [opcodeField, encodeM, BitVec.getLsbD_extractLsb', BitVec.getLsbD_or,
    opcodeBits_high, narrow_high, hi, decide_true, Bool.true_and, Bool.or_false]

@[simp] theorem off24_encodeM (op : Op) (off : Int) :
    (encodeM op off).extractLsb' 0 24 = BitVec.ofInt 24 off := by
  refine BitVec.eq_of_getLsbD_eq (fun i hi => ?_)
  simp (disch := omega) only [encodeM, BitVec.getLsbD_extractLsb', BitVec.getLsbD_or, opcodeBits_low,
    narrow_low, hi, decide_true, Bool.true_and, Bool.false_or, Nat.zero_add]

@[simp] theorem opcodeField_encodeR (op : Op) : opcodeField (encodeR op) = op.opcode := by
  refine BitVec.eq_of_getLsbD_eq (fun i hi => ?_)
  simp (disch := omega) only [opcodeField, encodeR, BitVec.getLsbD_extractLsb', opcodeBits_high, hi,
    decide_true, Bool.true_and]

end Sys2Proof
end

