-- ==== Sys2Proof/Laws/State.lean ====
section
/-! SUPPORT. The record lemmas of State: one per field per update, and the register file's read after write. -/

namespace Sys2Proof.Machine

/-! ### setReg -/

@[simp] theorem State.cfg_setReg (s : State) (r : Reg) (v : Word) : (s.setReg r v).cfg = s.cfg := rfl
@[simp] theorem State.regs_setReg (s : State) (r : Reg) (v : Word) : (s.setReg r v).regs = s.regs.set r v := rfl
@[simp] theorem State.pc_setReg (s : State) (r : Reg) (v : Word) : (s.setReg r v).pc = s.pc := rfl
@[simp] theorem State.sp_setReg (s : State) (r : Reg) (v : Word) : (s.setReg r v).sp = s.sp := rfl
@[simp] theorem State.flags_setReg (s : State) (r : Reg) (v : Word) : (s.setReg r v).flags = s.flags := rfl
@[simp] theorem State.irqNum_setReg (s : State) (r : Reg) (v : Word) : (s.setReg r v).irqNum = s.irqNum := rfl
@[simp] theorem State.mode_setReg (s : State) (r : Reg) (v : Word) : (s.setReg r v).mode = s.mode := rfl
@[simp] theorem State.cycle_setReg (s : State) (r : Reg) (v : Word) : (s.setReg r v).cycle = s.cycle := rfl
@[simp] theorem State.running_setReg (s : State) (r : Reg) (v : Word) : (s.setReg r v).running = s.running := rfl
@[simp] theorem State.fault_setReg (s : State) (r : Reg) (v : Word) : (s.setReg r v).fault = s.fault := rfl
@[simp] theorem State.ram_setReg (s : State) (r : Reg) (v : Word) : (s.setReg r v).ram = s.ram := rfl
@[simp] theorem State.rom_setReg (s : State) (r : Reg) (v : Word) : (s.setReg r v).rom = s.rom := rfl
@[simp] theorem State.fbEvents_setReg (s : State) (r : Reg) (v : Word) : (s.setReg r v).fbEvents = s.fbEvents := rfl
@[simp] theorem State.ramWord_setReg (s : State) (r : Reg) (v : Word) (x : Nat) : (s.setReg r v).ramWord x = s.ramWord x := rfl

/-! ### setPc -/

@[simp] theorem State.cfg_setPc (s : State) (p : Word) : (s.setPc p).cfg = s.cfg := rfl
@[simp] theorem State.regs_setPc (s : State) (p : Word) : (s.setPc p).regs = s.regs := rfl
@[simp] theorem State.pc_setPc (s : State) (p : Word) : (s.setPc p).pc = p := rfl
@[simp] theorem State.sp_setPc (s : State) (p : Word) : (s.setPc p).sp = s.sp := rfl
@[simp] theorem State.flags_setPc (s : State) (p : Word) : (s.setPc p).flags = s.flags := rfl
@[simp] theorem State.irqNum_setPc (s : State) (p : Word) : (s.setPc p).irqNum = s.irqNum := rfl
@[simp] theorem State.mode_setPc (s : State) (p : Word) : (s.setPc p).mode = s.mode := rfl
@[simp] theorem State.cycle_setPc (s : State) (p : Word) : (s.setPc p).cycle = s.cycle := rfl
@[simp] theorem State.running_setPc (s : State) (p : Word) : (s.setPc p).running = s.running := rfl
@[simp] theorem State.fault_setPc (s : State) (p : Word) : (s.setPc p).fault = s.fault := rfl
@[simp] theorem State.ram_setPc (s : State) (p : Word) : (s.setPc p).ram = s.ram := rfl
@[simp] theorem State.rom_setPc (s : State) (p : Word) : (s.setPc p).rom = s.rom := rfl
@[simp] theorem State.fbEvents_setPc (s : State) (p : Word) : (s.setPc p).fbEvents = s.fbEvents := rfl
@[simp] theorem State.getReg_setPc (s : State) (p : Word) (q : Reg) : (s.setPc p).getReg q = s.getReg q := rfl
@[simp] theorem State.ramWord_setPc (s : State) (p : Word) (x : Nat) : (s.setPc p).ramWord x = s.ramWord x := rfl

/-! ### setSp -/

@[simp] theorem State.cfg_setSp (s : State) (v : Word) : (s.setSp v).cfg = s.cfg := rfl
@[simp] theorem State.regs_setSp (s : State) (v : Word) : (s.setSp v).regs = s.regs := rfl
@[simp] theorem State.pc_setSp (s : State) (v : Word) : (s.setSp v).pc = s.pc := rfl
@[simp] theorem State.sp_setSp (s : State) (v : Word) : (s.setSp v).sp = v := rfl
@[simp] theorem State.flags_setSp (s : State) (v : Word) : (s.setSp v).flags = s.flags := rfl
@[simp] theorem State.irqNum_setSp (s : State) (v : Word) : (s.setSp v).irqNum = s.irqNum := rfl
@[simp] theorem State.mode_setSp (s : State) (v : Word) : (s.setSp v).mode = s.mode := rfl
@[simp] theorem State.cycle_setSp (s : State) (v : Word) : (s.setSp v).cycle = s.cycle := rfl
@[simp] theorem State.running_setSp (s : State) (v : Word) : (s.setSp v).running = s.running := rfl
@[simp] theorem State.fault_setSp (s : State) (v : Word) : (s.setSp v).fault = s.fault := rfl
@[simp] theorem State.ram_setSp (s : State) (v : Word) : (s.setSp v).ram = s.ram := rfl
@[simp] theorem State.rom_setSp (s : State) (v : Word) : (s.setSp v).rom = s.rom := rfl
@[simp] theorem State.fbEvents_setSp (s : State) (v : Word) : (s.setSp v).fbEvents = s.fbEvents := rfl
@[simp] theorem State.getReg_setSp (s : State) (v : Word) (q : Reg) : (s.setSp v).getReg q = s.getReg q := rfl
@[simp] theorem State.ramWord_setSp (s : State) (v : Word) (x : Nat) : (s.setSp v).ramWord x = s.ramWord x := rfl

/-! ### setFlags -/

@[simp] theorem State.cfg_setFlags (s : State) (f : Flags) : (s.setFlags f).cfg = s.cfg := rfl
@[simp] theorem State.regs_setFlags (s : State) (f : Flags) : (s.setFlags f).regs = s.regs := rfl
@[simp] theorem State.pc_setFlags (s : State) (f : Flags) : (s.setFlags f).pc = s.pc := rfl
@[simp] theorem State.sp_setFlags (s : State) (f : Flags) : (s.setFlags f).sp = s.sp := rfl
@[simp] theorem State.flags_setFlags (s : State) (f : Flags) : (s.setFlags f).flags = f := rfl
@[simp] theorem State.irqNum_setFlags (s : State) (f : Flags) : (s.setFlags f).irqNum = s.irqNum := rfl
@[simp] theorem State.mode_setFlags (s : State) (f : Flags) : (s.setFlags f).mode = s.mode := rfl
@[simp] theorem State.cycle_setFlags (s : State) (f : Flags) : (s.setFlags f).cycle = s.cycle := rfl
@[simp] theorem State.running_setFlags (s : State) (f : Flags) : (s.setFlags f).running = s.running := rfl
@[simp] theorem State.fault_setFlags (s : State) (f : Flags) : (s.setFlags f).fault = s.fault := rfl
@[simp] theorem State.ram_setFlags (s : State) (f : Flags) : (s.setFlags f).ram = s.ram := rfl
@[simp] theorem State.rom_setFlags (s : State) (f : Flags) : (s.setFlags f).rom = s.rom := rfl
@[simp] theorem State.fbEvents_setFlags (s : State) (f : Flags) : (s.setFlags f).fbEvents = s.fbEvents := rfl
@[simp] theorem State.getReg_setFlags (s : State) (f : Flags) (q : Reg) : (s.setFlags f).getReg q = s.getReg q := rfl
@[simp] theorem State.ramWord_setFlags (s : State) (f : Flags) (x : Nat) : (s.setFlags f).ramWord x = s.ramWord x := rfl

/-! ### setIrqNum -/

@[simp] theorem State.cfg_setIrqNum (s : State) (n : Word) : (s.setIrqNum n).cfg = s.cfg := rfl
@[simp] theorem State.regs_setIrqNum (s : State) (n : Word) : (s.setIrqNum n).regs = s.regs := rfl
@[simp] theorem State.pc_setIrqNum (s : State) (n : Word) : (s.setIrqNum n).pc = s.pc := rfl
@[simp] theorem State.sp_setIrqNum (s : State) (n : Word) : (s.setIrqNum n).sp = s.sp := rfl
@[simp] theorem State.flags_setIrqNum (s : State) (n : Word) : (s.setIrqNum n).flags = s.flags := rfl
@[simp] theorem State.irqNum_setIrqNum (s : State) (n : Word) : (s.setIrqNum n).irqNum = n := rfl
@[simp] theorem State.mode_setIrqNum (s : State) (n : Word) : (s.setIrqNum n).mode = s.mode := rfl
@[simp] theorem State.cycle_setIrqNum (s : State) (n : Word) : (s.setIrqNum n).cycle = s.cycle := rfl
@[simp] theorem State.running_setIrqNum (s : State) (n : Word) : (s.setIrqNum n).running = s.running := rfl
@[simp] theorem State.fault_setIrqNum (s : State) (n : Word) : (s.setIrqNum n).fault = s.fault := rfl
@[simp] theorem State.ram_setIrqNum (s : State) (n : Word) : (s.setIrqNum n).ram = s.ram := rfl
@[simp] theorem State.rom_setIrqNum (s : State) (n : Word) : (s.setIrqNum n).rom = s.rom := rfl
@[simp] theorem State.fbEvents_setIrqNum (s : State) (n : Word) : (s.setIrqNum n).fbEvents = s.fbEvents := rfl
@[simp] theorem State.getReg_setIrqNum (s : State) (n : Word) (q : Reg) : (s.setIrqNum n).getReg q = s.getReg q := rfl
@[simp] theorem State.ramWord_setIrqNum (s : State) (n : Word) (x : Nat) : (s.setIrqNum n).ramWord x = s.ramWord x := rfl

/-! ### setMode -/

@[simp] theorem State.cfg_setMode (s : State) (m : Mode) : (s.setMode m).cfg = s.cfg := rfl
@[simp] theorem State.regs_setMode (s : State) (m : Mode) : (s.setMode m).regs = s.regs := rfl
@[simp] theorem State.pc_setMode (s : State) (m : Mode) : (s.setMode m).pc = s.pc := rfl
@[simp] theorem State.sp_setMode (s : State) (m : Mode) : (s.setMode m).sp = s.sp := rfl
@[simp] theorem State.flags_setMode (s : State) (m : Mode) : (s.setMode m).flags = s.flags := rfl
@[simp] theorem State.irqNum_setMode (s : State) (m : Mode) : (s.setMode m).irqNum = s.irqNum := rfl
@[simp] theorem State.mode_setMode (s : State) (m : Mode) : (s.setMode m).mode = m := rfl
@[simp] theorem State.cycle_setMode (s : State) (m : Mode) : (s.setMode m).cycle = s.cycle := rfl
@[simp] theorem State.running_setMode (s : State) (m : Mode) : (s.setMode m).running = s.running := rfl
@[simp] theorem State.fault_setMode (s : State) (m : Mode) : (s.setMode m).fault = s.fault := rfl
@[simp] theorem State.ram_setMode (s : State) (m : Mode) : (s.setMode m).ram = s.ram := rfl
@[simp] theorem State.rom_setMode (s : State) (m : Mode) : (s.setMode m).rom = s.rom := rfl
@[simp] theorem State.fbEvents_setMode (s : State) (m : Mode) : (s.setMode m).fbEvents = s.fbEvents := rfl
@[simp] theorem State.getReg_setMode (s : State) (m : Mode) (q : Reg) : (s.setMode m).getReg q = s.getReg q := rfl
@[simp] theorem State.ramWord_setMode (s : State) (m : Mode) (x : Nat) : (s.setMode m).ramWord x = s.ramWord x := rfl

/-! ### setCycle -/

@[simp] theorem State.cfg_setCycle (s : State) (c : BitVec 64) : (s.setCycle c).cfg = s.cfg := rfl
@[simp] theorem State.regs_setCycle (s : State) (c : BitVec 64) : (s.setCycle c).regs = s.regs := rfl
@[simp] theorem State.pc_setCycle (s : State) (c : BitVec 64) : (s.setCycle c).pc = s.pc := rfl
@[simp] theorem State.sp_setCycle (s : State) (c : BitVec 64) : (s.setCycle c).sp = s.sp := rfl
@[simp] theorem State.flags_setCycle (s : State) (c : BitVec 64) : (s.setCycle c).flags = s.flags := rfl
@[simp] theorem State.irqNum_setCycle (s : State) (c : BitVec 64) : (s.setCycle c).irqNum = s.irqNum := rfl
@[simp] theorem State.mode_setCycle (s : State) (c : BitVec 64) : (s.setCycle c).mode = s.mode := rfl
@[simp] theorem State.cycle_setCycle (s : State) (c : BitVec 64) : (s.setCycle c).cycle = c := rfl
@[simp] theorem State.running_setCycle (s : State) (c : BitVec 64) : (s.setCycle c).running = s.running := rfl
@[simp] theorem State.fault_setCycle (s : State) (c : BitVec 64) : (s.setCycle c).fault = s.fault := rfl
@[simp] theorem State.ram_setCycle (s : State) (c : BitVec 64) : (s.setCycle c).ram = s.ram := rfl
@[simp] theorem State.rom_setCycle (s : State) (c : BitVec 64) : (s.setCycle c).rom = s.rom := rfl
@[simp] theorem State.fbEvents_setCycle (s : State) (c : BitVec 64) : (s.setCycle c).fbEvents = s.fbEvents := rfl
@[simp] theorem State.getReg_setCycle (s : State) (c : BitVec 64) (q : Reg) : (s.setCycle c).getReg q = s.getReg q := rfl
@[simp] theorem State.ramWord_setCycle (s : State) (c : BitVec 64) (x : Nat) : (s.setCycle c).ramWord x = s.ramWord x := rfl

/-! ### setRunning -/

@[simp] theorem State.cfg_setRunning (s : State) (b : Bool) : (s.setRunning b).cfg = s.cfg := rfl
@[simp] theorem State.regs_setRunning (s : State) (b : Bool) : (s.setRunning b).regs = s.regs := rfl
@[simp] theorem State.pc_setRunning (s : State) (b : Bool) : (s.setRunning b).pc = s.pc := rfl
@[simp] theorem State.sp_setRunning (s : State) (b : Bool) : (s.setRunning b).sp = s.sp := rfl
@[simp] theorem State.flags_setRunning (s : State) (b : Bool) : (s.setRunning b).flags = s.flags := rfl
@[simp] theorem State.irqNum_setRunning (s : State) (b : Bool) : (s.setRunning b).irqNum = s.irqNum := rfl
@[simp] theorem State.mode_setRunning (s : State) (b : Bool) : (s.setRunning b).mode = s.mode := rfl
@[simp] theorem State.cycle_setRunning (s : State) (b : Bool) : (s.setRunning b).cycle = s.cycle := rfl
@[simp] theorem State.running_setRunning (s : State) (b : Bool) : (s.setRunning b).running = b := rfl
@[simp] theorem State.fault_setRunning (s : State) (b : Bool) : (s.setRunning b).fault = s.fault := rfl
@[simp] theorem State.ram_setRunning (s : State) (b : Bool) : (s.setRunning b).ram = s.ram := rfl
@[simp] theorem State.rom_setRunning (s : State) (b : Bool) : (s.setRunning b).rom = s.rom := rfl
@[simp] theorem State.fbEvents_setRunning (s : State) (b : Bool) : (s.setRunning b).fbEvents = s.fbEvents := rfl
@[simp] theorem State.getReg_setRunning (s : State) (b : Bool) (q : Reg) : (s.setRunning b).getReg q = s.getReg q := rfl
@[simp] theorem State.ramWord_setRunning (s : State) (b : Bool) (x : Nat) : (s.setRunning b).ramWord x = s.ramWord x := rfl

/-! ### setFault -/

@[simp] theorem State.cfg_setFault (s : State) (r : FaultRecord) : (s.setFault r).cfg = s.cfg := rfl
@[simp] theorem State.regs_setFault (s : State) (r : FaultRecord) : (s.setFault r).regs = s.regs := rfl
@[simp] theorem State.pc_setFault (s : State) (r : FaultRecord) : (s.setFault r).pc = s.pc := rfl
@[simp] theorem State.sp_setFault (s : State) (r : FaultRecord) : (s.setFault r).sp = s.sp := rfl
@[simp] theorem State.flags_setFault (s : State) (r : FaultRecord) : (s.setFault r).flags = s.flags := rfl
@[simp] theorem State.irqNum_setFault (s : State) (r : FaultRecord) : (s.setFault r).irqNum = s.irqNum := rfl
@[simp] theorem State.mode_setFault (s : State) (r : FaultRecord) : (s.setFault r).mode = s.mode := rfl
@[simp] theorem State.cycle_setFault (s : State) (r : FaultRecord) : (s.setFault r).cycle = s.cycle := rfl
@[simp] theorem State.running_setFault (s : State) (r : FaultRecord) : (s.setFault r).running = s.running := rfl
@[simp] theorem State.fault_setFault (s : State) (r : FaultRecord) : (s.setFault r).fault = some r := rfl
@[simp] theorem State.ram_setFault (s : State) (r : FaultRecord) : (s.setFault r).ram = s.ram := rfl
@[simp] theorem State.rom_setFault (s : State) (r : FaultRecord) : (s.setFault r).rom = s.rom := rfl
@[simp] theorem State.fbEvents_setFault (s : State) (r : FaultRecord) : (s.setFault r).fbEvents = s.fbEvents := rfl
@[simp] theorem State.getReg_setFault (s : State) (r : FaultRecord) (q : Reg) : (s.setFault r).getReg q = s.getReg q := rfl
@[simp] theorem State.ramWord_setFault (s : State) (r : FaultRecord) (x : Nat) : (s.setFault r).ramWord x = s.ramWord x := rfl

/-! ### setRam -/

@[simp] theorem State.cfg_setRam (s : State) (m : Mem) : (s.setRam m).cfg = s.cfg := rfl
@[simp] theorem State.regs_setRam (s : State) (m : Mem) : (s.setRam m).regs = s.regs := rfl
@[simp] theorem State.pc_setRam (s : State) (m : Mem) : (s.setRam m).pc = s.pc := rfl
@[simp] theorem State.sp_setRam (s : State) (m : Mem) : (s.setRam m).sp = s.sp := rfl
@[simp] theorem State.flags_setRam (s : State) (m : Mem) : (s.setRam m).flags = s.flags := rfl
@[simp] theorem State.irqNum_setRam (s : State) (m : Mem) : (s.setRam m).irqNum = s.irqNum := rfl
@[simp] theorem State.mode_setRam (s : State) (m : Mem) : (s.setRam m).mode = s.mode := rfl
@[simp] theorem State.cycle_setRam (s : State) (m : Mem) : (s.setRam m).cycle = s.cycle := rfl
@[simp] theorem State.running_setRam (s : State) (m : Mem) : (s.setRam m).running = s.running := rfl
@[simp] theorem State.fault_setRam (s : State) (m : Mem) : (s.setRam m).fault = s.fault := rfl
@[simp] theorem State.ram_setRam (s : State) (m : Mem) : (s.setRam m).ram = m := rfl
@[simp] theorem State.rom_setRam (s : State) (m : Mem) : (s.setRam m).rom = s.rom := rfl
@[simp] theorem State.fbEvents_setRam (s : State) (m : Mem) : (s.setRam m).fbEvents = s.fbEvents := rfl
@[simp] theorem State.getReg_setRam (s : State) (m : Mem) (q : Reg) : (s.setRam m).getReg q = s.getReg q := rfl
@[simp] theorem State.ramWord_setRam (s : State) (m : Mem) (x : Nat) : (s.setRam m).ramWord x = Mem.read m x := rfl

/-! ### setRom -/

@[simp] theorem State.cfg_setRom (s : State) (m : Mem) : (s.setRom m).cfg = s.cfg := rfl
@[simp] theorem State.regs_setRom (s : State) (m : Mem) : (s.setRom m).regs = s.regs := rfl
@[simp] theorem State.pc_setRom (s : State) (m : Mem) : (s.setRom m).pc = s.pc := rfl
@[simp] theorem State.sp_setRom (s : State) (m : Mem) : (s.setRom m).sp = s.sp := rfl
@[simp] theorem State.flags_setRom (s : State) (m : Mem) : (s.setRom m).flags = s.flags := rfl
@[simp] theorem State.irqNum_setRom (s : State) (m : Mem) : (s.setRom m).irqNum = s.irqNum := rfl
@[simp] theorem State.mode_setRom (s : State) (m : Mem) : (s.setRom m).mode = s.mode := rfl
@[simp] theorem State.cycle_setRom (s : State) (m : Mem) : (s.setRom m).cycle = s.cycle := rfl
@[simp] theorem State.running_setRom (s : State) (m : Mem) : (s.setRom m).running = s.running := rfl
@[simp] theorem State.fault_setRom (s : State) (m : Mem) : (s.setRom m).fault = s.fault := rfl
@[simp] theorem State.ram_setRom (s : State) (m : Mem) : (s.setRom m).ram = s.ram := rfl
@[simp] theorem State.rom_setRom (s : State) (m : Mem) : (s.setRom m).rom = some m := rfl
@[simp] theorem State.fbEvents_setRom (s : State) (m : Mem) : (s.setRom m).fbEvents = s.fbEvents := rfl
@[simp] theorem State.getReg_setRom (s : State) (m : Mem) (q : Reg) : (s.setRom m).getReg q = s.getReg q := rfl
@[simp] theorem State.ramWord_setRom (s : State) (m : Mem) (x : Nat) : (s.setRom m).ramWord x = s.ramWord x := rfl

/-! ### emit -/

@[simp] theorem State.cfg_emit (s : State) (row : RowSlice) : (s.emit row).cfg = s.cfg := rfl
@[simp] theorem State.regs_emit (s : State) (row : RowSlice) : (s.emit row).regs = s.regs := rfl
@[simp] theorem State.pc_emit (s : State) (row : RowSlice) : (s.emit row).pc = s.pc := rfl
@[simp] theorem State.sp_emit (s : State) (row : RowSlice) : (s.emit row).sp = s.sp := rfl
@[simp] theorem State.flags_emit (s : State) (row : RowSlice) : (s.emit row).flags = s.flags := rfl
@[simp] theorem State.irqNum_emit (s : State) (row : RowSlice) : (s.emit row).irqNum = s.irqNum := rfl
@[simp] theorem State.mode_emit (s : State) (row : RowSlice) : (s.emit row).mode = s.mode := rfl
@[simp] theorem State.cycle_emit (s : State) (row : RowSlice) : (s.emit row).cycle = s.cycle := rfl
@[simp] theorem State.running_emit (s : State) (row : RowSlice) : (s.emit row).running = s.running := rfl
@[simp] theorem State.fault_emit (s : State) (row : RowSlice) : (s.emit row).fault = s.fault := rfl
@[simp] theorem State.ram_emit (s : State) (row : RowSlice) : (s.emit row).ram = s.ram := rfl
@[simp] theorem State.rom_emit (s : State) (row : RowSlice) : (s.emit row).rom = s.rom := rfl
@[simp] theorem State.fbEvents_emit (s : State) (row : RowSlice) : (s.emit row).fbEvents = s.fbEvents ++ [row] := rfl
@[simp] theorem State.getReg_emit (s : State) (row : RowSlice) (q : Reg) : (s.emit row).getReg q = s.getReg q := rfl
@[simp] theorem State.ramWord_emit (s : State) (row : RowSlice) (x : Nat) : (s.emit row).ramWord x = s.ramWord x := rfl

/-! ### The register file -/

/-- A register write is seen by reads of that register and by no other (10_state.md R20). -/
theorem State.getReg_setReg (s : State) (r q : Reg) (v : Word) :
    (s.setReg r v).getReg q = if q = r then v else s.getReg q := by
  by_cases h : q = r
  · subst h; simp [State.getReg, State.setReg]
  · have h' : r.val ≠ q.val := fun e => h (Fin.ext e.symm)
    simp [State.getReg, State.setReg, h, Vector.getElem_set_ne, h']

@[simp] theorem State.getReg_setReg_same (s : State) (r : Reg) (v : Word) :
    (s.setReg r v).getReg r = v := by
  simp [State.getReg_setReg]

@[simp] theorem State.getReg_setReg_ne (s : State) {r q : Reg} (v : Word) (h : q ≠ r) :
    (s.setReg r v).getReg q = s.getReg q := by
  simp [State.getReg_setReg, h]

end Sys2Proof.Machine
end

