-- ==== Sys2Proof/Laws/Memory.lean ====
section
/-! SUPPORT. Memory: read after write, the canonical form and its bounds, and the checked accesses. -/

namespace Sys2Proof.Machine

@[simp] theorem Mem.read_nil (a : Nat) : Mem.read [] a = 0 := rfl

/-- An address that no entry lists reads as an unlisted one. -/
theorem Mem.read_of_not_listed (m : Mem) (a : Nat) (h : ∀ c ∈ m, c.1 ≠ a) : Mem.read m a = Mem.unlisted := by
  induction m with
  | nil => rfl
  | cons c m ih =>
    obtain ⟨b, v⟩ := c
    have hb : a ≠ b := fun e => h (b, v) (by simp) e.symm
    simp only [Mem.read, if_neg hb]
    exact ih (fun c hc => h c (by simp [hc]))

/-- A read after a write gives the value written at that address, and what was there elsewhere. -/
theorem Mem.read_write (m : Mem) (hm : Mem.wf m) (a b : Nat) (v : Word) :
    Mem.read (Mem.write m a v) b = if b = a then v else Mem.read m b := by
  induction m with
  | nil =>
    by_cases hv : v = Mem.unlisted <;> by_cases h : b = a <;> simp [Mem.write, Mem.read, hv, h]
    all_goals rfl
  | cons c m ih =>
    obtain ⟨d, u⟩ := c
    have hm' : Mem.wf m := ⟨(List.pairwise_cons.1 hm.1).2, fun c hc => hm.2 c (by simp [hc])⟩
    have hd : ∀ c ∈ m, d < c.1 := (List.pairwise_cons.1 hm.1).1
    have absent : ∀ x, x ≤ d → Mem.read m x = Mem.unlisted := fun x hx =>
      Mem.read_of_not_listed m x (fun c hc => by have := hd c hc; omega)
    by_cases h1 : a < d
    · by_cases hv : v = Mem.unlisted <;> by_cases hb : b = a
      · subst hb
        simp [Mem.write, h1, hv, Mem.read, absent b (by omega), show b ≠ d by omega]
      · simp [Mem.write, h1, hv, hb]
      · simp [Mem.write, h1, hv, Mem.read, hb]
      · simp [Mem.write, h1, hv, Mem.read, hb]
    · by_cases h2 : a = d
      · subst h2
        by_cases hv : v = Mem.unlisted <;> by_cases hb : b = a
        · subst hb; simp [Mem.write, hv, absent b (le_refl b)]
        · simp [Mem.write, hv, hb, Mem.read]
        · simp [Mem.write, hv, hb, Mem.read]
        · simp [Mem.write, hv, hb, Mem.read]
      · by_cases hb : b = d
        · subst hb; simp [Mem.write, h1, h2, Mem.read, Ne.symm h2]
        · simp [Mem.write, h1, h2, Mem.read, hb, ih hm']

/-- Every entry after a write is an old one or the written one, which is not an unlisted value. -/
theorem Mem.mem_write {m : Mem} {a : Nat} {v : Word} {c : Cell} (h : c ∈ Mem.write m a v) :
    c ∈ m ∨ (c = (a, v) ∧ v ≠ Mem.unlisted) := by
  induction m with
  | nil =>
    simp only [Mem.write] at h
    split_ifs at h with hv
    · simp at h
    · simp at h; exact .inr ⟨h, hv⟩
  | cons d m ih =>
    obtain ⟨b, u⟩ := d
    simp only [Mem.write] at h
    split_ifs at h with h1 hv h2 hv
    · exact .inl h
    · rcases List.mem_cons.1 h with h | h
      · exact .inr ⟨h, hv⟩
      · exact .inl h
    · exact .inl (by simp [h])
    · rcases List.mem_cons.1 h with h | h
      · exact .inr ⟨h, hv⟩
      · exact .inl (by simp [h])
    · rcases List.mem_cons.1 h with h | h
      · exact .inl (by simp [h])
      · rcases ih h with h | h
        · exact .inl (by simp [h])
        · exact .inr h

/-- A write keeps the canonical form. -/
theorem Mem.wf_write (m : Mem) (hm : Mem.wf m) (a : Nat) (v : Word) : Mem.wf (Mem.write m a v) := by
  refine ⟨?_, fun c hc => ?_⟩
  · induction m with
    | nil => by_cases hv : v = Mem.unlisted <;> simp [Mem.write, hv]
    | cons d m ih =>
      obtain ⟨b, u⟩ := d
      have hp := List.pairwise_cons.1 hm.1
      have hm' : Mem.wf m := ⟨hp.2, fun c hc => hm.2 c (by simp [hc])⟩
      simp only [Mem.write]
      split_ifs with h1 hv h2 hv
      · exact hm.1
      · refine List.pairwise_cons.2 ⟨fun c hc => ?_, hm.1⟩
        rcases List.mem_cons.1 hc with hc | hc
        · subst hc; exact h1
        · exact lt_trans h1 (hp.1 c hc)
      · exact hp.2
      · subst h2; exact List.pairwise_cons.2 ⟨hp.1, hp.2⟩
      · refine List.pairwise_cons.2 ⟨fun c hc => ?_, ih hm'⟩
        rcases Mem.mem_write hc with hc | ⟨hc, -⟩
        · exact hp.1 c hc
        · subst hc; show b < a; omega
  · rcases Mem.mem_write hc with hc | ⟨hc, hv⟩
    · exact hm.2 c hc
    · subst hc; exact hv

/-- A write inside the array keeps the listed addresses inside it. -/
theorem Mem.within_write (m : Mem) (n a : Nat) (v : Word) (hm : Mem.within m n) (ha : a < n) :
    Mem.within (Mem.write m a v) n := fun c hc => by
  rcases Mem.mem_write hc with hc | ⟨hc, -⟩
  · exact hm c hc
  · subst hc; exact ha

/-- Equal memories are equal data: two canonical memories that read alike are the same list. -/
theorem Mem.ext_of_read (m m' : Mem) (hm : Mem.wf m) (hm' : Mem.wf m')
    (h : ∀ a, Mem.read m a = Mem.read m' a) : m = m' := by
  have head : ∀ (b : Nat) (v : Word) (m : Mem), Mem.wf ((b, v) :: m) →
      Mem.read ((b, v) :: m) b = v ∧ v ≠ Mem.unlisted ∧
      ∀ x, x < b → Mem.read ((b, v) :: m) x = Mem.unlisted := by
    intro b v m hw
    refine ⟨by simp [Mem.read], hw.2 (b, v) (by simp), fun x hx => ?_⟩
    refine Mem.read_of_not_listed _ x (fun c hc => ?_)
    rcases List.mem_cons.1 hc with hc | hc
    · subst hc; show b ≠ x; omega
    · have := (List.pairwise_cons.1 hw.1).1 c hc
      simp only at this; omega
  induction m generalizing m' with
  | nil =>
    cases m' with
    | nil => rfl
    | cons c m' =>
      obtain ⟨b, v⟩ := c
      have := head b v m' hm'
      exact absurd ((h b).symm.trans rfl |>.symm.trans this.1 |>.symm) this.2.1
  | cons c m ih =>
    obtain ⟨b, v⟩ := c
    have hb := head b v m hm
    cases m' with
    | nil => exact absurd (hb.1.symm.trans (h b)) hb.2.1
    | cons c' m' =>
      obtain ⟨b', v'⟩ := c'
      have hb' := head b' v' m' hm'
      have hbb : b = b' := by
        rcases lt_trichotomy b b' with hlt | heq | hgt
        · exact absurd (hb.1.symm.trans ((h b).trans (hb'.2.2 b hlt))) hb.2.1
        · exact heq
        · exact absurd (hb'.1.symm.trans ((h b').symm.trans (hb.2.2 b' hgt))) hb'.2.1
      subst hbb
      have hvv : v = v' := hb.1.symm.trans ((h b).trans hb'.1)
      subst hvv
      have tl : ∀ (x : Mem), Mem.wf ((b, v) :: x) → Mem.wf x := fun x hx =>
        ⟨(List.pairwise_cons.1 hx.1).2, fun c hc => hx.2 c (by simp [hc])⟩
      have low : ∀ (x : Mem), Mem.wf ((b, v) :: x) → Mem.read x b = Mem.unlisted := fun x hx =>
        Mem.read_of_not_listed x b (fun c hc => by
          have := (List.pairwise_cons.1 hx.1).1 c hc
          simp only at this; omega)
      rw [ih m' (tl m hm) (tl m' hm') (fun a => ?_)]
      by_cases ha : a = b
      · subst ha; rw [low m hm, low m' hm']
      · have := h a
        simpa [Mem.read, ha] using this

/-! ### Images -/

/-- The memory of an image lists addresses from its first word to its last only. -/
theorem Mem.mem_ofWords {a : Nat} {ws : List Word} {c : Cell} (h : c ∈ Mem.ofWords a ws) :
    a ≤ c.1 ∧ c.1 < a + ws.length ∧ c.2 ≠ Mem.unlisted := by
  induction ws generalizing a with
  | nil => simp [Mem.ofWords] at h
  | cons w ws ih =>
    simp only [Mem.ofWords] at h
    split_ifs at h with hw
    · have := ih h; simp only [List.length_cons]; refine ⟨?_, ?_, this.2.2⟩ <;> omega
    · rcases List.mem_cons.1 h with h | h
      · subst h; simp [hw]
      · have := ih h; simp only [List.length_cons]; refine ⟨?_, ?_, this.2.2⟩ <;> omega

/-- The memory of an image is canonical. -/
theorem Mem.wf_ofWords (a : Nat) (ws : List Word) : Mem.wf (Mem.ofWords a ws) := by
  refine ⟨?_, fun c hc => (Mem.mem_ofWords hc).2.2⟩
  induction ws generalizing a with
  | nil => simp [Mem.ofWords]
  | cons w ws ih =>
    simp only [Mem.ofWords]
    split_ifs with hw
    · exact ih (a + 1)
    · exact List.pairwise_cons.2 ⟨fun c hc => (Mem.mem_ofWords hc).1, ih (a + 1)⟩

/-- The memory of an image holds word i of the image at address a + i, and 0 elsewhere. -/
theorem Mem.read_ofWords (a : Nat) (ws : List Word) (x : Nat) :
    Mem.read (Mem.ofWords a ws) x = if a ≤ x then ws.getD (x - a) 0 else 0 := by
  induction ws generalizing a with
  | nil => simp [Mem.ofWords]
  | cons w ws ih =>
    have key : Mem.read (Mem.ofWords a (w :: ws)) x = if x = a then w else Mem.read (Mem.ofWords (a + 1) ws) x := by
      simp only [Mem.ofWords]
      split_ifs with hw hx hx
      · subst hx
        rw [hw]
        exact Mem.read_of_not_listed _ x (fun c hc => by have := (Mem.mem_ofWords hc).1; omega)
      · rfl
      · simp [Mem.read, hx]
      · simp [Mem.read, hx]
    rw [key, ih]
    rcases lt_trichotomy x a with h | h | h
    · simp [show ¬ a ≤ x by omega, show ¬ a + 1 ≤ x by omega, show x ≠ a by omega]
    · simp [h]
    · obtain ⟨k, rfl⟩ : ∃ k, x = a + 1 + k := ⟨x - (a + 1), by omega⟩
      simp [show a + 1 + k ≠ a by omega, show a + 1 + k - a = k + 1 by omega, show a ≤ a + 1 + k by omega]

/-! ### The checked accesses -/

/-- All `memRead` can do: read RAM below RAM_WORDS, or raise MemoryOutOfBounds with the address (R53). -/
theorem memRead_cases (a : Word) (s : State) :
    (a.toNat < s.cfg.ramWords ∧ memRead a s = .ok (s.ramWord a.toNat)) ∨
    (s.cfg.ramWords ≤ a.toNat ∧ memRead a s = .raise .memoryOutOfBounds (some (.word a))) := by
  by_cases h : a.toNat < s.cfg.ramWords
  · exact .inl ⟨h, by simp [memRead, h]⟩
  · exact .inr ⟨by omega, by simp [memRead, h]⟩

/-- All `memWrite` can do: write one RAM word below RAM_WORDS, or raise MemoryOutOfBounds (R53). -/
theorem memWrite_cases (a v : Word) (s : State) :
    (a.toNat < s.cfg.ramWords ∧ memWrite a v s = .ok (s.setRam (Mem.write s.ram a.toNat v))) ∨
    (s.cfg.ramWords ≤ a.toNat ∧ memWrite a v s = .raise .memoryOutOfBounds (some (.word a))) := by
  by_cases h : a.toNat < s.cfg.ramWords
  · exact .inl ⟨h, by simp [memWrite, h]⟩
  · exact .inr ⟨by omega, by simp [memWrite, h]⟩

/-- One RAM word of a state after a write to its RAM. -/
theorem State.ramWord_write (s : State) (h : Mem.wf s.ram) (a b : Nat) (v : Word) :
    (s.setRam (Mem.write s.ram a v)).ramWord b = if b = a then v else s.ramWord b :=
  Mem.read_write s.ram h a b v

end Sys2Proof.Machine
end

