-- ==== Sys2Proof/Laws/Ops.lean ====
section
/-! SUPPORT. One lemma for each shared operation, saying once everything it can do. -/

namespace Sys2Proof.Machine

/-! ### Results and the end of a step -/

@[simp] theorem Res.bind_ok {α β : Type} (a : α) (f : α → Res β) : (Res.ok a).bind f = f a := rfl

@[simp] theorem Res.bind_raise {α β : Type} (k : FaultKind) (x : Option FaultAddress) (f : α → Res β) :
    (Res.raise k x : Res α).bind f = .raise k x := rfl

@[simp] theorem Res.bind_absent {α β : Type} (a : Nat) (f : α → Res β) :
    (Res.absent a : Res α).bind f = .absent a := rfl

@[simp] theorem complete_ok (op : Op) (s t : State) : complete op s (.ok t) = .next t := rfl

/-- A fault of an instruction leaves `faultedAt`: the record and nothing else (R232). -/
@[simp] theorem complete_raise (op : Op) (s : State) (k : FaultKind) (x : Option FaultAddress) :
    complete op s (.raise k x) = .next (faultedAt s k op.opcode x) := rfl

@[simp] theorem complete_absent (op : Op) (s : State) (a : Nat) :
    complete op s (.absent a) = .fault (.absentRam a) := rfl

/-- All an instruction's end can answer as a next state: what its operation gives, or the halted state. -/
theorem complete_eq_next {op : Op} {s t : State} {r : Res State} (h : complete op s r = .next t) :
    r = .ok t ∨ ∃ k x, r = .raise k x ∧ t = faultedAt s k op.opcode x := by
  cases r with
  | ok u => simp at h; exact .inl (by rw [h])
  | raise k x => simp at h; exact .inr ⟨k, x, rfl, h.symm⟩
  | absent a => simp at h

/-! ### The stack primitives -/

/-- All `pushWord` can do (R181): StackOverflow at sp = 0, the store of one word below sp, or the model's
stop where sp lies beyond RAM. -/
theorem pushWord_cases (sp0 v : Word) (s : State) :
    (s.sp = 0 ∧ pushWord sp0 v s = .raise .stackOverflow (some (.word sp0))) ∨
    (s.sp ≠ 0 ∧ s.sp.toNat ≤ s.cfg.ramWords ∧ (s.sp - 1).toNat = s.sp.toNat - 1 ∧
      pushWord sp0 v s =
        .ok ((s.setSp (s.sp - 1)).setRam (Mem.write s.ram (s.sp.toNat - 1) v))) ∨
    (s.cfg.ramWords < s.sp.toNat ∧ pushWord sp0 v s = .absent (s.sp.toNat - 1)) := by
  by_cases h : s.sp = 0
  · exact .inl ⟨h, by simp [pushWord, h]⟩
  · have hn : s.sp.toNat ≠ 0 := fun e => h (BitVec.eq_of_toNat_eq e)
    have ht : (s.sp - 1).toNat = s.sp.toNat - 1 := by
      have := s.sp.isLt
      simp [BitVec.toNat_sub]; omega
    by_cases hb : s.sp.toNat - 1 < s.cfg.ramWords
    · refine .inr (.inl ⟨h, by omega, ht, ?_⟩)
      simp only [pushWord, if_neg h, ht, if_pos hb]
    · refine .inr (.inr ⟨by omega, ?_⟩)
      simp only [pushWord, if_neg h, ht, if_neg hb]

/-- All `popWord` can do (R182): StackUnderflow at or beyond RAM_WORDS, or the word at sp and sp + 1. -/
theorem popWord_cases (sp0 : Word) (s : State) :
    (s.cfg.ramWords ≤ s.sp.toNat ∧ popWord sp0 s = .raise .stackUnderflow (some (.word sp0))) ∨
    (s.sp.toNat < s.cfg.ramWords ∧ popWord sp0 s = .ok (s.ramWord s.sp.toNat, s.setSp (s.sp + 1))) := by
  by_cases h : s.cfg.ramWords ≤ s.sp.toNat
  · exact .inl ⟨h, by simp [popWord, h]⟩
  · exact .inr ⟨by omega, by simp [popWord, h]⟩

/-- The parameters bound RAM by 2^31 words, so a stack pointer inside RAM never wraps. -/
theorem valid_ramWords_le {c : Config} (h : c.valid = true) : c.ramWords ≤ 2 ^ 31 := by
  simp only [Config.valid, Bool.and_eq_true, decide_eq_true_eq] at h; exact h.1.1.1.2

/-- The parameters keep the vector table inside RAM. -/
theorem valid_vectors_le {c : Config} (h : c.valid = true) : 0x120 ≤ c.ramWords := by
  simp only [Config.valid, Bool.and_eq_true, decide_eq_true_eq] at h; exact h.1.1.1.1

/-- The parameters keep the framebuffer window inside RAM. -/
theorem valid_window {c : Config} (h : c.valid = true) :
    c.fbWidth * c.fbHeight = 0 ∨ c.fbBase + c.fbWidth * c.fbHeight ≤ c.ramWords := by
  simp only [Config.valid, Bool.and_eq_true, Bool.or_eq_true, decide_eq_true_eq] at h; exact h.2

theorem toNat_add_one {v : Word} {n : Nat} (h : v.toNat < n) (hn : n ≤ 2 ^ 31) :
    (v + 1).toNat = v.toNat + 1 := by
  simp [BitVec.toNat_add]; omega

/-- All `pushRegs` can do (R183): with fewer words below sp than registers selected it is a
StackOverflow; otherwise the k-th selected register of the list lies k + 1 words below sp, sp has moved
down by their number, and every other word is unchanged. -/
theorem pushRegs_cases (mask : Nat) (sp0 : Word) (L : List Reg) (s : State)
    (hsp : s.sp.toNat ≤ s.cfg.ramWords) (hwf : Mem.wf s.ram) :
    (s.sp.toNat < L.countP (maskSelects mask) ∧
      pushRegs mask sp0 L s = .raise .stackOverflow (some (.word sp0))) ∨
    (L.countP (maskSelects mask) ≤ s.sp.toNat ∧ ∃ v m,
      pushRegs mask sp0 L s = .ok ((s.setSp v).setRam m) ∧
      v.toNat = s.sp.toNat - L.countP (maskSelects mask) ∧ Mem.wf m ∧
      (Mem.within s.ram s.cfg.ramWords → Mem.within m s.cfg.ramWords) ∧
      (∀ a, a < s.sp.toNat - L.countP (maskSelects mask) ∨ s.sp.toNat ≤ a → Mem.read m a = s.ramWord a) ∧
      (∀ k r, (L.filter (maskSelects mask))[k]? = some r → Mem.read m (s.sp.toNat - 1 - k) = s.getReg r)) := by
  induction L generalizing s with
  | nil =>
    refine .inr ⟨by simp, s.sp, s.ram, rfl, by simp, hwf, id, fun a _ => rfl, fun k r h => by simp at h⟩
  | cons q L ih =>
    by_cases hq : maskSelects mask q = true
    · have hc : (q :: L).countP (maskSelects mask) = L.countP (maskSelects mask) + 1 := by simp [hq]
      rw [hc]
      rcases pushWord_cases sp0 (s.getReg q) s with ⟨h0, hp⟩ | ⟨h0, -, h1, hp⟩ | ⟨hbad, -⟩
      · exact .inl ⟨by rw [h0]; simp, by simp [pushRegs, hq, hp]⟩
      · have hpos : s.sp.toNat ≠ 0 := fun e => h0 (BitVec.eq_of_toNat_eq e)
        have step : pushRegs mask sp0 (q :: L) s = pushRegs mask sp0 L
            ((s.setSp (s.sp - 1)).setRam (Mem.write s.ram (s.sp.toNat - 1) (s.getReg q))) := by
          simp [pushRegs, hq, hp]
        have := ih ((s.setSp (s.sp - 1)).setRam (Mem.write s.ram (s.sp.toNat - 1) (s.getReg q)))
          (by simp only [State.sp_setRam, State.sp_setSp, State.cfg_setRam, State.cfg_setSp]; omega)
          (Mem.wf_write _ hwf _ _)
        simp only [State.sp_setRam, State.sp_setSp, State.cfg_setRam, State.cfg_setSp, h1,
          State.ram_setRam, State.getReg_setRam, State.getReg_setSp, State.ramWord_setRam] at this
        rw [step]
        rcases this with ⟨hlt, hr⟩ | ⟨hle, v, m, hr, hv, hm, hin, hout, hreg⟩
        · exact .inl ⟨by omega, hr⟩
        · refine .inr ⟨by omega, v, m, hr, by omega, hm,
            fun hw => hin (Mem.within_write _ _ _ _ hw (by omega)), fun a ha => ?_, fun k r hk => ?_⟩
          · rw [hout a (by omega), Mem.read_write _ hwf, if_neg (by omega)]; rfl
          · rw [List.filter_cons_of_pos hq] at hk
            cases k with
            | zero =>
              simp at hk; subst hk
              rw [Nat.sub_zero, hout _ (by omega), Mem.read_write _ hwf, if_pos rfl]
            | succ k =>
              simp at hk
              have := hreg k r hk
              rwa [show s.sp.toNat - 1 - (k + 1) = s.sp.toNat - 1 - 1 - k by omega]
      · omega
    · have hc : (q :: L).countP (maskSelects mask) = L.countP (maskSelects mask) := by simp [hq]
      have hf : (q :: L).filter (maskSelects mask) = L.filter (maskSelects mask) := by simp [hq]
      have step : pushRegs mask sp0 (q :: L) s = pushRegs mask sp0 L s := by simp [pushRegs, hq]
      rw [hc, hf, step]
      exact ih s hsp hwf

/-- All `popRegs` can do (R184): with fewer words above sp than registers selected it is a
StackUnderflow; otherwise the k-th selected register of the list holds the word k above sp, sp has
moved up by their number, and every other register is unchanged. The list has no repeats. -/
theorem popRegs_cases (mask : Nat) (sp0 : Word) (L : List Reg) (s : State) (hL : L.Nodup)
    (hn : s.cfg.ramWords ≤ 2 ^ 31) (hsp : s.sp.toNat ≤ s.cfg.ramWords) :
    (s.cfg.ramWords < s.sp.toNat + L.countP (maskSelects mask) ∧
      popRegs mask sp0 L s = .raise .stackUnderflow (some (.word sp0))) ∨
    (s.sp.toNat + L.countP (maskSelects mask) ≤ s.cfg.ramWords ∧ ∃ v R,
      popRegs mask sp0 L s = .ok (({ s with regs := R } : State).setSp v) ∧
      v.toNat = s.sp.toNat + L.countP (maskSelects mask) ∧
      (∀ k r, (L.filter (maskSelects mask))[k]? = some r → R[r] = s.ramWord (s.sp.toNat + k)) ∧
      (∀ r, r ∉ L ∨ maskSelects mask r = false → R[r] = s.getReg r)) := by
  induction L generalizing s with
  | nil =>
    refine .inr ⟨by simpa using hsp, s.sp, s.regs, rfl, by simp, fun k r h => by simp at h, fun r _ => rfl⟩
  | cons q L ih =>
    have hL' := List.nodup_cons.1 hL
    by_cases hq : maskSelects mask q = true
    · have hc : (q :: L).countP (maskSelects mask) = L.countP (maskSelects mask) + 1 := by simp [hq]
      rw [hc]
      rcases popWord_cases sp0 s with ⟨h0, hp⟩ | ⟨h0, hp⟩
      · exact .inl ⟨by omega, by simp [popRegs, hq, hp]⟩
      · have h1 := toNat_add_one h0 hn
        have step : popRegs mask sp0 (q :: L) s =
            popRegs mask sp0 L ((s.setSp (s.sp + 1)).setReg q (s.ramWord s.sp.toNat)) := by
          simp [popRegs, hq, hp]
        have := ih ((s.setSp (s.sp + 1)).setReg q (s.ramWord s.sp.toNat)) hL'.2
          (by simpa using hn) (by simp only [State.sp_setReg, State.sp_setSp, State.cfg_setReg, State.cfg_setSp]; omega)
        simp only [State.sp_setReg, State.sp_setSp, State.cfg_setReg, State.cfg_setSp, h1,
          State.ramWord_setReg, State.ramWord_setSp] at this
        rw [step]
        rcases this with ⟨hlt, hr⟩ | ⟨hle, v, R, hr, hv, hsel, hoth⟩
        · exact .inl ⟨by omega, hr⟩
        · refine .inr ⟨by omega, v, R, hr, by omega, fun k r hk => ?_, fun r hr' => ?_⟩
          · rw [List.filter_cons_of_pos hq] at hk
            cases k with
            | zero =>
              simp at hk; subst hk
              rw [hoth q (.inl hL'.1)]; simp
            | succ k =>
              simp at hk
              rw [hsel k r hk, show s.sp.toNat + 1 + k = s.sp.toNat + (k + 1) by omega]
          · have hrq : r ≠ q := by
              rintro rfl
              rcases hr' with h | h
              · simp at h
              · simp [hq] at h
            rw [hoth r (by rcases hr' with h | h; exact .inl (fun hm => h (by simp [hm])); exact .inr h)]
            simp [hrq]
    · have hc : (q :: L).countP (maskSelects mask) = L.countP (maskSelects mask) := by simp [hq]
      have hf : (q :: L).filter (maskSelects mask) = L.filter (maskSelects mask) := by simp [hq]
      have step : popRegs mask sp0 (q :: L) s = popRegs mask sp0 L s := by simp [popRegs, hq]
      rw [hc, hf, step]
      rcases ih s hL'.2 hn hsp with h | ⟨hle, v, R, hr, hv, hsel, hoth⟩
      · exact .inl h
      · refine .inr ⟨hle, v, R, hr, hv, hsel, fun r hr' => hoth r ?_⟩
        rcases hr' with h | h
        · exact .inl (fun hm => h (by simp [hm]))
        · exact .inr h

/-! ### Traps -/

/-- The RAM address of a vector's handler word. -/
theorem vectorAddress_toNat {n : Word} (h : n.toNat < 16) : (vectorAddress n).toNat = 0x100 + 2 * n.toNat := by
  simp [vectorAddress, Config.vecBase, BitVec.toNat_add, BitVec.toNat_mul]; omega

/-- All `trapEntry` can do for a number that names a vector, with sp in its range and parameters that
satisfy R6: a StackOverflow when the frame does not fit, or the entry of R241. -/
theorem trapEntry_cases (n ret : Word) (s : State) (hc : s.cfg.valid = true)
    (hsp : s.sp.toNat ≤ s.cfg.ramWords) (hwf : Mem.wf s.ram) (hn : n.toNat < 16) :
    (s.sp.toNat < 2 ∧ trapEntry n ret s.sp s = .raise .stackOverflow (some (.word s.sp))) ∨
    (2 ≤ s.sp.toNat ∧ ∃ v m p,
      trapEntry n ret s.sp s = .ok (((((s.setSp v).setRam m).setFlags { s.flags with ie := false }).setMode
        .bios).setPc p) ∧
      v.toNat = s.sp.toNat - 2 ∧ Mem.wf m ∧
      (Mem.within s.ram s.cfg.ramWords → Mem.within m s.cfg.ramWords) ∧
      Mem.read m (s.sp.toNat - 1) = s.statusWord ∧ Mem.read m (s.sp.toNat - 2) = ret ∧
      (∀ a, a < s.sp.toNat - 2 ∨ s.sp.toNat ≤ a → Mem.read m a = s.ramWord a) ∧
      p = Mem.read m (0x100 + 2 * n.toNat)) := by
  have hv := valid_vectors_le hc
  rcases pushWord_cases s.sp s.statusWord s with ⟨h0, hp⟩ | ⟨h0, -, h1, hp⟩ | ⟨hbad, -⟩
  · exact .inl ⟨by rw [h0]; simp, by simp [trapEntry, hp]⟩
  · have hpos : s.sp.toNat ≠ 0 := fun e => h0 (BitVec.eq_of_toNat_eq e)
    have hwf1 := Mem.wf_write _ hwf (s.sp.toNat - 1) s.statusWord
    rcases pushWord_cases s.sp ret
        ((s.setSp (s.sp - 1)).setRam (Mem.write s.ram (s.sp.toNat - 1) s.statusWord)) with
        ⟨h0', hp'⟩ | ⟨h0', -, h1', hp'⟩ | ⟨hbad, -⟩
    · refine .inl ⟨?_, by simp only [trapEntry, hp, Res.bind_ok, hp', Res.bind_raise]⟩
      simp only [State.sp_setRam, State.sp_setSp] at h0'
      rw [h0'] at h1; simp at h1; omega
    · simp only [State.sp_setRam, State.sp_setSp, State.ram_setRam, h1] at h0' h1' hp'
      have hpos' : s.sp.toNat - 1 ≠ 0 := fun e => h0' (BitVec.eq_of_toNat_eq (by rw [h1, e]; rfl))
      refine .inr ⟨by omega, s.sp - 1 - 1, _, _, ?_, by omega, Mem.wf_write _ hwf1 (s.sp.toNat - 1 - 1) ret,
        fun hw => Mem.within_write _ _ _ _ (Mem.within_write _ _ _ _ hw (by omega)) (by omega), ?_, ?_, ?_, rfl⟩
      · have hlt : 256 + 2 * n.toNat < s.cfg.ramWords := by omega
        simp only [trapEntry, hp, Res.bind_ok, hp', memRead, vectorAddress_toNat hn, State.cfg_setMode,
          State.cfg_setFlags, State.cfg_setRam, State.cfg_setSp, hlt, if_true]
        rfl
      · rw [Mem.read_write _ hwf1, if_neg (by omega), Mem.read_write _ hwf, if_pos rfl]
      · rw [Mem.read_write _ hwf1, if_pos (by omega)]
      · intro a ha
        rw [Mem.read_write _ hwf1, if_neg (by omega), Mem.read_write _ hwf, if_neg (by omega)]; rfl
    · simp only [State.sp_setRam, State.sp_setSp, State.cfg_setRam, State.cfg_setSp, h1] at hbad
      omega
  · omega

/-- All `trapReturn` can do, with sp in its range and RAM of at most 2^31 words (44_system.md R211). -/
theorem trapReturn_cases (s : State) (hn : s.cfg.ramWords ≤ 2 ^ 31) :
    (s.cfg.ramWords < s.sp.toNat + 2 ∧
      trapReturn s.sp s = .raise .stackUnderflow (some (.word s.sp))) ∨
    (s.sp.toNat + 2 ≤ s.cfg.ramWords ∧ statusMode (s.ramWord (s.sp.toNat + 1)) = none ∧
      trapReturn s.sp s = .raise .invalidStatusWord (some (.word (s.ramWord (s.sp.toNat + 1))))) ∨
    (s.sp.toNat + 2 ≤ s.cfg.ramWords ∧ (s.sp + 1 + 1).toNat = s.sp.toNat + 2 ∧
      ∃ m, statusMode (s.ramWord (s.sp.toNat + 1)) = some m ∧
      trapReturn s.sp s = .ok ((((s.setSp (s.sp + 1 + 1)).setPc (s.ramWord s.sp.toNat)).setMode m).setFlags
        (s.flags.restore (s.ramWord (s.sp.toNat + 1))))) := by
  rcases popWord_cases s.sp s with ⟨h0, hp⟩ | ⟨h0, hp⟩
  · exact .inl ⟨by omega, by simp [trapReturn, hp]⟩
  · have h1 := toNat_add_one h0 hn
    rcases popWord_cases s.sp (s.setSp (s.sp + 1)) with ⟨h0', hp'⟩ | ⟨h0', hp'⟩
    · simp only [State.sp_setSp, State.cfg_setSp, h1] at h0'
      exact .inl ⟨by omega, by simp only [trapReturn, hp, Res.bind_ok, hp', Res.bind_raise]⟩
    · simp only [State.sp_setSp, State.cfg_setSp, h1, State.ramWord_setSp] at h0' hp'
      have h2 := toNat_add_one (v := s.sp + 1) (by rw [h1]; exact h0') hn
      cases hm : statusMode (s.ramWord (s.sp.toNat + 1)) with
      | none => exact .inr (.inl ⟨by omega, rfl, by simp only [trapReturn, hp, Res.bind_ok, hp', hm]⟩)
      | some m =>
        refine .inr (.inr ⟨by omega, by omega, m, rfl, ?_⟩)
        simp only [trapReturn, hp, Res.bind_ok, hp', hm]; rfl

/-! ### The framebuffer notification -/

/-- All `notifyFramebuffer` can do: nothing outside the window; inside it, with parameters that satisfy
R6, append the row, which has FB_WIDTH words (R60). -/
theorem notifyFramebuffer_cases (a : Nat) (s : State) (hc : s.cfg.valid = true) :
    (inWindow s.cfg a = false ∧ notifyFramebuffer a s = .ok s) ∨
    (inWindow s.cfg a = true ∧ notifyFramebuffer a s =
      .ok (s.emit ((List.range s.cfg.fbWidth).map (fun k => s.ramWord (rowStart s.cfg a + k))))) := by
  cases hw : inWindow s.cfg a with
  | false => exact .inl ⟨rfl, by simp [notifyFramebuffer, hw]⟩
  | true =>
    refine .inr ⟨rfl, ?_⟩
    have hw' : s.cfg.fbBase ≤ a ∧ a < s.cfg.fbBase + s.cfg.fbWidth * s.cfg.fbHeight := by
      simp only [inWindow, Bool.and_eq_true, decide_eq_true_eq] at hw; exact hw
    have hin : s.cfg.fbBase + s.cfg.fbWidth * s.cfg.fbHeight ≤ s.cfg.ramWords := by
      have := valid_window hc; omega
    have hrow : rowStart s.cfg a + s.cfg.fbWidth ≤ s.cfg.ramWords := by
      have hq : (a - s.cfg.fbBase) / s.cfg.fbWidth < s.cfg.fbHeight := by
        apply Nat.div_lt_of_lt_mul; omega
      have := Nat.mul_le_mul_right s.cfg.fbWidth (Nat.succ_le_of_lt hq)
      rw [Nat.succ_mul] at this
      have hcomm := Nat.mul_comm s.cfg.fbHeight s.cfg.fbWidth
      simp only [rowStart, fbRow]; omega
    simp [notifyFramebuffer, hw, rowSlice, hrow]

/-! ### The parts of a step -/

/-- All `tick` can do: count the cycle, and at a multiple of 1000 set IP and latch number 0 (R237). -/
theorem tick_cases (s : State) :
    ((s.cycle + 1).toNat % 1000 = 0 ∧
      tick s = ((s.setCycle (s.cycle + 1)).setFlags { s.flags with ip := true }).setIrqNum 0) ∨
    ((s.cycle + 1).toNat % 1000 ≠ 0 ∧ tick s = s.setCycle (s.cycle + 1)) := by
  by_cases h : (s.cycle + 1).toNat % 1000 = 0
  · exact .inl ⟨h, by simp only [tick, Config.timerPeriod, State.cycle_setCycle, h, if_true]; rfl⟩
  · exact .inr ⟨h, by simp only [tick, Config.timerPeriod, State.cycle_setCycle, h, if_false]⟩

/-- What the tick leaves alone: everything but the cycle, the flags and the latch. -/
theorem tick_frame (s : State) :
    (tick s).cycle = s.cycle + 1 ∧ (tick s).cfg = s.cfg ∧ (tick s).regs = s.regs ∧ (tick s).pc = s.pc ∧
    (tick s).sp = s.sp ∧ (tick s).mode = s.mode ∧ (tick s).running = s.running ∧
    (tick s).fault = s.fault ∧ (tick s).ram = s.ram ∧ (tick s).rom = s.rom ∧
    (tick s).fbEvents = s.fbEvents ∧ (s.irqNum = 0 → (tick s).irqNum = 0) := by
  rcases tick_cases s with ⟨-, h⟩ | ⟨-, h⟩ <;> rw [h] <;> simp

/-- A fetch reads the same word before and after the tick. -/
@[simp] theorem fetchRead_tick (a : Word) (s : State) : fetchRead a (tick s) = fetchRead a s := by
  rcases tick_cases s with ⟨-, h⟩ | ⟨-, h⟩ <;> rw [h] <;> rfl

/-- All `fetch` can do (30_encoding.md R90, R91). -/
theorem fetch_cases (s : State) :
    (fetchRead s.pc s = none ∧
      fetch s = .halted (s.haltWith ⟨.memoryOutOfBounds, s.pc, none, some (.word s.pc)⟩)) ∨
    (∃ w opc, fetchRead s.pc s = some w ∧ decode w = .illegal opc ∧
      fetch s = .halted (s.haltWith ⟨.illegalOpcode, s.pc, some opc, some (.word w)⟩)) ∨
    (∃ w i, fetchRead s.pc s = some w ∧ decode w = .instr i ∧ fetch s = .instr i (s.setPc (s.pc + 1))) := by
  cases hf : fetchRead s.pc s with
  | none => exact .inl ⟨rfl, by simp [fetch, hf]⟩
  | some w =>
    cases hd : decode w with
    | illegal opc => exact .inr (.inl ⟨w, opc, rfl, hd, by simp [fetch, hf, hd]⟩)
    | instr i => exact .inr (.inr ⟨w, i, rfl, hd, by simp [fetch, hf, hd]⟩)

/-- All a step can do (R240): nothing when halted; the dispatch; a halt at the fetch; or the execution
of the fetched instruction. -/
theorem step_cases (s : State) :
    (s.running = false ∧ step s = .next s) ∨
    (s.running = true ∧ interruptDue (tick s) = true ∧ step s = dispatchInterrupt (tick s)) ∨
    (s.running = true ∧ interruptDue (tick s) = false ∧ ∃ r,
      step s = .next ((tick s).haltWith r) ∧ r.pc = s.pc ∧
      (r.kind = .memoryOutOfBounds ∨ r.kind = .illegalOpcode)) ∨
    (∃ i, Executes s i ((tick s).setPc (s.pc + 1)) ∧
      step s = exec i ((tick s).setPc (s.pc + 1))) := by
  have hpc : (tick s).pc = s.pc := (tick_frame s).2.2.2.1
  cases hr : s.running with
  | false => exact .inl ⟨rfl, by simp [step, hr]⟩
  | true =>
    cases hd : interruptDue (tick s) with
    | true => exact .inr (.inl ⟨rfl, rfl, by simp [step, hr, hd]⟩)
    | false =>
      rcases fetch_cases (tick s) with ⟨-, h⟩ | ⟨w, opc, -, -, h⟩ | ⟨w, i, -, -, h⟩
      · exact .inr (.inr (.inl ⟨rfl, rfl, _, by simp [step, hr, hd, h]; rfl, hpc, .inl rfl⟩))
      · exact .inr (.inr (.inl ⟨rfl, rfl, _, by simp [step, hr, hd, h]; rfl, hpc, .inr rfl⟩))
      · rw [hpc] at h
        exact .inr (.inr (.inr ⟨i, ⟨hr, hd, h⟩, by simp [step, hr, hd, h]⟩))

end Sys2Proof.Machine
end

