-- ==== Sys2Proof/Laws/Exec.lean ====
section
/-! SUPPORT. Every next state of every instruction, said once. Unlike the lemmas of Laws/Ops.lean these need no
hypothesis on the state. -/

namespace Sys2Proof.Machine

/-! ### Results -/

theorem Res.bind_eq_ok {α β : Type} {r : Res α} {f : α → Res β} {b : β} (h : r.bind f = .ok b) :
    ∃ a, r = .ok a ∧ f a = .ok b := by
  cases r with
  | ok a => exact ⟨a, rfl, h⟩
  | raise k x => cases h
  | absent a => cases h

theorem Res.bind_eq_raise {α β : Type} {r : Res α} {f : α → Res β} {k : FaultKind} {x : Option FaultAddress}
    (h : r.bind f = .raise k x) : r = .raise k x ∨ ∃ a, r = .ok a ∧ f a = .raise k x := by
  cases r with
  | ok a => exact .inr ⟨a, rfl, h⟩
  | raise k x => cases h; exact .inl rfl
  | absent a => cases h

/-! ### What the shared operations write, and what they raise -/

theorem pushWord_eq_ok {sp0 v : Word} {s t : State} (h : pushWord sp0 v s = .ok t) :
    ∃ p m, t = (s.setSp p).setRam m := by
  unfold pushWord at h
  split at h
  · cases h
  · dsimp only at h
    split at h
    · cases h; exact ⟨_, _, rfl⟩
    · cases h

theorem pushWord_eq_raise {sp0 v : Word} {s : State} {k : FaultKind} {x : Option FaultAddress}
    (h : pushWord sp0 v s = .raise k x) : k = .stackOverflow := by
  unfold pushWord at h
  split at h
  · cases h; rfl
  · dsimp only at h
    split at h <;> cases h

theorem popWord_eq_ok {sp0 : Word} {s : State} {q : Word × State} (h : popWord sp0 s = .ok q) :
    ∃ p, q.2 = s.setSp p := by
  unfold popWord at h
  split at h
  · cases h
  · cases h; exact ⟨_, rfl⟩

theorem popWord_eq_raise {sp0 : Word} {s : State} {k : FaultKind} {x : Option FaultAddress}
    (h : popWord sp0 s = .raise k x) : k = .stackUnderflow := by
  unfold popWord at h
  split at h <;> cases h
  rfl

theorem pushRegs_eq_ok {mask : Nat} {sp0 : Word} {L : List Reg} {s t : State}
    (h : pushRegs mask sp0 L s = .ok t) : ∃ p m, t = (s.setSp p).setRam m := by
  induction L generalizing s with
  | nil => cases h; exact ⟨_, _, rfl⟩
  | cons q L ih =>
    unfold pushRegs at h
    split at h
    · obtain ⟨a, ha, hb⟩ := Res.bind_eq_ok h
      obtain ⟨p, m, rfl⟩ := pushWord_eq_ok ha
      obtain ⟨p', m', rfl⟩ := ih hb
      exact ⟨p', m', rfl⟩
    · exact ih h

theorem pushRegs_eq_raise {mask : Nat} {sp0 : Word} {L : List Reg} {s : State} {k : FaultKind}
    {x : Option FaultAddress} (h : pushRegs mask sp0 L s = .raise k x) : k = .stackOverflow := by
  induction L generalizing s with
  | nil => cases h
  | cons q L ih =>
    unfold pushRegs at h
    split at h
    · rcases Res.bind_eq_raise h with h | ⟨a, -, hb⟩
      · exact pushWord_eq_raise h
      · exact ih hb
    · exact ih h

theorem popRegs_eq_ok {mask : Nat} {sp0 : Word} {L : List Reg} {s t : State} (h : popRegs mask sp0 L s = .ok t) :
    ∃ p R, t = ({ s with regs := R } : State).setSp p ∧
      ∀ r : Reg, maskSelects mask r = false → R[r] = s.getReg r := by
  induction L generalizing s with
  | nil => cases h; exact ⟨_, _, rfl, fun _ _ => rfl⟩
  | cons q L ih =>
    unfold popRegs at h
    split at h
    · rename_i hq
      obtain ⟨a, ha, hb⟩ := Res.bind_eq_ok h
      obtain ⟨p, hp⟩ := popWord_eq_ok ha
      rw [hp] at hb
      obtain ⟨p', R, rfl, hR⟩ := ih hb
      refine ⟨p', R, rfl, fun r hr => (hR r hr).trans ?_⟩
      have hne : r ≠ q := by rintro rfl; simp [hq] at hr
      exact State.getReg_setReg_ne _ _ hne
    · exact ih h

theorem popRegs_eq_raise {mask : Nat} {sp0 : Word} {L : List Reg} {s : State} {k : FaultKind}
    {x : Option FaultAddress} (h : popRegs mask sp0 L s = .raise k x) : k = .stackUnderflow := by
  induction L generalizing s with
  | nil => cases h
  | cons q L ih =>
    unfold popRegs at h
    split at h
    · rcases Res.bind_eq_raise h with h | ⟨a, -, hb⟩
      · exact popWord_eq_raise h
      · exact ih hb
    · exact ih h

/-- A trap entry writes sp, RAM, IE, the mode and pc only. -/
theorem trapEntry_eq_ok {n ret sp0 : Word} {s t : State} (h : trapEntry n ret sp0 s = .ok t) :
    ∃ p m q, t =
      ((((s.setSp p).setRam m).setFlags { s.flags with ie := false }).setMode .bios).setPc q := by
  obtain ⟨a, ha, h⟩ := Res.bind_eq_ok h
  obtain ⟨b, hb, h⟩ := Res.bind_eq_ok h
  obtain ⟨c, -, h⟩ := Res.bind_eq_ok h
  obtain ⟨p, m, rfl⟩ := pushWord_eq_ok ha
  obtain ⟨p', m', rfl⟩ := pushWord_eq_ok hb
  cases h
  exact ⟨p', m', c, rfl⟩

/-- The vector read of a trap entry is in bounds, so only its pushes can fault (R241, R243). -/
theorem trapEntry_eq_raise {n ret sp0 : Word} {s : State} {k : FaultKind} {x : Option FaultAddress}
    (hn : n.toNat < 16) (hc : s.cfg.valid = true) (h : trapEntry n ret sp0 s = .raise k x) :
    k = .stackOverflow := by
  rcases Res.bind_eq_raise h with h | ⟨a, ha, h⟩
  · exact pushWord_eq_raise h
  rcases Res.bind_eq_raise h with h | ⟨b, hb, h⟩
  · exact pushWord_eq_raise h
  obtain ⟨p, m, rfl⟩ := pushWord_eq_ok ha
  obtain ⟨p', m', rfl⟩ := pushWord_eq_ok hb
  have hv := valid_vectors_le hc
  have hlt : (vectorAddress n).toNat < s.cfg.ramWords := by rw [vectorAddress_toNat hn]; omega
  simp [memRead, hlt] at h

/-- A trap return writes sp, pc, the mode and the restored flags only. -/
theorem trapReturn_eq_ok {sp0 : Word} {s t : State} (h : trapReturn sp0 s = .ok t) :
    ∃ p q m w, t = (((s.setSp p).setPc q).setMode m).setFlags (s.flags.restore w) := by
  obtain ⟨a, ha, h⟩ := Res.bind_eq_ok h
  obtain ⟨b, hb, h⟩ := Res.bind_eq_ok h
  obtain ⟨p, hp⟩ := popWord_eq_ok ha
  obtain ⟨p', hp'⟩ := popWord_eq_ok hb
  rw [hp] at hp'
  split at h
  · cases h
  · cases h; exact ⟨p', a.1, _, b.1, by rw [hp']; rfl⟩

theorem trapReturn_eq_raise {sp0 : Word} {s : State} {k : FaultKind} {x : Option FaultAddress}
    (h : trapReturn sp0 s = .raise k x) : k = .stackUnderflow ∨ k = .invalidStatusWord := by
  rcases Res.bind_eq_raise h with h | ⟨a, -, h⟩
  · exact .inl (popWord_eq_raise h)
  rcases Res.bind_eq_raise h with h | ⟨b, -, h⟩
  · exact .inl (popWord_eq_raise h)
  split at h <;> cases h
  exact .inr rfl

theorem notifyFramebuffer_eq_ok {a : Nat} {s t : State} (h : notifyFramebuffer a s = .ok t) :
    ∃ e, t = { s with fbEvents := e } := by
  unfold notifyFramebuffer at h
  split at h
  · obtain ⟨r, -, h⟩ := Res.bind_eq_ok h
    cases h; exact ⟨_, rfl⟩
  · cases h; exact ⟨_, rfl⟩

theorem notifyFramebuffer_ne_raise {a : Nat} {s : State} {k : FaultKind} {x : Option FaultAddress}
    (h : notifyFramebuffer a s = .raise k x) : False := by
  unfold notifyFramebuffer at h
  split at h
  · rcases Res.bind_eq_raise h with h | ⟨r, -, h⟩
    · unfold rowSlice at h
      dsimp only at h
      split at h <;> cases h
    · cases h
  · cases h

/-- A dispatch enters BIOS mode, or halts with no opcode in the record. -/
theorem dispatchInterrupt_eq_next {s t : State} (h : dispatchInterrupt s = .next t) :
    (∃ p m q f, t = ((((s.setSp p).setRam m).setFlags f).setMode .bios).setPc q) ∨
    ∃ k x, t = s.haltWith ⟨k, s.pc, none, x⟩ := by
  unfold dispatchInterrupt at h
  generalize hr : trapEntry s.irqNum s.pc s.sp (s.setFlags { s.flags with ip := false }) = r at h
  cases r with
  | ok u =>
    obtain ⟨p, m, q, rfl⟩ := trapEntry_eq_ok hr
    cases h; exact .inl ⟨p, m, q, _, rfl⟩
  | raise k x => cases h; exact .inr ⟨k, x, rfl⟩
  | absent a => cases h

/-! ### Instructions -/

/-- The shapes a next state of an instruction can have: its fault, or the writes of its kind. -/
inductive Effect (i : Instr) (s : State) : State → Prop where
  /-- A fault of a kind R231 lists for the instruction. -/
  | fault (k : FaultKind) (x : Option FaultAddress) (hk : s.cfg.valid = true → k ∈ mayRaise i.op) :
      Effect i s (faultedAt s k i.op.opcode x)
  /-- One register, the destination, and the flags R25 names for the instruction. -/
  | result (rd : Reg) (v : Word) (f : Flags) (hd : writesReg i rd)
      (hi : f.ie = s.flags.ie ∧ f.ip = s.flags.ip)
      (hz : ¬ writesZN i.op → f.z = s.flags.z ∧ f.n = s.flags.n)
      (hc : ¬ writesCV i.op → f.c = s.flags.c ∧ f.v = s.flags.v) :
      Effect i s ((s.setReg rd v).setFlags f)
  /-- CMP: Z, C, N and V. -/
  | compare (f : Flags) (hop : i.op = .cmp) (hi : f.ie = s.flags.ie ∧ f.ip = s.flags.ip) :
      Effect i s (s.setFlags f)
  /-- POP: sp and the selected registers. -/
  | pop (p : Word) (R : Vector Word 16) (hop : i.op = .pop)
      (hr : ∀ r : Reg, ¬ writesReg i r → R[r] = s.getReg r) :
      Effect i s (({ s with regs := R } : State).setSp p)
  /-- STR: RAM and the framebuffer events. -/
  | store (m : Mem) (e : List RowSlice) (hop : i.op = .str) : Effect i s { s with ram := m, fbEvents := e }
  /-- PUSH: sp and RAM. -/
  | push (p : Word) (m : Mem) (hop : i.op = .push) : Effect i s ((s.setSp p).setRam m)
  /-- A branch: pc. -/
  | branch (q : Word) : Effect i s (s.setPc q)
  /-- CALL: sp, RAM and pc. -/
  | call (p : Word) (m : Mem) (q : Word) (hop : i.op = .call) : Effect i s (((s.setSp p).setRam m).setPc q)
  /-- RET: sp and pc. -/
  | ret (p q : Word) (hop : i.op = .ret) : Effect i s ((s.setSp p).setPc q)
  /-- INT in BIOS mode. -/
  | handoff (hop : i.op = .int) (hm : s.mode = .bios) : Effect i s ((s.setMode .kernel).setPc 0)
  /-- INT in KERNEL and USER mode. -/
  | trap (p : Word) (m : Mem) (q : Word) (hop : i.op = .int) (hm : s.mode ≠ .bios) :
      Effect i s (((((s.setSp p).setRam m).setFlags { s.flags with ie := false }).setMode .bios).setPc q)
  /-- IRET. -/
  | iret (p q : Word) (m : Mode) (w : Word) (hop : i.op = .iret) :
      Effect i s ((((s.setSp p).setPc q).setMode m).setFlags (s.flags.restore w))
  /-- HLT. -/
  | halt (hop : i.op = .hlt) : Effect i s (s.setRunning false)

/-- Every next state of an instruction has one of the shapes of `Effect`. -/
theorem exec_effect {i : Instr} {s t : State} (h : exec i s = .next t) : Effect i s t := by
  cases i <;> simp only [exec] at h
  case add | sub | mul | and | or | xor | shl | shr =>
    cases h
    refine .result _ _ _ rfl ⟨rfl, rfl⟩ (fun h => ?_) (fun h => ?_) <;>
      first | exact ⟨rfl, rfl⟩ | exact absurd (by simp [writesZN, writesCV, Instr.op]) h
  case div | mod =>
    rcases complete_eq_next h with hr | ⟨k, x, hr, rfl⟩
    · unfold runDivision at hr
      split at hr
      · cases hr
      · rename_i o ho
        cases hr
        first | unfold aluDiv at ho | unfold aluMod at ho
        split at ho
        · cases ho
        · cases ho
          refine .result _ _ _ rfl ⟨rfl, rfl⟩ (fun h => ?_) (fun h => ?_) <;>
            first | exact ⟨rfl, rfl⟩ | exact absurd (by simp [writesZN, Instr.op]) h
    · refine .fault _ _ (fun _ => ?_)
      unfold runDivision at hr
      split at hr <;> cases hr
      simp [mayRaise, Instr.op]
  case cmp => cases h; exact .compare _ rfl ⟨rfl, rfl⟩
  case mov =>
    cases h
    exact Effect.result (i := .mov _ _) _ _ s.flags rfl ⟨rfl, rfl⟩ (fun _ => ⟨rfl, rfl⟩) (fun _ => ⟨rfl, rfl⟩)
  case ldr =>
    rcases complete_eq_next h with hr | ⟨k, x, hr, rfl⟩
    · obtain ⟨a, -, hr⟩ := Res.bind_eq_ok hr
      cases hr
      exact Effect.result (i := .ldr _ _ _) _ _ s.flags rfl ⟨rfl, rfl⟩ (fun _ => ⟨rfl, rfl⟩)
        (fun _ => ⟨rfl, rfl⟩)
    · refine .fault _ _ (fun _ => ?_)
      rcases Res.bind_eq_raise hr with hr | ⟨a, -, hr⟩
      · unfold memRead at hr
        split at hr <;> cases hr
        simp [mayRaise, Instr.op]
      · cases hr
  case str =>
    rcases complete_eq_next h with hr | ⟨k, x, hr, rfl⟩
    · obtain ⟨a, ha, hr⟩ := Res.bind_eq_ok hr
      obtain ⟨e, rfl⟩ := notifyFramebuffer_eq_ok hr
      unfold memWrite at ha
      split at ha <;> cases ha
      exact .store _ _ rfl
    · refine .fault _ _ (fun _ => ?_)
      rcases Res.bind_eq_raise hr with hr | ⟨a, -, hr⟩
      · unfold memWrite at hr
        split at hr <;> cases hr
        simp [mayRaise, Instr.op]
      · exact (notifyFramebuffer_ne_raise hr).elim
  case push =>
    rcases complete_eq_next h with hr | ⟨k, x, hr, rfl⟩
    · obtain ⟨p, m, rfl⟩ := pushRegs_eq_ok hr
      exact .push p m rfl
    · exact .fault _ _ (fun _ => by rw [pushRegs_eq_raise hr]; simp [mayRaise, Instr.op])
  case pop mask =>
    rcases complete_eq_next h with hr | ⟨k, x, hr, rfl⟩
    · obtain ⟨p, R, rfl, hR⟩ := popRegs_eq_ok hr
      exact .pop p R rfl (fun r hw => hR r (by simpa [writesReg] using hw))
    · exact .fault _ _ (fun _ => by rw [popRegs_eq_raise hr]; simp [mayRaise, Instr.op])
  case jmp => cases h; exact .branch _
  case beq | bne | blt | bge | bgt | ble | bcs | bcc =>
    cases h
    unfold branchIf
    split
    · exact .branch _
    · exact Effect.branch (s := s) s.pc
  case call =>
    rcases complete_eq_next h with hr | ⟨k, x, hr, rfl⟩
    · obtain ⟨a, ha, hr⟩ := Res.bind_eq_ok hr
      obtain ⟨p, m, rfl⟩ := pushWord_eq_ok ha
      cases hr; exact .call _ _ _ rfl
    · refine .fault _ _ (fun _ => ?_)
      rcases Res.bind_eq_raise hr with hr | ⟨a, -, hr⟩
      · rw [pushWord_eq_raise hr]; simp [mayRaise, Instr.op]
      · cases hr
  case ret =>
    rcases complete_eq_next h with hr | ⟨k, x, hr, rfl⟩
    · obtain ⟨a, ha, hr⟩ := Res.bind_eq_ok hr
      obtain ⟨p, hp⟩ := popWord_eq_ok ha
      rw [hp] at hr
      cases hr; exact .ret _ _ rfl
    · refine .fault _ _ (fun _ => ?_)
      rcases Res.bind_eq_raise hr with hr | ⟨a, -, hr⟩
      · rw [popWord_eq_raise hr]; simp [mayRaise, Instr.op]
      · cases hr
  case int n =>
    unfold execInt at h
    split at h
    · cases h; exact .handoff rfl ‹_›
    · rcases complete_eq_next h with hr | ⟨k, x, hr, rfl⟩
      · unfold softwareInterrupt at hr
        split at hr
        · obtain ⟨p, m, q, rfl⟩ := trapEntry_eq_ok hr
          exact .trap _ _ _ rfl ‹_›
        · cases hr
      · refine .fault _ _ (fun hc => ?_)
        unfold softwareInterrupt at hr
        split at hr
        · rename_i hn
          have hw : (signedWord n).toNat < 16 := by
            have h16 := hn.2
            simp [Config.numVectors] at h16
            simp [signedWord, BitVec.toNat_ofInt]; omega
          rw [trapEntry_eq_raise hw hc hr]; simp [mayRaise, Instr.op]
        · cases hr; simp [mayRaise, Instr.op]
  case iret =>
    rcases complete_eq_next h with hr | ⟨k, x, hr, rfl⟩
    · obtain ⟨p, q, m, w, rfl⟩ := trapReturn_eq_ok hr
      exact .iret _ _ _ _ rfl
    · refine .fault _ _ (fun _ => ?_)
      rcases trapReturn_eq_raise hr with hk | hk <;> rw [hk] <;> simp [mayRaise, Instr.op]
  case hlt => cases h; exact .halt rfl

end Sys2Proof.Machine
end

