-- ==== Sys2Proof/Laws/Flags.lean ====
section
/-! SUPPORT. The status word and the flags: what a trap saves is what a return restores. -/

namespace Sys2Proof.Machine

@[simp] theorem Mode.ofBits_toBits (m : Mode) : Mode.ofBits m.toBits = some m := by cases m <;> rfl

/-- What a 2-bit field names a mode with is that mode's value. -/
theorem Mode.toBits_of_ofBits {b : BitVec 2} {m : Mode} (h : Mode.ofBits b = some m) : m.toBits = b := by
  revert h; cases m <;> revert b <;> decide

/-- Only the value 3 names no mode (R29). -/
theorem Mode.ofBits_eq_none (b : BitVec 2) : Mode.ofBits b = none ↔ b = 3 := by
  revert b; decide

/-- The mode field of a status word is the mode it was built from (R28). -/
@[simp] theorem statusMode_statusWord (s : State) : statusMode s.statusWord = some s.mode := by
  have key : ∀ (m : Mode) (z c n v ie ip : Bool),
      statusMode (m.toBits.setWidth 32 <<< 8 ||| (Flags.toByte ⟨z, c, n, v, ie, ip⟩).setWidth 32) = some m := by
    intro m; cases m <;> decide
  exact key s.mode s.flags.z s.flags.c s.flags.n s.flags.v s.flags.ie s.flags.ip

/-- Restoring from a status word gives back Z, C, N, V and IE and keeps the present IP (R211). -/
@[simp] theorem Flags.restore_statusWord (f : Flags) (s : State) :
    f.restore s.statusWord = { s.flags with ip := f.ip } := by
  have key : ∀ (m : Mode) (z c n v ie ip : Bool),
      (m.toBits.setWidth 32 <<< 8 ||| (Flags.toByte ⟨z, c, n, v, ie, ip⟩).setWidth 32).getLsbD 0 = z ∧
      (m.toBits.setWidth 32 <<< 8 ||| (Flags.toByte ⟨z, c, n, v, ie, ip⟩).setWidth 32).getLsbD 1 = c ∧
      (m.toBits.setWidth 32 <<< 8 ||| (Flags.toByte ⟨z, c, n, v, ie, ip⟩).setWidth 32).getLsbD 2 = n ∧
      (m.toBits.setWidth 32 <<< 8 ||| (Flags.toByte ⟨z, c, n, v, ie, ip⟩).setWidth 32).getLsbD 3 = v ∧
      (m.toBits.setWidth 32 <<< 8 ||| (Flags.toByte ⟨z, c, n, v, ie, ip⟩).setWidth 32).getLsbD 4 = ie := by
    intro m; cases m <;> decide
  obtain ⟨h0, h1, h2, h3, h4⟩ := key s.mode s.flags.z s.flags.c s.flags.n s.flags.v s.flags.ie s.flags.ip
  simp only [Flags.restore]
  exact Flags.mk.injEq .. |>.mpr ⟨h0, h1, h2, h3, h4, rfl⟩

end Sys2Proof.Machine
end

