-- ==== Sys2Proof/Laws/PerInstr.lean ====
section
/-! SUPPORT. Per instruction: the word of an instruction carries its own opcode, and every bit the decoder ignores is
zero in it (30_encoding.md R82, R87). -/

namespace Sys2Proof.Laws.EncodeFields

/-- The encoded word has the instruction's opcode, and zero in every bit the decoder ignores. -/
def Statement (i : Instr) : Prop :=
  opcodeField (encode i) = i.op.opcode ∧ encode i &&& ignoredBits i.op (encode i) = 0

theorem zero_of_bits (w : Word) (h : ∀ i, i < 32 → w.getLsbD i = false) : w = 0 :=
  BitVec.eq_of_getLsbD_eq (fun i hi => by rw [h i hi]; simp)

/-- Bits [25:24] of an RI word are 0, and so is what the form chosen by the flag reserves. -/
theorem ri (op : Op) (hop : op.descriptor.family = .RI) (rd : Reg) (src : Src) :
    opcodeField (encodeRI op rd src) = op.opcode ∧
      encodeRI op rd src &&& ignoredBits op (encodeRI op rd src) = 0 := by
  refine ⟨opcodeField_encodeRI op rd src, zero_of_bits _ (fun i hi => ?_)⟩
  cases src with
  | reg rs =>
    have h0 : (encodeRI op rd (.reg rs)).getLsbD 0 = false := by
      simp (disch := omega) only [encodeRI, BitVec.getLsbD_or, opcodeBits_low, regBits_out, Bool.or_false]
    have hm : ignoredBits op (encodeRI op rd (.reg rs)) = 0x0300FFFE#32 := by
      simp only [ignoredBits, hop, h0]; rfl
    rw [hm, BitVec.getLsbD_and]
    by_cases hz : (0x0300FFFE#32).getLsbD i = false
    · rw [hz, Bool.and_false]
    · have hi' : i < 16 ∨ i = 24 ∨ i = 25 := by
        by_contra hc; apply hz; interval_cases i <;> first | rfl | omega
      have : (encodeRI op rd (.reg rs)).getLsbD i = false := by
        simp (disch := omega) only [encodeRI, BitVec.getLsbD_or, opcodeBits_low, regBits_out, Bool.or_false]
      rw [this, Bool.false_and]
  | imm v =>
    have h0 : (encodeRI op rd (.imm v)).getLsbD 0 = true := by simp [encodeRI]
    have hm : ignoredBits op (encodeRI op rd (.imm v)) = 0x030E0000#32 := by
      simp only [ignoredBits, hop, h0]; rfl
    rw [hm, BitVec.getLsbD_and]
    by_cases hz : (0x030E0000#32).getLsbD i = false
    · rw [hz, Bool.and_false]
    · have hi' : (17 ≤ i ∧ i < 20) ∨ i = 24 ∨ i = 25 := by
        by_contra hc; apply hz; interval_cases i <;> first | rfl | omega
      have : (encodeRI op rd (.imm v)).getLsbD i = false := by
        simp (disch := omega) only [encodeRI, BitVec.getLsbD_or, opcodeBits_low, regBits_out,
          narrow_high_shift, one_getLsbD_pos, Bool.or_false]
      rw [this, Bool.false_and]

/-- A word whose bits [25:24] are 0 has no bit in common with that mask. -/
theorem and_top (w : Word) (h4 : w.getLsbD 24 = false) (h5 : w.getLsbD 25 = false) :
    w &&& 0x03000000#32 = 0 := zero_of_bits _ (fun i hi => by
  rw [BitVec.getLsbD_and]
  by_cases hz : (0x03000000#32).getLsbD i = false
  · rw [hz, Bool.and_false]
  · have hi' : i = 24 ∨ i = 25 := by
      by_contra hc; apply hz; interval_cases i <;> first | rfl | omega
    rcases hi' with rfl | rfl
    · rw [h4, Bool.false_and]
    · rw [h5, Bool.false_and])

/-- LDR and STR words reserve bits [25:24] only. -/
theorem loadStore (op : Op) (hop : op = .ldr ∨ op = .str) (rd rb : Reg) (x : BitVec 16) :
    opcodeField (encodeI op rd rb x) = op.opcode ∧
      encodeI op rd rb x &&& ignoredBits op (encodeI op rd rb x) = 0 := by
  refine ⟨opcodeField_encodeI op rd rb x, ?_⟩
  have hm : ignoredBits op (encodeI op rd rb x) = 0x03000000#32 := by rcases hop with rfl | rfl <;> rfl
  rw [hm]
  apply and_top <;>
    simp (disch := omega) only [encodeI, BitVec.getLsbD_or, opcodeBits_low, regBits_out, narrow_high,
      Bool.or_false]

/-- PUSH, POP and INT words have 0 in the register fields they do not use. -/
theorem noRegs (op : Op) (hop : op = .push ∨ op = .pop ∨ op = .int) (x : BitVec 16) :
    opcodeField (encodeI op 0 0 x) = op.opcode ∧
      encodeI op 0 0 x &&& ignoredBits op (encodeI op 0 0 x) = 0 := by
  refine ⟨opcodeField_encodeI op 0 0 x, zero_of_bits _ (fun i hi => ?_)⟩
  have hm : ignoredBits op (encodeI op 0 0 x) = 0x03FF0000#32 := by rcases hop with rfl | rfl | rfl <;> rfl
  have hr : ∀ lo i, (regBits 0 lo).getLsbD i = false := fun lo i => by
    have : regBits 0 lo = 0#32 <<< lo := rfl
    rw [this]; simp
  rw [hm, BitVec.getLsbD_and]
  by_cases hz : (0x03FF0000#32).getLsbD i = false
  · rw [hz, Bool.and_false]
  · have hi' : 16 ≤ i ∧ i < 26 := by
      by_contra hc; apply hz; interval_cases i <;> first | rfl | omega
    have : (encodeI op 0 0 x).getLsbD i = false := by
      simp (disch := omega) only [encodeI, BitVec.getLsbD_or, opcodeBits_low, hr, narrow_high, Bool.or_false]
    rw [this, Bool.false_and]

/-- Format M words reserve bits [25:24] only. -/
theorem branch (op : Op) (hop : op.descriptor.family = .M) (off : Int) :
    opcodeField (encodeM op off) = op.opcode ∧ encodeM op off &&& ignoredBits op (encodeM op off) = 0 := by
  refine ⟨opcodeField_encodeM op off, ?_⟩
  have hm : ignoredBits op (encodeM op off) = 0x03000000#32 := by simp only [ignoredBits, hop]
  rw [hm]
  apply and_top <;>
    simp (disch := omega) only [encodeM, BitVec.getLsbD_or, opcodeBits_low, narrow_high, Bool.or_false]

theorem add (rd : Reg) (src : Src) : Statement (.add rd src) := ri .add rfl rd src
theorem sub (rd : Reg) (src : Src) : Statement (.sub rd src) := ri .sub rfl rd src
theorem mul (rd : Reg) (src : Src) : Statement (.mul rd src) := ri .mul rfl rd src
theorem div (rd : Reg) (src : Src) : Statement (.div rd src) := ri .div rfl rd src
theorem mod (rd : Reg) (src : Src) : Statement (.mod rd src) := ri .mod rfl rd src
theorem and (rd : Reg) (src : Src) : Statement (.and rd src) := ri .and rfl rd src
theorem or (rd : Reg) (src : Src) : Statement (.or rd src) := ri .or rfl rd src
theorem xor (rd : Reg) (src : Src) : Statement (.xor rd src) := ri .xor rfl rd src
theorem shl (rd : Reg) (src : Src) : Statement (.shl rd src) := ri .shl rfl rd src
theorem shr (rd : Reg) (src : Src) : Statement (.shr rd src) := ri .shr rfl rd src
theorem cmp (rd : Reg) (src : Src) : Statement (.cmp rd src) := ri .cmp rfl rd src
theorem mov (rd : Reg) (src : Src) : Statement (.mov rd src) := ri .mov rfl rd src
theorem ldr (rd rb : Reg) (imm : Int) : Statement (.ldr rd rb imm) := loadStore .ldr (by simp) rd rb _
theorem str (rd rb : Reg) (imm : Int) : Statement (.str rd rb imm) := loadStore .str (by simp) rd rb _
theorem push (mask : Nat) : Statement (.push mask) := noRegs .push (by simp) _
theorem pop (mask : Nat) : Statement (.pop mask) := noRegs .pop (by simp) _
theorem jmp (off : Int) : Statement (.jmp off) := branch .jmp rfl off
theorem beq (off : Int) : Statement (.beq off) := branch .beq rfl off
theorem bne (off : Int) : Statement (.bne off) := branch .bne rfl off
theorem blt (off : Int) : Statement (.blt off) := branch .blt rfl off
theorem bge (off : Int) : Statement (.bge off) := branch .bge rfl off
theorem bgt (off : Int) : Statement (.bgt off) := branch .bgt rfl off
theorem ble (off : Int) : Statement (.ble off) := branch .ble rfl off
theorem bcs (off : Int) : Statement (.bcs off) := branch .bcs rfl off
theorem bcc (off : Int) : Statement (.bcc off) := branch .bcc rfl off
theorem call (off : Int) : Statement (.call off) := branch .call rfl off
theorem ret : Statement .ret := by unfold Statement; decide
theorem int (n : Int) : Statement (.int n) := noRegs .int (by simp) _
theorem iret : Statement .iret := by unfold Statement; decide
theorem hlt : Statement .hlt := by unfold Statement; decide

end Sys2Proof.Laws.EncodeFields
end

