-- ==== Sys2Proof/Tests/Slice0.lean ====
section
/-! SUPPORT. The model's own tests: ill-formed terms, decoded words, single steps whose expected results are the vectors
of spec/95_test_vectors.md, and for every statement with hypotheses a witness that meets them. -/

namespace Sys2Proof.Tests

open Sys2Proof.Machine

/-! ### Helpers -/

/-- Store a word in RAM. -/
def poke (a : Nat) (w : Word) (s : State) : State := s.setRam (Mem.write s.ram a w)

/-- The vectors' default start state with one instruction word at `ia` and the pc there. -/
def code (ia : Nat) (w : Word) : State := (poke ia w State.reset).setPc (BitVec.ofNat 32 ia)

/-- The flag register of a byte. -/
def flagsOf (b : BitVec 8) : Flags :=
  { z := b.getLsbD 0, c := b.getLsbD 1, n := b.getLsbD 2, v := b.getLsbD 3, ie := b.getLsbD 4, ip := b.getLsbD 5 }

/-- One step answers a next state that passes the check. -/
def after (s : State) (p : State → Bool) : Bool :=
  match step s with
  | .next t => p t
  | .fault _ => false
  | .refused _ => false

/-- One step with x[1] = a and x[2] = b gives this x[1] and this flag byte. -/
def alu (w a b r : Word) (before expected : BitVec 8) : Bool :=
  after (((code 0 w).setReg 1 a |>.setReg 2 b).setFlags (flagsOf before))
    (fun t => t.running && t.pc == 1 && t.getReg 1 == r && t.flags.toByte == expected)

/-- The state halted with this record. -/
def haltedWith (r : FaultRecord) (t : State) : Bool := !t.running && t.fault == some r && t.pc == r.pc

/-- The taken and untaken branches of the four low flag bits, 0x0 to 0xF, with the branch at 10 and offset 5. -/
def branchRow (w : Word) : List Bool :=
  (List.range 16).map (fun k => after ((code 10 w).setFlags (flagsOf (BitVec.ofNat 8 k))) (fun t => t.pc == 16))

/-- The assembler's words. -/
def words (text : String) : Option (List Word) :=
  match assemble text.toList with
  | .ok ws => some ws
  | .error _ => none

/-- The assembler's error: kind, line, token. -/
def errorOf (text : String) : Option (ErrorKind × Nat × String) :=
  match assemble text.toList with
  | .ok _ => none
  | .error e => some (e.kind, e.line, String.ofList e.token)

/-! ### Well-formedness: each check refuses an ill-formed term -/

theorem test_wf_immediate_too_large : (Instr.add 1 (.imm 32768)).wellFormed = false := by decide
theorem test_wf_immediate_too_small : (Instr.ldr 1 2 (-32769)).wellFormed = false := by decide
theorem test_wf_mask_too_large : (Instr.push 65536).wellFormed = false := by decide
theorem test_wf_offset_too_large : (Instr.jmp 8388608).wellFormed = false := by decide
theorem test_wf_offset_too_small : (Instr.call (-8388609)).wellFormed = false := by decide
theorem test_wf_int_too_large : (Instr.int 32768).wellFormed = false := by decide
theorem test_wf_ends_of_ranges :
    (Instr.mov 15 (.imm (-32768))).wellFormed && (Instr.str 0 15 32767).wellFormed && (Instr.pop 65535).wellFormed &&
      (Instr.bcc 8388607).wellFormed && (Instr.bcs (-8388608)).wellFormed = true := by decide

/-! ### Decoding: words written out from the formats of R72 to R75 and the opcode map of R80 -/

theorem test_decode_arithmetic :
    decode 0x04120000 = .instr (.add 1 (.reg 2)) ∧ decode 0x0811FFFF = .instr (.sub 1 (.imm (-1))) ∧
    decode 0x0C110000 = .instr (.mul 1 (.reg 1)) ∧ decode 0x10100005 = .instr (.div 1 (.imm 2)) ∧
    decode 0x1411FFFD = .instr (.mod 1 (.imm (-2))) := by decide
theorem test_decode_logic :
    decode 0x18120000 = .instr (.and 1 (.reg 2)) ∧ decode 0x1C10ACF1 = .instr (.or 1 (.imm 0x5678)) ∧
    decode 0x20FE0000 = .instr (.xor 15 (.reg 14)) ∧ decode 0x24100041 = .instr (.shl 1 (.imm 32)) ∧
    decode 0x28100009 = .instr (.shr 1 (.imm 4)) := by decide
theorem test_decode_compare_move :
    decode 0x2C10000B = .instr (.cmp 1 (.imm 5)) ∧ decode 0x30110001 = .instr (.mov 1 (.imm (-32768))) ∧
    decode 0x3010FFFF = .instr (.mov 1 (.imm 32767)) := by decide
theorem test_decode_memory :
    decode 0x3434FFFE = .instr (.ldr 3 4 (-2)) ∧ decode 0x38FE7FFF = .instr (.str 15 14 32767) ∧
    decode 0x3C000006 = .instr (.push 6) ∧ decode 0x40008001 = .instr (.pop 0x8001) := by decide
theorem test_decode_branches :
    decode 0x447FFFFF = .instr (.jmp 8388607) ∧ decode 0x48000005 = .instr (.beq 5) ∧
    decode 0x4CFFFFFD = .instr (.bne (-3)) ∧ decode 0x50000005 = .instr (.blt 5) ∧
    decode 0x54000005 = .instr (.bge 5) ∧ decode 0x58000005 = .instr (.bgt 5) ∧ decode 0x5C000005 = .instr (.ble 5) ∧
    decode 0x60000005 = .instr (.bcs 5) ∧ decode 0x64000005 = .instr (.bcc 5) ∧
    decode 0x68800000 = .instr (.call (-8388608)) := by decide
theorem test_decode_system :
    decode 0x6C000000 = .instr .ret ∧ decode 0x70000003 = .instr (.int 3) ∧ decode 0x7000FFFF = .instr (.int (-1)) ∧
    decode 0x74000000 = .instr .iret ∧ decode 0x78000000 = .instr .hlt := by decide
theorem test_decode_ignored_bits :
    decode 0x04120001 = .instr (.add 1 (.imm 0)) ∧ decode 0x0412FFFE = .instr (.add 1 (.reg 2)) ∧
    decode 0x0513FFFF = .instr (.add 1 (.imm (-1))) ∧ decode 0x7B000000 = .instr .hlt ∧
    decode 0x3FFF0006 = .instr (.push 6) ∧ decode 0x6CFFFFFF = .instr .ret ∧ decode 0x70FFFFFF = .instr (.int (-1)) := by
  decide
theorem test_decode_illegal :
    decode 0x00000000 = .illegal 0 ∧ decode 0x7C000000 = .illegal 0x1F ∧ decode 0xFC000000 = .illegal 0x3F := by decide
theorem test_decode_table_word : decodeTableWord 32 0x04120000 = some (.add 1 (.reg 2)) ∧ decodeTableWord 32 0 = none := by
  decide
theorem test_encode :
    encode (.add 1 (.reg 2)) = 0x04120000 ∧ encode (.add 1 (.imm (-1))) = 0x0411FFFF ∧
    encode (.ldr 3 4 (-2)) = 0x3434FFFE ∧ encode (.push 6) = 0x3C000006 ∧ encode (.int 3) = 0x70000003 ∧
    encode (.jmp (-1)) = 0x44FFFFFF ∧ encode (.call 8388607) = 0x687FFFFF ∧ encode .ret = 0x6C000000 := by decide

/-! ### V-ALU, V-LS -/

theorem test_add_overflow : alu 0x04120000 0x80000000 0x80000000 0 0x10 0x1B = true := by decide
theorem test_add_signed : alu 0x04100003 0x7FFFFFFF 0 0x80000000 0x10 0x1C = true := by decide
theorem test_sub_borrow : alu 0x08100003 0 0 0xFFFFFFFF 0x10 0x16 = true := by decide
theorem test_sub_overflow : alu 0x0811FFFF 0x7FFFFFFF 0 0x80000000 0x10 0x1E = true := by decide
theorem test_mul_low : alu 0x0C100021 0x12345678 0 0x23456780 0x10 0x10 = true := by decide
theorem test_mul_keeps_cv : alu 0x0C11FFFF 0xFFFFFFFF 0 1 0x1F 0x1A = true := by decide
theorem test_div_truncates : alu 0x10100005 0xFFFFFFF9 0 0xFFFFFFFD 0x10 0x14 = true := by decide
theorem test_div_most_negative : alu 0x1011FFFF 0x80000000 0 0x80000000 0x10 0x14 = true := by decide
theorem test_mod_sign_of_dividend : alu 0x14100005 0xFFFFFFF9 0 0xFFFFFFFF 0x10 0x14 = true := by decide
theorem test_mod_by_zero :
    after ((code 0 0x14100001).setReg 1 5)
      (fun t => haltedWith ⟨.divisionByZero, 0, some 0x05, none⟩ t && t.getReg 1 == 5 && t.cycle == 1) = true := by decide
theorem test_and_keeps_cv : alu 0x18120000 0xF0F0 0x0FF0 0xF0 0x1F 0x1A = true := by decide
theorem test_or : alu 0x1C120000 0x80000000 1 0x80000001 0x10 0x14 = true := by decide
theorem test_xor : alu 0x2011FFFF 0x0F0F0F0F 0 0xF0F0F0F0 0x10 0x14 = true := by decide
theorem test_shl_by_33 : alu 0x24120000 3 33 0 0x10 0x11 = true := by decide
theorem test_shl_by_4 : alu 0x24100009 0x12345678 0 0x23456780 0x10 0x10 = true := by decide
theorem test_shr_no_sign : alu 0x28100009 0x80000000 0 0x08000000 0x10 0x10 = true := by decide
theorem test_shr_by_32 : alu 0x28100041 0xFFFFFFFF 0 0 0x10 0x11 = true := by decide
theorem test_cmp : alu 0x2C100003 0x80000000 0 0x80000000 0x10 0x18 = true := by decide
theorem test_mov_keeps_flags : alu 0x30110001 5 0 0xFFFF8000 0x1F 0x1F = true := by decide
theorem test_ldr_base_before_write :
    after (poke 0x301 9 ((code 0 0x34550001).setReg 5 0x300)) (fun t => t.getReg 5 == 9 && t.flags.toByte == 0x10) = true := by
  decide
theorem test_ldr_out_of_bounds :
    after (code 0 0x3410FFFF) (haltedWith ⟨.memoryOutOfBounds, 0, some 0x0D, some (.word 0xFFFFFFFF)⟩) = true := by decide
theorem test_str_out_of_bounds :
    after ((code 0 0x38120001).setReg 1 7 |>.setReg 2 0xFFFF)
      (haltedWith ⟨.memoryOutOfBounds, 0, some 0x0E, some (.word 0x10000)⟩) = true := by decide
theorem test_str_framebuffer :
    after (poke 0x8006 3 (((State.resetWith { Config.default with fbBase := 0x8000, fbWidth := 4, fbHeight := 2 }
        [(0, 0x38120005)] none).setReg 1 7).setReg 2 0x8000))
      (fun t => t.ramWord 0x8005 == 7 && t.fbEvents == [[0, 7, 3, 0]]) = true := by decide

/-! ### V-STK, V-BR, V-SYS, the timer -/

theorem test_push_order :
    after ((code 0x40 0x3C000006).setReg 1 0xA |>.setReg 2 0xB)
      (fun t => t.ramWord 0xFFFF == 0xA && t.ramWord 0xFFFE == 0xB && t.sp == 0xFFFE) = true := by decide
theorem test_push_all_or_nothing :
    after ((code 0x40 0x3C000007).setSp 2 |>.setReg 0 1)
      (fun t => haltedWith ⟨.stackOverflow, 0x40, some 0x0F, some (.word 2)⟩ t && t.sp == 2 && t.ramWord 1 == 0) = true := by
  decide
theorem test_pop_order :
    after (poke 0xFFFE 0x11 (poke 0xFFFF 0x22 ((code 0x40 0x40008001).setSp 0xFFFE)))
      (fun t => t.getReg 15 == 0x11 && t.getReg 0 == 0x22 && t.sp == 0x10000) = true := by decide
theorem test_pop_all_or_nothing :
    after (poke 0xFFFF 5 ((code 0x40 0x40000003).setSp 0xFFFF |>.setReg 0 9 |>.setReg 1 9))
      (fun t => haltedWith ⟨.stackUnderflow, 0x40, some 0x10, some (.word 0xFFFF)⟩ t && t.getReg 0 == 9 &&
        t.getReg 1 == 9 && t.sp == 0xFFFF) = true := by decide
theorem test_jmp_backward : after (code 3 0x44FFFFFF) (fun t => t.pc == 3) = true := by decide
theorem test_jmp_wraps : after (code 0 0x44800000) (fun t => t.pc == 0xFF800001) = true := by decide
theorem test_beq : branchRow 0x48000005 = (List.range 16).map (fun k => k % 2 == 1) := by decide
theorem test_bne : branchRow 0x4C000005 = (List.range 16).map (fun k => k % 2 == 0) := by decide
theorem test_blt : branchRow 0x50000005 = (List.range 16).map (fun k => 4 ≤ k && k < 12) := by decide
theorem test_bge : branchRow 0x54000005 = (List.range 16).map (fun k => k < 4 || 12 ≤ k) := by decide
theorem test_bgt : branchRow 0x58000005 = (List.range 16).map (fun k => k == 0 || k == 2 || k == 12 || k == 14) := by decide
theorem test_ble :
    branchRow 0x5C000005 = (List.range 16).map (fun k => !(k == 0 || k == 2 || k == 12 || k == 14)) := by decide
theorem test_bcs : branchRow 0x60000005 = (List.range 16).map (fun k => k % 4 == 2 || k % 4 == 3) := by decide
theorem test_bcc : branchRow 0x64000005 = (List.range 16).map (fun k => k % 4 == 0 || k % 4 == 1) := by decide
theorem test_call : after (code 1 0x68000003) (fun t => t.ramWord 0xFFFF == 2 && t.sp == 0xFFFF && t.pc == 5) = true := by
  decide
theorem test_call_overflow :
    after ((code 1 0x68000003).setSp 0) (haltedWith ⟨.stackOverflow, 1, some 0x1A, some (.word 0)⟩) = true := by decide
theorem test_ret : after (poke 0xFFFF 2 ((code 0 0x6C000000).setSp 0xFFFF)) (fun t => t.pc == 2 && t.sp == 0x10000) = true := by
  decide
theorem test_ret_underflow :
    after (code 0 0x6C000000) (haltedWith ⟨.stackUnderflow, 0, some 0x1B, some (.word 0x10000)⟩) = true := by decide
theorem test_int_traps :
    after (poke 0x106 0x40 ((code 9 0x70000003).setFlags (flagsOf 0x1F)))
      (fun t => t.ramWord 0xFFFF == 0x11F && t.ramWord 0xFFFE == 10 && t.sp == 0xFFFE && t.flags.toByte == 0x0F &&
        t.mode == .bios && t.pc == 0x40) = true := by decide
theorem test_int_handoff :
    after (((code 9 0x70000063).setMode .bios).setFlags (flagsOf 0x1F))
      (fun t => t.mode == .kernel && t.pc == 0 && t.sp == 0x10000 && t.flags.toByte == 0x1F && t.running) = true := by decide
theorem test_iret_keeps_ip :
    after (poke 0xFFFE 0x50 (poke 0xFFFF 0xFFFFFE1F ((((code 0 0x74000000).setSp 0xFFFE).setMode .bios).setFlags
        (flagsOf 0x20))))
      (fun t => t.pc == 0x50 && t.mode == .user && t.flags.toByte == 0x3F && t.sp == 0x10000) = true := by decide
theorem test_iret_mode_three :
    after (poke 0xFFFE 0x50 (poke 0xFFFF 0x300 ((code 0 0x74000000).setSp 0xFFFE)))
      (fun t => haltedWith ⟨.invalidStatusWord, 0, some 0x1D, some (.word 0x300)⟩ t && t.sp == 0xFFFE) = true := by decide
theorem test_hlt : after (code 3 0x78000000) (fun t => !t.running && t.pc == 4 && t.fault == none && t.cycle == 1) = true := by
  decide
theorem test_timer_dispatch :
    after (poke 0x100 4 ((code 3 0x44FFFFFF).setCycle 999))
      (fun t => t.cycle == 1000 && t.ramWord 0xFFFF == 0x110 && t.ramWord 0xFFFE == 3 && t.mode == .bios && t.pc == 4 &&
        t.flags.toByte == 0) = true := by decide
theorem test_timer_masked :
    after (((code 0 0x30100003).setCycle 999).setFlags (flagsOf 0))
      (fun t => t.cycle == 1000 && t.flags.toByte == 0x20 && t.getReg 1 == 1) = true := by decide
theorem test_timer_tick_survives_fault :
    after (((code 5 0x10100001).setCycle 999).setFlags (flagsOf 0))
      (fun t => haltedWith ⟨.divisionByZero, 5, some 0x04, none⟩ t && t.flags.toByte == 0x20 && t.cycle == 1000) = true := by
  decide
theorem test_dispatch_overflow :
    after (((code 7 0x78000000).setSp 1).setFlags (flagsOf 0x30))
      (fun t => haltedWith ⟨.stackOverflow, 7, none, some (.word 1)⟩ t && t.sp == 1 && t.flags.toByte == 0x30) = true := by
  decide
theorem test_fetch_past_ram :
    after (State.reset.setPc 0x10000) (haltedWith ⟨.memoryOutOfBounds, 0x10000, none, some (.word 0x10000)⟩) = true := by
  decide
theorem test_zero_memory_is_illegal :
    after State.reset (haltedWith ⟨.illegalOpcode, 0, some 0, some (.word 0)⟩) = true := by decide
theorem test_placed_word_runs :
    after (State.reset.withFetchWord 32 0x30100011) (fun t => t.getReg 1 == 8 && t.pc == 1 && t.running) = true := by decide

/-! ### Launch, host view, assembler -/

/-- Bytes of an image file. -/
def file : List Byte := [0x00, 0x00, 0x12, 0x04, 0x00, 0x00, 0x00, 0x78]

theorem test_image_words : imageWords file = some [0x04120000, 0x78000000] ∧ imageWords [1, 2, 3] = none := by decide
theorem test_read_memory :
    readMemory 0xFFFF 1 (code 0xFFFF 7) = some [7] ∧ readMemory 0xFFFF 2 (code 0xFFFF 7) = none := by decide
theorem test_assemble_scenario :
    words "LDI R1,#8 \n LDI R2,#4 \n ADD R1,R2 \n HLT" = some [0x30100011, 0x30200009, 0x04120000, 0x78000000] := by decide
theorem test_assemble_labels :
    words "JMP L\nHLT\nL:\nHLT" = some [0x44000001, 0x78000000, 0x78000000] ∧
    words "MOV R1, $L\nL:\nHLT" = some [0x30100003, 0x78000000] ∧ words "L:\nJMP L" = some [0x44FFFFFF] := by decide
theorem test_assemble_forms :
    words "  MOV R01, #0x7fff" = some [0x3010FFFF] ∧ words "ADD R1,,R2 ; x" = some [0x04120000] ∧
    words "POP R3, R1" = some [0x4000000A] ∧ words "svc #3" = some [0x70000003] := by decide
theorem test_assemble_errors :
    errorOf "ADD R99, #99999" = some (.invalidRegister, 1, "R99") ∧
    errorOf "LDI R1, R2" = some (.invalidImmediate, 1, "R2") ∧ errorOf "JMP nowhere" = some (.unknownLabel, 1, "nowhere") ∧
    errorOf "FOO R99\nL:\nL:" = some (.duplicateLabel, 3, "L") ∧
    errorOf "JMP #8388608" = some (.offsetOutOfRange, 1, "#8388608") ∧
    errorOf "FOO R1" = some (.unknownMnemonic, 1, "FOO") := by decide
/-- R117 and R123: the mask's own error comes before that of an operand after it. -/
theorem test_assemble_mask_errors :
    errorOf "PUSH #12a, R2" = some (.invalidImmediate, 1, "#12a") ∧
    errorOf "PUSH $nowhere, R2" = some (.unknownLabel, 1, "$nowhere") ∧
    errorOf "POP #0x10000, R2" = some (.invalidImmediate, 1, "#0x10000") ∧
    errorOf "POP #1, R99" = some (.syntaxError, 1, "R99") := by decide
theorem test_disassemble :
    disassembleWord 0x3C000006 = some "PUSH #0x0006".toList ∧ disassembleWord 0x3434FFFE = some "LDR R3, R4, #-2".toList ∧
    disassembleWord 0x6CFFFFFF = some "RET".toList ∧ disassembleWord 0 = none := by decide

/-! ### Witnesses: for each statement with hypotheses, states and operands that meet them, clause by clause -/

/-- The invariant as a computation. -/
def invCheck (s : State) : Bool :=
  s.cfg.valid && decide (s.sp.toNat ≤ s.cfg.ramWords) && decide (s.irqNum = 0) && decide (Mem.wf s.ram) &&
    decide (Mem.within s.ram s.cfg.ramWords) &&
    (match s.rom with
      | none => true
      | some m => decide (Mem.wf m) && decide (Mem.within m s.cfg.romWords)) &&
    (!s.running || s.fault.isNone) && s.fbEvents.all (fun row => row.length == s.cfg.fbWidth)

theorem inv_of_check {s : State} (h : invCheck s = true) : s.Inv := by
  simp only [invCheck, Bool.and_eq_true, decide_eq_true_eq] at h
  obtain ⟨⟨⟨⟨⟨⟨⟨h1, h2⟩, h3⟩, h4⟩, h5⟩, h6⟩, h7⟩, h8⟩ := h
  refine ⟨h1, h2, h3, h4, h5, fun m hm => ?_, fun hr => ?_, fun row hrow => ?_⟩
  · rw [hm] at h6
    simp only [Bool.and_eq_true, decide_eq_true_eq] at h6
    exact h6
  · cases hf : s.fault with
    | none => rfl
    | some r => simp [hr, hf] at h7
  · simpa using List.all_eq_true.1 h8 row hrow

/-- The smallest parameters R6 allows, with one framebuffer row at the top of RAM. -/
def small : Config := { ramWords := 0x120, romWords := 1, fbBase := 0x11C, fbWidth := 4, fbHeight := 1 }

/-- The hypotheses the stack and trap statements share: valid parameters, sp in range, canonical RAM. -/
def stackReady (s : State) : Bool := s.cfg.valid && decide (s.sp.toNat ≤ s.cfg.ramWords) && decide (Mem.wf s.ram)

/-- A machine with a ROM image, in BIOS mode. -/
def withRom : State := State.resetWith small [] (some [(0, 0x70000000)])

/-- IP and IE both set. -/
def pending (s : State) : State := s.setFlags (flagsOf 0x30)

/-- LaunchLeavesResetValues, without and with a BIOS image. -/
theorem witness_launch :
    (∃ s, launch small file none = .ok s) ∧ (∃ s, launch small [] (some [0, 0, 0, 0x70]) = .ok s) := ⟨⟨_, rfl⟩, ⟨_, rfl⟩⟩

/-- LaunchRefusesOnlyBadImages: valid parameters, and images at and beyond its two limits; witness_launch has launches
that are not refused. -/
theorem witness_launch_limits :
    small.valid = true ∧ (imageWords [1, 2, 3]).isNone = true ∧
    (∃ m, loadImage 2 file = .ok m) ∧ loadImage 1 file = .error .tooLarge ∧ loadImage 1 [1] = .error .badLength :=
  ⟨by decide, by decide, ⟨_, rfl⟩, rfl, rfl⟩

/-- StepKeepsInvariant: an instruction, the handoff, a dispatch, a halted machine. -/
theorem witness_step_keeps_invariant :
    (code 0 0x3C00FFFF).Inv ∧ (∃ t, step (code 0 0x3C00FFFF) = .next t) ∧
    withRom.Inv ∧ (∃ t, step withRom = .next t) ∧ (pending withRom).Inv ∧ (∃ t, step (pending withRom) = .next t) ∧
    ((code 0 0).setRunning false).Inv ∧ ∃ t, step ((code 0 0).setRunning false) = .next t :=
  ⟨inv_of_check (by decide), ⟨_, rfl⟩, inv_of_check (by decide), ⟨_, rfl⟩, inv_of_check (by decide), ⟨_, rfl⟩,
    inv_of_check (by decide), ⟨_, rfl⟩⟩

/-- StepAlwaysAnswers, at the lowest sp. -/
theorem witness_step_answers_at_sp_zero : ((code 0 0x3C00FFFF).setSp 0).Inv := inv_of_check (by decide)

/-- StepNeverWritesRom, with a ROM. -/
theorem witness_rom_kept : ∃ t, step withRom = .next t := ⟨_, rfl⟩

/-- HaltedStepChangesNothing. -/
theorem witness_halted : ((code 0 0x78000000).setRunning false).running = false := rfl

/-- StepRunsDecodedInstruction. -/
theorem witness_runs_decoded :
    (code 0 0x04120000).running = true ∧ interruptDue (tick (code 0 0x04120000)) = false ∧
    fetchRead (code 0 0x04120000).pc (code 0 0x04120000) = some 0x04120000 ∧
    decode 0x04120000 = .instr (.add 1 (.reg 2)) := by decide

/-- TickFollowsRule: the two clauses around a multiple of 1000. -/
theorem witness_tick_clauses :
    (((code 0 0).setCycle 999).cycle + 1).toNat % 1000 = 0 ∧ (((code 0 0).setCycle 998).cycle + 1).toNat % 1000 ≠ 0 ∧
    (((code 0 0).setCycle 1000).cycle + 1).toNat % 1000 ≠ 0 := by decide

/-- The hypotheses of the illegal-opcode statement, for a word at address 0. -/
def fetchesIllegal (w : Word) : Bool :=
  (code 0 w).running && !interruptDue (tick (code 0 w)) && fetchRead (code 0 w).pc (code 0 w) == some w &&
    (decide ((w.extractLsb' 26 6).toNat = 0) || decide (0x1F ≤ (w.extractLsb' 26 6).toNat))

/-- IllegalOpcodeHalts at the ends of the illegal opcodes; the two next to them are legal. -/
theorem witness_illegal :
    fetchesIllegal 0x00000000 = true ∧ fetchesIllegal 0x03FFFFFF = true ∧ fetchesIllegal 0x7C000000 = true ∧
    fetchesIllegal 0xFFFFFFFF = true ∧ fetchesIllegal 0x04000000 = false ∧ fetchesIllegal 0x7BFFFFFF = false := by decide

/-- FetchOutsideSpaceHalts at the last word and the first address beyond, for ROM and RAM. -/
theorem witness_fetch_ends :
    (interruptDue (tick (withRom.setPc 0)) = false ∧ withRom.mode = .bios ∧ (withRom.setPc 0).pc.toNat < small.romWords) ∧
    (interruptDue (tick (withRom.setPc 1)) = false ∧ small.romWords ≤ (withRom.setPc 1).pc.toNat) ∧
    (interruptDue (tick (code 0xFFFF 7)) = false ∧ (code 0xFFFF 7).pc.toNat < 0x10000 ∧ (code 0 7).mode ≠ .bios) ∧
    (interruptDue (tick (State.reset.setPc 0x10000)) = false ∧ 0x10000 ≤ (State.reset.setPc 0x10000).pc.toNat) := by decide

/-- DispatchEntersTrap: the smallest stack in KERNEL mode, and the tick of cycle 1000 in BIOS mode. -/
theorem witness_dispatch :
    (pending ((code 7 0).setSp 2)).Inv ∧ interruptDue (tick (pending ((code 7 0).setSp 2))) = true ∧
    2 ≤ (pending ((code 7 0).setSp 2)).sp.toNat ∧
    (withRom.setCycle 999).Inv ∧ interruptDue (tick (withRom.setCycle 999)) = true ∧ 2 ≤ (withRom.setCycle 999).sp.toNat :=
  ⟨inv_of_check (by decide), by decide, by decide, inv_of_check (by decide), by decide, by decide⟩

/-- DispatchOverflowHalts at sp 1 and 0. -/
theorem witness_dispatch_overflow :
    (pending ((code 7 0).setSp 1)).Inv ∧ interruptDue (tick (pending ((code 7 0).setSp 1))) = true ∧
    (pending ((code 7 0).setSp 1)).sp.toNat < 2 ∧ (pending ((code 7 0).setSp 0)).Inv ∧
    interruptDue (tick (pending ((code 7 0).setSp 0))) = true ∧ (pending ((code 7 0).setSp 0)).sp.toNat < 2 :=
  ⟨inv_of_check (by decide), by decide, by decide, inv_of_check (by decide), by decide, by decide⟩

/-- OnlyHltEndsNormally. -/
theorem witness_ends_normally :
    ∃ t, (code 0 0x78000000).running = true ∧ step (code 0 0x78000000) = .next t ∧ t.running = false ∧ t.fault = none :=
  ⟨_, rfl, rfl, rfl, rfl⟩

/-- ModeChangesByTableOnly: the four ways the mode changes: dispatch, handoff, trap, return. -/
theorem witness_mode_changes :
    (∃ t, (pending (code 0 0)).Inv ∧ step (pending (code 0 0)) = .next t ∧ t.mode ≠ (pending (code 0 0)).mode) ∧
    (∃ t, withRom.Inv ∧ step withRom = .next t ∧ t.mode ≠ withRom.mode) ∧
    (∃ t, ((code 9 0x70000003).setSp 2).Inv ∧ step ((code 9 0x70000003).setSp 2) = .next t ∧ t.mode ≠ .kernel) ∧
    (∃ t, (poke 0xFFFF 0x200 ((code 0 0x74000000).setSp 0xFFFE)).Inv ∧
      step (poke 0xFFFF 0x200 ((code 0 0x74000000).setSp 0xFFFE)) = .next t ∧ t.mode ≠ .kernel) :=
  ⟨⟨_, inv_of_check (by decide), rfl, by decide⟩, ⟨_, inv_of_check (by decide), rfl, by decide⟩,
    ⟨_, inv_of_check (by decide), rfl, by decide⟩, ⟨_, inv_of_check (by decide), rfl, by decide⟩⟩

/-- RegistersWrittenOnlyByDestination. -/
theorem witness_register_frame :
    (∃ t, exec (.add 1 (.reg 2)) State.reset = .next t ∧ ¬ writesReg (.add 1 (.reg 2)) 2) ∧
    (∃ t, exec (.pop 0x8000) (State.reset.setSp 0xFFFF) = .next t ∧ ¬ writesReg (.pop 0x8000) 14) ∧
    (∃ t, exec (.cmp 0 (.imm 1)) State.reset = .next t ∧ ¬ writesReg (.cmp 0 (.imm 1)) 0) :=
  ⟨⟨_, rfl, by simp [writesReg]⟩, ⟨_, rfl, by simp only [writesReg]; decide⟩, ⟨_, rfl, by simp [writesReg]⟩⟩

/-- FlagsWrittenOnlyAsNamed, clause by clause. -/
theorem witness_flag_frame :
    (∃ t, exec (.mov 1 (.imm 0)) State.reset = .next t) ∧ ¬ writesZN (Instr.mov 1 (.imm 0)).op ∧
    (∃ t, exec (.mul 1 (.imm 0)) State.reset = .next t) ∧ ¬ writesCV (Instr.mul 1 (.imm 0)).op ∧
    (∃ t, exec (.sub 1 (.imm 1)) State.reset = .next t) ∧ ¬ writesIE (Instr.sub 1 (.imm 1)).op :=
  ⟨⟨_, rfl⟩, by simp [writesZN, Instr.op], ⟨_, rfl⟩, by simp [writesCV, Instr.op], ⟨_, rfl⟩, by simp [writesIE, Instr.op]⟩

/-- OtherStateWrittenOnlyAsNamed, clause by clause. -/
theorem witness_other_frame :
    (∃ t, exec (.str 1 2 0) State.reset = .next t) ∧ ¬ movesSp (Instr.str 1 2 0).op ∧
    (∃ t, exec (.pop 1) (State.reset.setSp 0xFFFF) = .next t) ∧ ¬ storesRam (Instr.pop 1).op ∧
    (∃ t, exec (.push 1) State.reset = .next t) ∧ (Instr.push 1).op ≠ .int ∧ (Instr.push 1).op ≠ .iret ∧
    (Instr.push 1).op ≠ .str :=
  ⟨⟨_, rfl⟩, by simp [movesSp, Instr.op], ⟨_, rfl⟩, by simp [storesRam, Instr.op], ⟨_, rfl⟩, by decide, by decide, by decide⟩

/-- FaultCommitsNothingElse and InstructionFaultKinds. -/
theorem witness_fault :
    ∃ t r, exec (.push 7) (State.reset.setSp 2) = .next t ∧ (State.reset.setSp 2).fault = none ∧ t.fault = some r ∧
      State.reset.cfg.valid = true :=
  ⟨_, _, rfl, rfl, rfl, by decide⟩

/-- InstructionsIgnoreMode, with a completed and a faulting IRET. -/
theorem witness_ignores_mode :
    (∃ t, exec (.push 1) State.reset = .next t) ∧ (Instr.push 1).op ≠ .int ∧ State.reset.fault = none ∧
    (∃ t, exec .iret (poke 0xFFFF 0x200 (State.reset.setSp 0xFFFE)) = .next t ∧ t.fault = none) ∧
    ∃ t, exec .iret State.reset = .next t ∧ t.fault ≠ none :=
  ⟨⟨_, rfl⟩, by decide, rfl, ⟨_, rfl, rfl⟩, ⟨_, rfl, by decide⟩⟩

/-- SecondOperandValue at both ends of the immediates. -/
theorem witness_immediates : (Src.imm (-32768)).wellFormed = true ∧ (Src.imm 32767).wellFormed = true := by decide

/-- OverflowFlagIsSignedOverflow: both ends of the signed range, for a sum and a difference. -/
theorem witness_overflow :
    (∃ t, exec (.add 1 (.imm 1)) (State.reset.setReg 1 0x7FFFFFFF) = .next t ∧ t.flags.v = true) ∧
    (∃ t, exec (.add 1 (.imm 1)) (State.reset.setReg 1 0x7FFFFFFE) = .next t ∧ t.flags.v = false) ∧
    (∃ t, exec (.sub 1 (.imm 1)) (State.reset.setReg 1 0x80000000) = .next t ∧ t.flags.v = true) ∧
    (∃ t, exec (.sub 1 (.imm 1)) (State.reset.setReg 1 0x80000001) = .next t ∧ t.flags.v = false) :=
  ⟨⟨_, rfl, by decide⟩, ⟨_, rfl, by decide⟩, ⟨_, rfl, by decide⟩, ⟨_, rfl, by decide⟩⟩

/-- DivFollowsRule and ModFollowsRule: divisor 0; -2^31 by -1; every other pair. -/
theorem witness_division :
    (State.reset.srcValue (.imm 0) = 0 ∧ State.reset.srcValue (.imm (-1)) ≠ 0) ∧
    ((State.reset.setReg 1 0x80000000).getReg 1).toInt = -2 ^ 31 ∧ (State.reset.srcValue (.imm (-1))).toInt = -1 ∧
    ¬ (((State.reset.setReg 1 0x80000001).getReg 1).toInt = -2 ^ 31 ∧ (State.reset.srcValue (.imm (-1))).toInt = -1) := by
  decide

/-- ModFollowsRule, its sign clauses: a positive and a negative remainder. -/
theorem witness_remainder_signs :
    (∃ t, exec (.mod 1 (.imm (-2))) (State.reset.setReg 1 7) = .next t ∧ 0 < (t.getReg 1).toInt) ∧
    (∃ t, exec (.mod 1 (.imm 2)) (State.reset.setReg 1 (-7)) = .next t ∧ (t.getReg 1).toInt < 0) :=
  ⟨⟨_, rfl, by decide⟩, ⟨_, rfl, by decide⟩⟩

/-- LdrFollowsRule and StrFollowsRule at the last RAM word and the first address beyond. -/
theorem witness_access_ends :
    ((State.reset.setReg 2 0xFFFF).effectiveAddress 2 0).toNat < State.reset.cfg.ramWords ∧
    State.reset.cfg.ramWords ≤ ((State.reset.setReg 2 0xFFFF).effectiveAddress 2 1).toNat ∧
    State.reset.cfg.valid = true ∧ Mem.wf State.reset.ram := by decide

/-- StrFollowsRule, its framebuffer clauses, at both ends of the window of `small` and just below it. -/
theorem witness_framebuffer_ends :
    small.valid = true ∧
    (∀ a ∈ [0x11C, 0x11F], (small.fbBase ≤ a ∧ a < small.fbBase + small.fbWidth * small.fbHeight) ∧ a < small.ramWords) ∧
    ¬ (small.fbBase ≤ 0x11B ∧ 0x11B < small.fbBase + small.fbWidth * small.fbHeight) := by decide

/-- StoreSeenByNextFetch. -/
theorem witness_store_then_fetch :
    Mem.wf State.reset.ram ∧ ((State.reset.setReg 2 5).effectiveAddress 2 0).toNat < State.reset.cfg.ramWords ∧
    State.reset.mode ≠ .bios ∧ ∃ t, exec (.str 1 2 0) (State.reset.setReg 2 5) = .next t :=
  ⟨by decide, by decide, by decide, ⟨_, rfl⟩⟩

/-- PushFollowsRule at sp one below and exactly at the number of registers, and for the empty mask at sp 0. -/
theorem witness_push_clauses :
    (stackReady (State.reset.setSp 2) = true ∧ (State.reset.setSp 2).sp.toNat < maskCount 7) ∧
    (stackReady (State.reset.setSp 3) = true ∧ maskCount 7 ≤ (State.reset.setSp 3).sp.toNat ∧ maskSelects 7 2 = true) ∧
    (stackReady (State.reset.setSp 0) = true ∧ maskCount 0 ≤ (State.reset.setSp 0).sp.toNat) := by decide

/-- PopFollowsRule at sp one above and exactly at the last place with enough words, and for the empty mask at RAM_WORDS. -/
theorem witness_pop_clauses :
    (stackReady (State.reset.setSp 0xFFFF) = true ∧ 0x10000 < (State.reset.setSp 0xFFFF).sp.toNat + maskCount 3) ∧
    (stackReady (State.reset.setSp 0xFFFE) = true ∧ (State.reset.setSp 0xFFFE).sp.toNat + maskCount 3 ≤ 0x10000 ∧
      maskSelects 3 1 = true ∧ maskSelects 3 2 = false) ∧
    State.reset.sp.toNat + maskCount 0 ≤ State.reset.cfg.ramWords := by decide

/-- PushThenPopRestores with all sixteen registers and exactly enough words. -/
theorem witness_push_pop :
    stackReady (State.reset.setSp 16) = true ∧ maskCount 0xFFFF ≤ (State.reset.setSp 16).sp.toNat ∧
    ∃ t, exec (.push 0xFFFF) (State.reset.setSp 16) = .next t :=
  ⟨by decide, by decide, ⟨_, rfl⟩⟩

/-- BranchAfterCmpDecidesRelation: equal, signed less but not unsigned less, and the reverse. -/
theorem witness_compare :
    (∃ t, exec (.cmp 1 (.imm 5)) (State.reset.setReg 1 5) = .next t) ∧
    (State.reset.setReg 1 5).getReg 1 = State.reset.srcValue (.imm 5) ∧
    ((State.reset.setReg 1 0xFFFFFFFF).getReg 1).toInt < (State.reset.srcValue (.imm 1)).toInt ∧
    (State.reset.srcValue (.imm 1)).toNat ≤ ((State.reset.setReg 1 0xFFFFFFFF).getReg 1).toNat ∧
    (State.reset.srcValue (.imm (-1))).toInt < ((State.reset.setReg 1 1).getReg 1).toInt ∧
    ((State.reset.setReg 1 1).getReg 1).toNat < (State.reset.srcValue (.imm (-1))).toNat :=
  ⟨⟨_, rfl⟩, by decide, by decide, by decide, by decide, by decide⟩

/-- ConditionalBranchesFollowTable: a branch condition holds in some state and fails in another. -/
theorem witness_branch_conditions :
    (flagsOf 0x01).z = true ∧ (flagsOf 0x00).z = false ∧ (flagsOf 0x04).n ≠ (flagsOf 0x04).v ∧
    (flagsOf 0x0C).n = (flagsOf 0x0C).v ∧ (flagsOf 0x02).c = true ∧ (flagsOf 0x00).c = false ∧
    ((flagsOf 0x0C).z = false ∧ (flagsOf 0x0C).n = (flagsOf 0x0C).v) ∧
    ((flagsOf 0x04).z = false ∧ (flagsOf 0x04).n ≠ (flagsOf 0x04).v) := by decide

/-- CallFollowsRule at sp 0 and 1, RetFollowsRule at RAM_WORDS and one below. -/
theorem witness_call_ret_clauses :
    (stackReady (State.reset.setSp 0) = true ∧ (State.reset.setSp 0).sp = 0) ∧
    (stackReady (State.reset.setSp 1) = true ∧ (State.reset.setSp 1).sp ≠ 0) ∧
    (State.reset.cfg.valid = true ∧ State.reset.cfg.ramWords ≤ State.reset.sp.toNat) ∧
    (State.reset.setSp 0xFFFF).sp.toNat < State.reset.cfg.ramWords := by decide

/-- IntFollowsRule: the handoff; the numbers 16 and -1; a frame that does not fit; the numbers 0 and 15 with a frame that
fits exactly. -/
theorem witness_int_clauses :
    (stackReady withRom = true ∧ withRom.mode = .bios) ∧
    (stackReady State.reset = true ∧ State.reset.mode ≠ .bios ∧ ¬ ((0 : Int) ≤ 16 ∧ (16 : Int) < 16) ∧
      ¬ ((0 : Int) ≤ -1 ∧ (-1 : Int) < 16)) ∧
    (stackReady (State.reset.setSp 1) = true ∧ (State.reset.setSp 1).mode ≠ .bios ∧ (State.reset.setSp 1).sp.toNat < 2) ∧
    (stackReady (State.reset.setSp 2) = true ∧ (State.reset.setSp 2).mode ≠ .bios ∧ 2 ≤ (State.reset.setSp 2).sp.toNat ∧
      ((0 : Int) ≤ 0 ∧ (0 : Int) < 16) ∧ ((0 : Int) ≤ 15 ∧ (15 : Int) < 16)) := by decide

/-- IretFollowsRule: one word on the stack; a mode field of 3; the other mode fields, with a frame that ends at RAM_WORDS. -/
theorem witness_iret_clauses :
    (stackReady (State.reset.setSp 0xFFFF) = true ∧ 0x10000 < (State.reset.setSp 0xFFFF).sp.toNat + 2) ∧
    (stackReady (poke 0xFFFF 0x300 (State.reset.setSp 0xFFFE)) = true ∧ (State.reset.setSp 0xFFFE).sp.toNat + 2 ≤ 0x10000 ∧
      ((poke 0xFFFF 0x300 (State.reset.setSp 0xFFFE)).ramWord (0xFFFE + 1)).extractLsb' 8 2 = 3) ∧
    (stackReady (poke 0xFFFF 0x2FF (State.reset.setSp 0xFFFE)) = true ∧
      ((poke 0xFFFF 0x2FF (State.reset.setSp 0xFFFE)).ramWord (0xFFFE + 1)).extractLsb' 8 2 ≠ 3) := by decide

/-- TrapThenIretResumes, with the state after the trap as the later state. -/
theorem witness_trap_return :
    stackReady (State.reset.setSp 2) = true ∧ (State.reset.setSp 2).mode ≠ .bios ∧ 2 ≤ (State.reset.setSp 2).sp.toNat ∧
    ∃ t u : State, exec (.int 3) (State.reset.setSp 2) = .next t ∧ u.cfg = t.cfg ∧ u.sp = t.sp ∧
      u.ramWord t.sp.toNat = t.ramWord t.sp.toNat ∧ u.ramWord (t.sp.toNat + 1) = t.ramWord (t.sp.toNat + 1) :=
  ⟨by decide, by decide, by decide, _, _, rfl, rfl, rfl, rfl, rfl⟩

/-- Every opcode of the map is the opcode field of some word. -/
theorem witness_opcodes :
    (List.range 30).all (fun k => (BitVec.ofNat 32 ((k + 1) * 2 ^ 26)).extractLsb' 26 6 == BitVec.ofNat 6 (k + 1)) = true := by
  decide

/-- HltFollowsRule. -/
theorem witness_hlt : State.reset.fault = none := rfl

/-- DecodeOfEncode and AssembleOfDisassembly. -/
theorem witness_decode_of_encode :
    (Instr.add 15 (.imm (-32768))).wellFormed = true ∧ (Instr.jmp 8388607).wellFormed = true ∧
    (Instr.pop 65535).wellFormed = true ∧ Instr.ret.wellFormed = true := by decide

/-- EncodeOfDecodeClearsIgnoredBits and DecodedInstructionWellFormed. -/
theorem witness_encode_of_decode : decode 0x0513FFFF = .instr (.add 1 (.imm (-1))) := by decide

/-- IgnoredBitsDoNotMatter: two words that differ in ignored bits only. -/
theorem witness_ignored_bits :
    (0x04120000#32).extractLsb' 26 6 = Op.add.opcode ∧ 0x0712FFFE#32 ≠ 0x04120000#32 ∧
    0x0712FFFE#32 &&& ~~~(ignoredBits .add 0x04120000#32) = 0x04120000#32 &&& ~~~(ignoredBits .add 0x04120000#32) := by
  decide

/-- AssembledWordsDecode. -/
theorem witness_assembled : ∃ ws, assemble "L:\nJMP L".toList = .ok ws ∧ 0x44FFFFFF#32 ∈ ws := ⟨_, rfl, by decide⟩

/-- LabelsCountInstructionLines: a label line between code lines, and one at the end of the text. -/
theorem witness_labels :
    ∃ tbl, pass1 1 0 [] (splitLines "HLT\n\nL:\nHLT\nM:".toList) = .ok tbl ∧
      (splitLines "HLT\n\nL:\nHLT\nM:".toList)[2]? = some "L:".toList ∧ classify "L:".toList = .label ['L'] [] ∧
      lookupLabel tbl ['L'] = some 1 ∧ (splitLines "HLT\n\nL:\nHLT\nM:".toList)[4]? = some "M:".toList ∧
      lookupLabel tbl ['M'] = some 2 :=
  ⟨_, rfl, by decide, by decide, by decide, by decide, by decide⟩

/-- A line with this mnemonic and the label L, in both spellings, at address 9 with L bound to 7. -/
def parsesToLabel (mnemonic : String) (i : Instr) : Prop :=
  parseInstr [(['L'], 7)] 9 [mnemonic.toList, ['$', 'L']] = .ok i ∧
  parseInstr [(['L'], 7)] 9 [mnemonic.toList, ['L']] = .ok i

/-- LabelBranchLandsOnLabel: every instruction of format M with a label; witness_branch_conditions and
witness_call_ret_clauses meet the conditions of its clauses. -/
theorem witness_label_branch :
    isLabelName ['L'] = true ∧ lookupLabel [(['L'], 7)] ['L'] = some 7 ∧
    (State.reset.setPc 10).pc = BitVec.ofNat 32 (9 + 1) ∧
    parsesToLabel "JMP" (.jmp (-3)) ∧ parsesToLabel "BEQ" (.beq (-3)) ∧ parsesToLabel "BNE" (.bne (-3)) ∧
    parsesToLabel "BLT" (.blt (-3)) ∧ parsesToLabel "BGE" (.bge (-3)) ∧ parsesToLabel "BGT" (.bgt (-3)) ∧
    parsesToLabel "BLE" (.ble (-3)) ∧ parsesToLabel "BCS" (.bcs (-3)) ∧ parsesToLabel "BCC" (.bcc (-3)) ∧
    parsesToLabel "CALL" (.call (-3)) :=
  ⟨by decide, by decide, by decide, ⟨rfl, rfl⟩, ⟨rfl, rfl⟩, ⟨rfl, rfl⟩, ⟨rfl, rfl⟩, ⟨rfl, rfl⟩, ⟨rfl, rfl⟩, ⟨rfl, rfl⟩,
    ⟨rfl, rfl⟩, ⟨rfl, rfl⟩, ⟨rfl, rfl⟩⟩

/-- DuplicateLabelsRefused. -/
theorem witness_duplicate_labels :
    (splitLines "L:\n L: ".toList)[0]? = some "L:".toList ∧ (splitLines "L:\n L: ".toList)[1]? = some " L: ".toList ∧
    classify "L:".toList = .label ['L'] [] ∧ classify " L: ".toList = .label ['L'] [] := by decide

/-- SecondSpellingsAssembleAlike: each second spelling parses, and LDI does not parse a register. -/
theorem witness_second_spellings :
    parseInstr [] 0 ["HALT".toList] = .ok .hlt ∧ parseInstr [] 0 ["SVC".toList, "#3".toList] = .ok (.int 3) ∧
    parseInstr [] 0 ["B".toList, "#-1".toList] = .ok (.jmp (-1)) ∧
    parseInstr [] 0 ["LDI".toList, "R1".toList, "#8".toList] = .ok (.mov 1 (.imm 8)) ∧
    parseInstr [] 0 ["MOV".toList, "R1".toList, "R2".toList] = .ok (.mov 1 (.reg 2)) :=
  ⟨rfl, rfl, rfl, rfl, rfl⟩

end Sys2Proof.Tests
end

/-! SUPPORT. The illegal opcodes: which words have one (30_encoding.md R81), and the halt their fetch leaves
(60_exceptions.md R232, R233). -/

namespace Sys2Proof

/-- The opcodes without an operation are 0x00 and those from 0x1F on (R81). -/
theorem lookupByOpcode_eq_none_iff (opc : BitVec 6) :
    lookupByOpcode opc = none ↔ opc.toNat = 0 ∨ 0x1F ≤ opc.toNat := by
  rw [← Option.not_isSome_iff_eq_none, lookupByOpcode_isSome]
  simp only [Bool.and_eq_true, decide_eq_true_eq]
  omega

/-- The decoder answers illegal for the words whose opcode has no operation, and names that opcode (R86). -/
theorem decode_eq_illegal_iff (w : Word) (opc : BitVec 6) :
    decode w = .illegal opc ↔ lookupByOpcode (opcodeField w) = none ∧ opc = opcodeField w := by
  cases hop : lookupByOpcode (opcodeField w) with
  | none => simp [decode, hop, eq_comm]
  | some op => simp [decode, hop]

end Sys2Proof

namespace Sys2Proof.Machine

/-- A fault taken at the pc of the state it halts writes nothing but `running` and the record (R232). -/
theorem haltWith_of_pc_eq {t : State} {r : FaultRecord} (h : r.pc = t.pc) :
    t.haltWith r = { t with running := false, fault := some r } := by
  unfold State.haltWith
  rw [h]
  rfl

/-- Fetching a word the decoder calls illegal halts with an IllegalOpcode whose address is the word (R81, R233). -/
theorem fetch_of_decode_illegal {s : State} {w : Word} {opc : BitVec 6}
    (hw : fetchRead s.pc s = some w) (hd : decode w = .illegal opc) :
    fetch s = .halted (s.haltWith ⟨.illegalOpcode, s.pc, some opc, some (.word w)⟩) := by
  simp [fetch, hw, hd]

/-- A running step with no interrupt due whose fetch halts answers the halted state (R240). -/
theorem step_of_fetch_halted {s t : State} (hr : s.running = true) (hi : interruptDue (tick s) = false)
    (hf : fetch (tick s) = .halted t) : step s = .next t := by
  simp [step, hr, hi, hf]

/-- Settles O11: the opcode table has no entry exactly for 0x00 and 0x1F to 0x3F, and the fetch of the step, made on
the ticked state at an unchanged pc, halts on such a word. -/
theorem illegalOpcodeHalts : Obligations.IllegalOpcodeHalts := by
  refine ⟨fun w => ?decodes, fun s w hr hi hw hopc => ?halts⟩
  case decodes =>
    calc (∃ opc, decode w = .illegal opc)
      _ ↔ lookupByOpcode (opcodeField w) = none := by simp [decode_eq_illegal_iff]
      _ ↔ _ := lookupByOpcode_eq_none_iff (opcodeField w)
  case halts =>
    obtain ⟨-, -, -, hpc, -⟩ := tick_frame s
    have hd : decode w = .illegal (opcodeField w) :=
      (decode_eq_illegal_iff w _).2 ⟨(lookupByOpcode_eq_none_iff _).2 hopc, rfl⟩
    have hfetch := fetch_of_decode_illegal (s := tick s) (by rw [hpc, fetchRead_tick, hw]) hd
    rw [hpc] at hfetch
    rw [step_of_fetch_halted hr hi hfetch, haltWith_of_pc_eq]
    · rfl
    · exact hpc.symm

end Sys2Proof.Machine

/-! SUPPORT. What the format RI instructions share: their decoding, one equation per instruction for its meaning, and
what writing an alu result changes and leaves unchanged (30_encoding.md R74, R86; 40_alu.md R140, R141). -/

namespace Sys2Proof

/-- A word whose opcode field holds an operation's opcode decodes to that operation (R86). -/
theorem decode_of_opcodeField {w : Word} {op : Op} (h : opcodeField w = op.opcode) :
    decode w = .instr (decodeOperands op w) := by
  simp [decode, h]

end Sys2Proof

namespace Sys2Proof.Machine

/-- An operation whose operands are those of format RI is decoded as that format says (R74). -/
theorem decodedRI_of_decodeOperands (op : Op) {make : Reg → Src → Instr}
    (h : ∀ w, decodeOperands op w = make (rdField w) (srcField w)) : DecodedRI op.opcode make := by
  intro w hw
  rw [decode_of_opcodeField hw, h]
  rfl

/-! ### Writing an alu result -/

@[simp] theorem getReg_writeAlu (rd : Reg) (o : AluOut) (s : State) : (writeAlu rd o s).getReg rd = o.result := by
  simp [writeAlu]

@[simp] theorem flags_writeAlu (rd : Reg) (o : AluOut) (s : State) : (writeAlu rd o s).flags = o.flags := rfl

/-- An alu result is written to its destination and to no other register (10_state.md R21). -/
theorem otherRegsSame_writeAlu (rd : Reg) (o : AluOut) (s : State) : OtherRegsSame rd s (writeAlu rd o s) := by
  intro r hr
  simp [writeAlu, hr]

/-- Only general registers and flags are written. -/
theorem sameButRegsFlags_writeAlu (rd : Reg) (o : AluOut) (s : State) : SameButRegsFlags s (writeAlu rd o s) :=
  ⟨⟨rfl, rfl, rfl, rfl, rfl, rfl⟩, rfl, rfl, rfl, fun _ => rfl, rfl⟩

/-- Only the flags are written. -/
theorem sameButRegsFlags_setFlags (s : State) (f : Flags) : SameButRegsFlags s (s.setFlags f) :=
  ⟨⟨rfl, rfl, rfl, rfl, rfl, rfl⟩, rfl, rfl, rfl, fun _ => rfl, rfl⟩

/-! ### The flags of an alu result -/

@[simp] theorem result_aluZN (r : Word) (f : Flags) : (aluZN r f).result = r := rfl

/-- Z and N of a result; N is its bit 31 (R141). -/
theorem flags_aluZN (r : Word) (f : Flags) :
    (aluZN r f).flags = { f with z := decide (r = 0), n := r.getLsbD 31 } := rfl

/-- The four flags of a sum, with the sign bits as bits 31 (R141, R142). -/
theorem flags_aluAdd (a b : Word) (f : Flags) :
    (aluAdd a b f).flags = { f with
      z := decide (a + b = 0)
      n := (a + b).getLsbD 31
      c := decide (2 ^ 32 ≤ a.toNat + b.toNat)
      v := a.getLsbD 31 == b.getLsbD 31 && (a + b).getLsbD 31 != a.getLsbD 31 } := rfl

/-- The four flags of a difference, with the sign bits as bits 31 (R141, R143). -/
theorem flags_aluSub (a b : Word) (f : Flags) :
    (aluSub a b f).flags = { f with
      z := decide (a - b = 0)
      n := (a - b).getLsbD 31
      c := decide (a.toNat < b.toNat)
      v := a.getLsbD 31 != b.getLsbD 31 && (a - b).getLsbD 31 != a.getLsbD 31 } := rfl

/-! ### The meaning of each instruction -/

theorem exec_add (rd : Reg) (src : Src) (s : State) :
    exec (.add rd src) s = .next (writeAlu rd (aluAdd (s.getReg rd) (s.srcValue src) s.flags) s) := rfl

theorem exec_sub (rd : Reg) (src : Src) (s : State) :
    exec (.sub rd src) s = .next (writeAlu rd (aluSub (s.getReg rd) (s.srcValue src) s.flags) s) := rfl

theorem exec_mul (rd : Reg) (src : Src) (s : State) :
    exec (.mul rd src) s = .next (writeAlu rd (aluMul (s.getReg rd) (s.srcValue src) s.flags) s) := rfl

theorem exec_and (rd : Reg) (src : Src) (s : State) :
    exec (.and rd src) s = .next (writeAlu rd (aluAnd (s.getReg rd) (s.srcValue src) s.flags) s) := rfl

theorem exec_or (rd : Reg) (src : Src) (s : State) :
    exec (.or rd src) s = .next (writeAlu rd (aluOr (s.getReg rd) (s.srcValue src) s.flags) s) := rfl

theorem exec_xor (rd : Reg) (src : Src) (s : State) :
    exec (.xor rd src) s = .next (writeAlu rd (aluXor (s.getReg rd) (s.srcValue src) s.flags) s) := rfl

theorem exec_shl (rd : Reg) (src : Src) (s : State) :
    exec (.shl rd src) s = .next (writeAlu rd (aluShl (s.getReg rd) (s.srcValue src) s.flags) s) := rfl

theorem exec_shr (rd : Reg) (src : Src) (s : State) :
    exec (.shr rd src) s = .next (writeAlu rd (aluShr (s.getReg rd) (s.srcValue src) s.flags) s) := rfl

theorem exec_cmp (rd : Reg) (src : Src) (s : State) :
    exec (.cmp rd src) s = .next (s.setFlags (aluSub (s.getReg rd) (s.srcValue src) s.flags).flags) := rfl

theorem exec_div (rd : Reg) (src : Src) (s : State) :
    exec (.div rd src) s = complete .div s (runDivision aluDiv rd src s) := rfl

theorem exec_mod (rd : Reg) (src : Src) (s : State) :
    exec (.mod rd src) s = complete .mod s (runDivision aluMod rd src s) := rfl

/-- A division that gives nothing halts with DivisionByZero (R145, R146). -/
theorem complete_runDivision_none {op : Op} {f : Word → Word → Flags → Option AluOut} {rd : Reg} {src : Src}
    {s : State} (h : f (s.getReg rd) (s.srcValue src) s.flags = none) :
    complete op s (runDivision f rd src s) = .next (faultedAt s .divisionByZero op.opcode none) := by
  simp [runDivision, h]

/-- A division that gives a result writes it (R145, R146). -/
theorem complete_runDivision_some {op : Op} {f : Word → Word → Flags → Option AluOut} {rd : Reg} {src : Src}
    {s : State} {o : AluOut} (h : f (s.getReg rd) (s.srcValue src) s.flags = some o) :
    complete op s (runDivision f rd src s) = .next (writeAlu rd o s) := by
  simp [runDivision, h]

/-- All an instruction that writes a result and its Z and N does, whatever the result (10_state.md R21, R25). -/
theorem completes_of_aluZN {i : Instr} {rd : Reg} {r : Word} {s : State}
    (h : exec i s = .next (writeAlu rd (aluZN r s.flags) s)) :
    ∃ t, exec i s = .next t ∧ t.getReg rd = r ∧
      t.flags = { s.flags with z := decide (t.getReg rd = 0), n := (t.getReg rd).getLsbD 31 } ∧
      OtherRegsSame rd s t ∧ SameButRegsFlags s t :=
  ⟨_, h, getReg_writeAlu .., by rw [getReg_writeAlu, flags_writeAlu, flags_aluZN, result_aluZN],
    otherRegsSame_writeAlu _ _ _, sameButRegsFlags_writeAlu _ _ _⟩

end Sys2Proof.Machine

/-! SUPPORT. The arithmetic of the alu on 32-bit words: the difference and the shifts as numbers,
quotient and remainder as signed integers, and the order the flags of a difference decide (40_alu.md R143 to R152). -/

namespace Sys2Proof

/-- The word difference is the integer difference modulo 2^32 (R143). -/
theorem toNat_sub_eq_emod (a b : Word) : ((a - b).toNat : Int) = (a.toNat - b.toNat : Int) % 2 ^ 32 := by
  have hb := b.isLt
  rw [BitVec.toNat_sub]
  omega

/-- A left shift by n multiplies by 2^n modulo 2^32; an amount of 32 or more gives 0 (R150). -/
theorem toNat_shiftLeft_or_zero (a b : Word) :
    (if 32 ≤ b.toNat then 0 else a <<< b.toNat).toNat =
      if 32 ≤ b.toNat then 0 else a.toNat * 2 ^ b.toNat % 2 ^ 32 := by
  split
  · rfl
  · rw [BitVec.toNat_shiftLeft, Nat.shiftLeft_eq]

/-- A logical right shift by n divides by 2^n; an amount of 32 or more gives 0 (R151). -/
theorem toNat_ushiftRight_or_zero (a b : Word) :
    (if 32 ≤ b.toNat then 0 else a >>> b.toNat).toNat =
      if 32 ≤ b.toNat then 0 else a.toNat / 2 ^ b.toNat := by
  split
  · rfl
  · rw [BitVec.toNat_ushiftRight, Nat.shiftRight_eq_div_pow]

/-- Narrowing the truncated quotient loses nothing but for -2^31 / -1, the one quotient out of range (R145). -/
theorem toInt_ofInt_tdiv {a b : Word} (h : ¬ (a.toInt = -2 ^ 31 ∧ b.toInt = -1)) :
    (BitVec.ofInt 32 (a.toInt.tdiv b.toInt)).toInt = a.toInt.tdiv b.toInt := by
  have hne : a ≠ BitVec.intMin 32 ∨ b ≠ -1#32 := by
    by_contra hc
    rw [not_or, not_not, not_not] at hc
    obtain ⟨rfl, rfl⟩ := hc
    exact h (by decide)
  rw [← BitVec.toInt_sdiv_of_ne_or_ne a b hne, BitVec.ofInt_toInt]

/-- The quotient minus its whole part is the remainder of truncated division (R146). -/
theorem sub_tdiv_mul_eq_tmod (x y : Int) : x - x.tdiv y * y = x.tmod y := by
  rw [Int.tmod_def, Int.mul_comm]

/-- Narrowing the signed remainder loses nothing: it is never out of range (R146). -/
theorem toInt_ofInt_tmod (a b : Word) :
    (BitVec.ofInt 32 (a.toInt.tmod b.toInt)).toInt = a.toInt.tmod b.toInt := by
  rw [← BitVec.toInt_srem, BitVec.ofInt_toInt]

/-- A positive remainder of truncated division has a positive dividend (R146). -/
theorem pos_of_tmod_pos {x y : Int} (h : 0 < x.tmod y) : 0 < x := by
  by_contra hx
  have hneg : 0 ≤ (-x).tmod y := Int.tmod_nonneg y (by omega)
  rw [Int.neg_tmod] at hneg
  omega

/-- A negative remainder of truncated division has a negative dividend (R146). -/
theorem neg_of_tmod_neg {x y : Int} (h : x.tmod y < 0) : x < 0 := by
  by_contra hx
  exact absurd (Int.tmod_nonneg y (not_lt.1 hx)) (not_le.2 h)

/-- Bit 31 is the sign of the word as a signed number. -/
theorem getLsbD_31_iff_toInt_neg (a : Word) : a.getLsbD 31 = true ↔ a.toInt < 0 := by
  rw [← BitVec.msb_eq_getLsbD_last (w := 32), BitVec.msb_eq_toInt, decide_eq_true_iff]

/-- Words of one sign: their exact signed difference is in range, so the word difference is it. -/
theorem toInt_sub_of_sign_eq {a b : Word} (h : a.getLsbD 31 = b.getLsbD 31) :
    (a - b).toInt = a.toInt - b.toInt := by
  have hsign : a.toInt < 0 ↔ b.toInt < 0 := by
    rw [← getLsbD_31_iff_toInt_neg, ← getLsbD_31_iff_toInt_neg, h]
  have ha := a.isLt
  have hb := b.isLt
  rw [BitVec.toInt_sub, Int.bmod_eq_of_le] <;> simp only [BitVec.toInt_eq_toNat_cond] at hsign ⊢ <;> omega

/-- N differs from V after a subtraction exactly when the first operand is less as a signed number: for operands of one
sign V is clear and N is the sign of the difference; for operands of two signs N != V says that the first is the
negative one (R152). -/
theorem sub_negative_ne_overflow_iff_lt (a b : Word) :
    (a - b).getLsbD 31 ≠ (a.getLsbD 31 != b.getLsbD 31 && (a - b).getLsbD 31 != a.getLsbD 31) ↔
      a.toInt < b.toInt := by
  by_cases h : a.getLsbD 31 = b.getLsbD 31
  case pos =>
    calc (a - b).getLsbD 31 ≠ (a.getLsbD 31 != b.getLsbD 31 && (a - b).getLsbD 31 != a.getLsbD 31)
      _ ↔ (a - b).getLsbD 31 = true := by rw [h, bne_self_eq_false, Bool.false_and, Bool.ne_false_iff]
      _ ↔ a.toInt - b.toInt < 0 := by rw [getLsbD_31_iff_toInt_neg, toInt_sub_of_sign_eq h]
      _ ↔ a.toInt < b.toInt := sub_neg
  case neg =>
    have hsign : ¬ (a.toInt < 0 ↔ b.toInt < 0) := by
      rwa [← getLsbD_31_iff_toInt_neg, ← getLsbD_31_iff_toInt_neg, ← Bool.eq_iff_iff]
    calc (a - b).getLsbD 31 ≠ (a.getLsbD 31 != b.getLsbD 31 && (a - b).getLsbD 31 != a.getLsbD 31)
      _ ↔ a.getLsbD 31 = true := by
        rw [bne_iff_ne.2 h, Bool.true_and]
        cases (a - b).getLsbD 31 <;> simp
      _ ↔ a.toInt < 0 := getLsbD_31_iff_toInt_neg a
      _ ↔ a.toInt < b.toInt := by omega

end Sys2Proof

/-! The arithmetic and logic instructions (40_alu.md R142 to R152). -/

namespace Sys2Proof.Machine

/-- Settles O24, from the equation of ADD and the flags of a sum. -/
theorem addFollowsRule : Obligations.AddFollowsRule := by
  refine ⟨decodedRI_of_decodeOperands .add fun _ => rfl, fun rd src s => ⟨_, exec_add rd src s, ?sum, ?flags,
    otherRegsSame_writeAlu _ _ _, sameButRegsFlags_writeAlu _ _ _⟩⟩
  case sum =>
    rw [getReg_writeAlu]
    exact BitVec.toNat_add _ _
  case flags =>
    rw [getReg_writeAlu, flags_writeAlu]
    exact flags_aluAdd _ _ _

/-- Settles O25, from the equation of SUB and the flags of a difference. -/
theorem subFollowsRule : Obligations.SubFollowsRule := by
  refine ⟨decodedRI_of_decodeOperands .sub fun _ => rfl, fun rd src s => ⟨_, exec_sub rd src s, ?difference, ?flags,
    otherRegsSame_writeAlu _ _ _, sameButRegsFlags_writeAlu _ _ _⟩⟩
  case difference =>
    rw [getReg_writeAlu]
    exact toNat_sub_eq_emod _ _
  case flags =>
    rw [getReg_writeAlu, flags_writeAlu]
    exact flags_aluSub _ _ _

/-- Settles O27: the result MUL narrows is the product of the operands as natural numbers. -/
theorem mulFollowsRule : Obligations.MulFollowsRule := by
  refine ⟨decodedRI_of_decodeOperands .mul fun _ => rfl, fun rd src s => ?_⟩
  obtain ⟨t, ht, hr, hframe⟩ := completes_of_aluZN (exec_mul rd src s)
  exact ⟨t, ht, by rw [hr, BitVec.toNat_ofNat], hframe⟩

/-- Settles O28: the quotient fits a word but for -2^31 by -1, where narrowing it gives 0x80000000. -/
theorem divFollowsRule : Obligations.DivFollowsRule := by
  refine ⟨decodedRI_of_decodeOperands .div fun _ => rfl, fun rd src s => ⟨fun hb => ?zero, fun hb => ?nonzero⟩⟩
  case zero => exact (exec_div rd src s).trans (complete_runDivision_none (if_pos hb))
  case nonzero =>
    obtain ⟨t, ht, hr, hframe⟩ :=
      completes_of_aluZN ((exec_div rd src s).trans (complete_runDivision_some (if_neg hb)))
    refine ⟨t, ht, fun hspecial => ?special, fun hother => ?other, hframe⟩
    case special =>
      obtain ⟨hdividend, hdivisor⟩ := hspecial
      rw [hr, hdividend, hdivisor]
      decide
    case other => rw [hr, toInt_ofInt_tdiv hother]

/-- Settles O29: the result is the remainder of truncated division, whose magnitude is that of the natural remainder and
whose sign is that of the dividend. -/
theorem modFollowsRule : Obligations.ModFollowsRule := by
  refine ⟨decodedRI_of_decodeOperands .mod fun _ => rfl, fun rd src s => ⟨fun hb => ?zero, fun hb => ?nonzero⟩⟩
  case zero => exact (exec_mod rd src s).trans (complete_runDivision_none (if_pos hb))
  case nonzero =>
    obtain ⟨t, ht, hr, hframe⟩ :=
      completes_of_aluZN ((exec_mod rd src s).trans (complete_runDivision_some (if_neg hb)))
    have hrem : (t.getReg rd).toInt = (s.getReg rd).toInt.tmod (s.srcValue src).toInt := by
      rw [hr, sub_tdiv_mul_eq_tmod, toInt_ofInt_tmod]
    refine ⟨t, ht, ?identity, ?bound, fun hpos => ?positive, fun hneg => ?negative, hframe⟩
    case identity => rw [hrem, sub_tdiv_mul_eq_tmod]
    case bound =>
      have hdivisor : 0 < (s.srcValue src).toInt.natAbs :=
        Int.natAbs_pos.2 fun h => hb (BitVec.toInt_inj.1 h)
      rw [hrem, Int.natAbs_tmod]
      exact Nat.mod_lt _ hdivisor
    case positive =>
      rw [hrem] at hpos
      exact pos_of_tmod_pos hpos
    case negative =>
      rw [hrem] at hneg
      exact neg_of_tmod_neg hneg

/-- Settles O30: each result is the bitwise operation, read one bit at a time. -/
theorem logicFollowsRules : Obligations.LogicFollowsRules := by
  refine ⟨decodedRI_of_decodeOperands .and fun _ => rfl, decodedRI_of_decodeOperands .or fun _ => rfl,
    decodedRI_of_decodeOperands .xor fun _ => rfl, fun rd src s => ⟨?and, ?or, ?xor⟩⟩
  case and =>
    obtain ⟨t, ht, hr, hframe⟩ := completes_of_aluZN (exec_and rd src s)
    exact ⟨t, ht, fun k _ => by rw [hr, BitVec.getLsbD_and], hframe⟩
  case or =>
    obtain ⟨t, ht, hr, hframe⟩ := completes_of_aluZN (exec_or rd src s)
    exact ⟨t, ht, fun k _ => by rw [hr, BitVec.getLsbD_or], hframe⟩
  case xor =>
    obtain ⟨t, ht, hr, hframe⟩ := completes_of_aluZN (exec_xor rd src s)
    exact ⟨t, ht, fun k _ => by rw [hr, BitVec.getLsbD_xor, Bool.bne_eq_xor], hframe⟩

/-- Settles O31: below 32 a shift by n multiplies or divides by 2^n; from 32 on the result is 0. -/
theorem shiftsFollowRules : Obligations.ShiftsFollowRules := by
  refine ⟨decodedRI_of_decodeOperands .shl fun _ => rfl, decodedRI_of_decodeOperands .shr fun _ => rfl,
    fun rd src s => ⟨?shl, ?shr⟩⟩
  case shl =>
    obtain ⟨t, ht, hr, hframe⟩ := completes_of_aluZN (exec_shl rd src s)
    exact ⟨t, ht, by rw [hr, toNat_shiftLeft_or_zero], hframe⟩
  case shr =>
    obtain ⟨t, ht, hr, hframe⟩ := completes_of_aluZN (exec_shr rd src s)
    exact ⟨t, ht, by rw [hr, toNat_ushiftRight_or_zero], hframe⟩

/-- Settles O32: CMP writes the flags of the difference, and these decide equality and both orders. -/
theorem cmpFollowsRule : Obligations.CmpFollowsRule := by
  refine ⟨decodedRI_of_decodeOperands .cmp fun _ => rfl, fun rd src s => ⟨_, exec_cmp rd src s, ?_⟩⟩
  rw [State.flags_setFlags, flags_aluSub]
  refine ⟨rfl, ?equal, ?signedLess, ?unsignedLess, fun _ => rfl, sameButRegsFlags_setFlags _ _⟩
  case equal => rw [decide_eq_true_iff, sub_eq_zero]
  case signedLess => exact sub_negative_ne_overflow_iff_lt _ _
  case unsignedLess => exact decide_eq_true_iff

end Sys2Proof.Machine

/-! SUPPORT. What LDR and STR share: the decoding of format I, the effective address as a number, one equation per
outcome of each instruction, and the events of a store (30_encoding.md R73; 41_load_store.md R170 to R172; 20_memory.md R60). -/

namespace Sys2Proof.Machine

/-- An operation whose operands are those of format I is decoded as that format says (R73). -/
theorem decodedI_of_decodeOperands (op : Op) {make : Reg → Reg → BitVec 16 → Instr}
    (h : ∀ w, decodeOperands op w = make (rdField w) (rbField w) (w.extractLsb' 0 16)) : DecodedI op.opcode make := by
  intro w hw
  rw [decode_of_opcodeField hw, h]
  rfl

/-- Adding a signed operand to a word is integer addition modulo 2^32 (00_scope.md R8, R9). -/
theorem toNat_add_signedWord (a : Word) (v : Int) :
    ((a + signedWord v).toNat : Int) = ((a.toNat : Int) + v) % 2 ^ 32 := by
  rw [signedWord, BitVec.toNat_add, BitVec.toNat_ofInt]
  omega

/-! ### Writing a register without the flags -/

/-- A register write reaches no other register (10_state.md R21). -/
theorem otherRegsSame_setReg (rd : Reg) (v : Word) (s : State) : OtherRegsSame rd s (s.setReg rd v) :=
  fun _ hr => State.getReg_setReg_ne s v hr

/-- Only a general register is written. -/
theorem sameButRegsFlags_setReg (rd : Reg) (v : Word) (s : State) : SameButRegsFlags s (s.setReg rd v) :=
  ⟨⟨rfl, rfl, rfl, rfl, rfl, rfl⟩, rfl, rfl, rfl, fun _ => rfl, rfl⟩

/-! ### The checked accesses, in and out of bounds -/

theorem memRead_of_lt {a : Word} {s : State} (h : a.toNat < s.cfg.ramWords) :
    memRead a s = .ok (s.ramWord a.toNat) := if_pos h

theorem memRead_of_le {a : Word} {s : State} (h : s.cfg.ramWords ≤ a.toNat) :
    memRead a s = .raise .memoryOutOfBounds (some (.word a)) := if_neg (not_lt.2 h)

theorem memWrite_of_lt {a : Word} {s : State} (v : Word) (h : a.toNat < s.cfg.ramWords) :
    memWrite a v s = .ok (s.setRam (Mem.write s.ram a.toNat v)) := if_pos h

theorem memWrite_of_le {a : Word} {s : State} (v : Word) (h : s.cfg.ramWords ≤ a.toNat) :
    memWrite a v s = .raise .memoryOutOfBounds (some (.word a)) := if_neg (not_lt.2 h)

/-! ### The events of a store -/

/-- The bounds of the framebuffer window (R60). -/
theorem inWindow_iff (c : Config) (a : Nat) :
    inWindow c a = true ↔ c.fbBase ≤ a ∧ a < c.fbBase + c.fbWidth * c.fbHeight := by
  rw [inWindow, Bool.and_eq_true, decide_eq_true_iff, decide_eq_true_iff, Config.fbWords]

/-- The rows a store to RAM address `a` notifies, read from `m`, the RAM after the write: the row that holds `a`, or
none outside the window (R60). -/
def notifiedRows (c : Config) (m : Mem) (a : Nat) : List RowSlice :=
  if inWindow c a then [(List.range c.fbWidth).map (fun k => Mem.read m (rowStart c a + k))] else []

theorem notifiedRows_of_inWindow {c : Config} {a : Nat} (m : Mem) (h : inWindow c a = true) :
    notifiedRows c m a = [(List.range c.fbWidth).map (fun k => Mem.read m (rowStart c a + k))] := if_pos h

theorem notifiedRows_of_not_inWindow {c : Config} {a : Nat} (m : Mem) (h : inWindow c a = false) :
    notifiedRows c m a = [] := if_neg (Bool.eq_false_iff.1 h)

/-- The state with `v` stored at RAM address `a` and the rows of that store notified (R172). -/
def State.stored (s : State) (a : Nat) (v : Word) : State :=
  { s with
    ram := Mem.write s.ram a v
    fbEvents := s.fbEvents ++ notifiedRows s.cfg (Mem.write s.ram a v) a }

/-- With parameters that satisfy R6, the notification that follows a write completes the store (R60, R172). -/
theorem notifyFramebuffer_write {s : State} (hc : s.cfg.valid = true) (a : Nat) (v : Word) :
    notifyFramebuffer a (s.setRam (Mem.write s.ram a v)) = .ok (s.stored a v) := by
  unfold State.stored
  rcases notifyFramebuffer_cases a (s.setRam (Mem.write s.ram a v)) hc with ⟨hw, h⟩ | ⟨hw, h⟩ <;>
    rw [State.cfg_setRam] at hw
  · rw [h, notifiedRows_of_not_inWindow _ hw, List.append_nil]
    rfl
  · rw [h, notifiedRows_of_inWindow _ hw]
    rfl

/-! ### The outcomes of LDR and STR -/

theorem exec_ldr (rd rb : Reg) (imm : Int) (s : State) :
    exec (.ldr rd rb imm) s =
      complete .ldr s ((memRead (s.effectiveAddress rb imm) s).bind fun v => .ok (s.setReg rd v)) := rfl

theorem exec_str (rd rb : Reg) (imm : Int) (s : State) :
    exec (.str rd rb imm) s =
      complete .str s ((memWrite (s.effectiveAddress rb imm) (s.getReg rd) s).bind fun t =>
        notifyFramebuffer (s.effectiveAddress rb imm).toNat t) := rfl

section Outcomes

variable {rb : Reg} {imm : Int} {s : State} (rd : Reg)

/-- LDR of a word inside RAM writes it to rd (R171). -/
theorem exec_ldr_of_lt (h : (s.effectiveAddress rb imm).toNat < s.cfg.ramWords) :
    exec (.ldr rd rb imm) s = .next (s.setReg rd (s.ramWord (s.effectiveAddress rb imm).toNat)) := by
  rw [exec_ldr, memRead_of_lt h, Res.bind_ok, complete_ok]

/-- LDR outside RAM halts (R171). -/
theorem exec_ldr_of_le (h : s.cfg.ramWords ≤ (s.effectiveAddress rb imm).toNat) :
    exec (.ldr rd rb imm) s =
      .next (faultedAt s .memoryOutOfBounds Op.ldr.opcode (some (.word (s.effectiveAddress rb imm)))) := by
  rw [exec_ldr, memRead_of_le h, Res.bind_raise, complete_raise]

/-- STR inside RAM stores rd and notifies the framebuffer (R172). -/
theorem exec_str_of_lt (hc : s.cfg.valid = true) (h : (s.effectiveAddress rb imm).toNat < s.cfg.ramWords) :
    exec (.str rd rb imm) s = .next (s.stored (s.effectiveAddress rb imm).toNat (s.getReg rd)) := by
  rw [exec_str, memWrite_of_lt _ h, Res.bind_ok, notifyFramebuffer_write hc, complete_ok]

/-- STR outside RAM halts (R172). -/
theorem exec_str_of_le (h : s.cfg.ramWords ≤ (s.effectiveAddress rb imm).toNat) :
    exec (.str rd rb imm) s =
      .next (faultedAt s .memoryOutOfBounds Op.str.opcode (some (.word (s.effectiveAddress rb imm)))) := by
  rw [exec_str, memWrite_of_le _ h, Res.bind_raise, complete_raise]

end Outcomes

/-! ### What a store changes and leaves unchanged -/

/-- A store writes one word of RAM and no other. -/
theorem ramWord_stored {s : State} (hwf : Mem.wf s.ram) (a : Nat) (v : Word) (b : Nat) :
    (s.stored a v).ramWord b = if b = a then v else s.ramWord b :=
  Mem.read_write s.ram hwf a b v

theorem fbEvents_stored (s : State) (a : Nat) (v : Word) :
    (s.stored a v).fbEvents = s.fbEvents ++ notifiedRows s.cfg (Mem.write s.ram a v) a := rfl

/-- A store inside the window appends the row that holds the address, as it reads after the write (R60). -/
theorem fbEvents_stored_of_inWindow {s : State} {a : Nat} (v : Word) (h : inWindow s.cfg a = true) :
    (s.stored a v).fbEvents = s.fbEvents ++
      [(List.range s.cfg.fbWidth).map (fun k => (s.stored a v).ramWord (rowStart s.cfg a + k))] := by
  rw [fbEvents_stored, notifiedRows_of_inWindow _ h]
  rfl

/-- A store outside the window notifies nothing (R60). -/
theorem fbEvents_stored_of_not_inWindow {s : State} {a : Nat} (v : Word) (h : inWindow s.cfg a = false) :
    (s.stored a v).fbEvents = s.fbEvents := by
  rw [fbEvents_stored, notifiedRows_of_not_inWindow _ h, List.append_nil]

/-- A store writes neither the parameters, the latch, the cycle counter, ROM, `running` nor the fault record. -/
theorem sameControl_stored (s : State) (a : Nat) (v : Word) : SameControl s (s.stored a v) :=
  ⟨rfl, rfl, rfl, rfl, rfl, rfl⟩

end Sys2Proof.Machine

/-! The loads and stores (41_load_store.md R170 to R172). -/

namespace Sys2Proof.Machine

/-- Settles O34: inside RAM the word read is written to rd alone, outside it the read raises the fault. -/
theorem ldrFollowsRule : Obligations.LdrFollowsRule := by
  refine ⟨decodedI_of_decodeOperands .ldr fun _ => rfl, fun rd rb imm s =>
    ⟨toNat_add_signedWord _ _, fun hlt => ?inside, fun hle => exec_ldr_of_le rd hle⟩⟩
  case inside =>
    exact ⟨_, exec_ldr_of_lt rd hlt, State.getReg_setReg_same _ _ _, rfl,
      otherRegsSame_setReg _ _ _, sameButRegsFlags_setReg _ _ _⟩

/-- Settles O35: inside RAM the state left is the store's, whose events are decided by the window; outside it the write
raises the fault. -/
theorem strFollowsRule : Obligations.StrFollowsRule := by
  refine ⟨decodedI_of_decodeOperands .str fun _ => rfl, fun rd rb imm s hc hwf =>
    ⟨fun hlt => ?inside, fun hle => exec_str_of_le rd hle⟩⟩
  case inside =>
    refine ⟨_, exec_str_of_lt rd hc hlt, ramWord_stored hwf _ _, fun hin => ?window, fun hout => ?elsewhere,
      fun _ => rfl, sameControl_stored _ _ _, rfl, rfl, rfl, rfl⟩
    case window => exact fbEvents_stored_of_inWindow _ ((inWindow_iff _ _).2 hin)
    case elsewhere => exact fbEvents_stored_of_not_inWindow _ (Bool.eq_false_iff.2 (mt (inWindow_iff _ _).1 hout))

end Sys2Proof.Machine

/-! SUPPORT. What PUSH and POP share: where a mask's registers stand in the order the instruction takes them, and the two
outcomes of each instruction (42_stack.md R183, R184). -/

namespace Sys2Proof.Machine

/-! ### The place of a selected register -/

/-- In a list ordered by `before`, an element that `p` selects stands, among the selected ones, behind those that come
before it. -/
theorem getElem?_filter_countP_before {α : Type} (before : α → α → Prop) [DecidableRel before] [Std.Asymm before]
    (p : α → Bool) {L : List α} (hL : L.Pairwise before) {r : α} (hr : r ∈ L) (hp : p r = true) :
    (L.filter p)[(L.filter (fun q => decide (before q r))).countP p]? = some r := by
  induction L with
  | nil => simp at hr
  | cons x L ih =>
    obtain ⟨hx, hL⟩ := List.pairwise_cons.1 hL
    rcases List.mem_cons.1 hr with rfl | hr
    · have hnone : (r :: L).filter (fun q => decide (before q r)) = [] := by
        rw [List.filter_eq_nil_iff]
        intro q hq hqr
        rw [decide_eq_true_iff] at hqr
        rcases List.mem_cons.1 hq with rfl | hq
        · exact Std.Asymm.asymm _ _ hqr hqr
        · exact Std.Asymm.asymm _ _ (hx q hq) hqr
      simp [hnone, hp]
    · have hhead := decide_eq_true (hx r hr)
      by_cases hpx : p x = true
      · simpa [hhead, hpx] using ih hL hr
      · simpa [hhead, hpx] using ih hL hr

theorem mem_regsLowToHigh (r : Reg) : r ∈ regsLowToHigh := by
  revert r; decide

theorem regsLowToHigh_pairwise_lt : regsLowToHigh.Pairwise (· < ·) := by decide

/-- POP takes the registers in the order opposite to PUSH (R184). -/
theorem regsHighToLow_eq_reverse : regsHighToLow = regsLowToHigh.reverse := rfl

theorem regsHighToLow_pairwise_gt : regsHighToLow.Pairwise (· > ·) := by
  rw [regsHighToLow_eq_reverse, List.pairwise_reverse]
  exact regsLowToHigh_pairwise_lt

theorem regsHighToLow_nodup : regsHighToLow.Nodup := regsHighToLow_pairwise_gt.imp ne_of_gt

theorem countP_regsHighToLow (mask : Nat) : regsHighToLow.countP (maskSelects mask) = maskCount mask := by
  rw [regsHighToLow_eq_reverse, List.countP_reverse, maskCount]

section Place

variable {mask : Nat} {r : Reg} (h : maskSelects mask r = true)
include h

/-- PUSH takes a selected register after the selected ones below it. -/
theorem getElem?_selectedBelow : (regsLowToHigh.filter (maskSelects mask))[selectedBelow mask r]? = some r :=
  getElem?_filter_countP_before (· < ·) _ regsLowToHigh_pairwise_lt (mem_regsLowToHigh r) h

/-- POP takes a selected register after the selected ones above it. -/
theorem getElem?_selectedAbove : (regsHighToLow.filter (maskSelects mask))[selectedAbove mask r]? = some r := by
  have hr : r ∈ regsHighToLow := by
    rw [regsHighToLow_eq_reverse, List.mem_reverse]
    exact mem_regsLowToHigh r
  have hcount : (regsHighToLow.filter (fun q => decide (q > r))).countP (maskSelects mask) = selectedAbove mask r := by
    rw [regsHighToLow_eq_reverse, List.filter_reverse, List.countP_reverse]
    rfl
  rw [← hcount]
  exact getElem?_filter_countP_before (· > ·) _ regsHighToLow_pairwise_gt hr h

end Place

/-! ### The outcomes of PUSH and POP -/

theorem exec_push (mask : Nat) (s : State) :
    exec (.push mask) s = complete .push s (pushRegs mask s.sp regsLowToHigh s) := rfl

theorem exec_pop (mask : Nat) (s : State) :
    exec (.pop mask) s = complete .pop s (popRegs mask s.sp regsHighToLow s) := rfl

section Outcomes

variable {mask : Nat} {s : State}

/-- PUSH with fewer words below sp than registers selected halts (R183). -/
theorem exec_push_of_lt (hsp : s.sp.toNat ≤ s.cfg.ramWords) (hwf : Mem.wf s.ram) (h : s.sp.toNat < maskCount mask) :
    exec (.push mask) s = .next (faultedAt s .stackOverflow Op.push.opcode (some (.word s.sp))) := by
  rcases pushRegs_cases mask s.sp regsLowToHigh s hsp hwf with ⟨-, hr⟩ | ⟨hle, -⟩
  · rw [exec_push, hr, complete_raise]
  · exact absurd hle (not_le.2 h)

/-- PUSH with room for every selected register moves sp down by their number and writes each to its own word (R183). -/
theorem exec_push_of_le (hsp : s.sp.toNat ≤ s.cfg.ramWords) (hwf : Mem.wf s.ram) (h : maskCount mask ≤ s.sp.toNat) :
    ∃ v m, exec (.push mask) s = .next ((s.setSp v).setRam m) ∧
      v.toNat = s.sp.toNat - maskCount mask ∧
      (∀ r, maskSelects mask r = true → Mem.read m (s.sp.toNat - 1 - selectedBelow mask r) = s.getReg r) ∧
      (∀ a, a < s.sp.toNat - maskCount mask ∨ s.sp.toNat ≤ a → Mem.read m a = s.ramWord a) := by
  rcases pushRegs_cases mask s.sp regsLowToHigh s hsp hwf with ⟨hlt, -⟩ | ⟨-, v, m, hr, hv, -, -, hout, hin⟩
  · exact absurd h (not_le.2 hlt)
  · exact ⟨v, m, by rw [exec_push, hr, complete_ok], hv, fun r hsel => hin _ r (getElem?_selectedBelow hsel), hout⟩

/-- POP with fewer words from sp up than registers selected halts (R184). -/
theorem exec_pop_of_lt (hc : s.cfg.valid = true) (hsp : s.sp.toNat ≤ s.cfg.ramWords)
    (h : s.cfg.ramWords < s.sp.toNat + maskCount mask) :
    exec (.pop mask) s = .next (faultedAt s .stackUnderflow Op.pop.opcode (some (.word s.sp))) := by
  rcases popRegs_cases mask s.sp regsHighToLow s regsHighToLow_nodup (valid_ramWords_le hc) hsp with ⟨-, hr⟩ | ⟨hle, -⟩
  · rw [exec_pop, hr, complete_raise]
  · rw [countP_regsHighToLow] at hle
    exact absurd hle (not_le.2 h)

/-- POP with a word for every selected register moves sp up by their number and reads each from its own word (R184). -/
theorem exec_pop_of_le (hc : s.cfg.valid = true) (hsp : s.sp.toNat ≤ s.cfg.ramWords)
    (h : s.sp.toNat + maskCount mask ≤ s.cfg.ramWords) :
    ∃ v R, exec (.pop mask) s = .next (({ s with regs := R } : State).setSp v) ∧
      v.toNat = s.sp.toNat + maskCount mask ∧
      (∀ r, maskSelects mask r = true → R[r] = s.ramWord (s.sp.toNat + selectedAbove mask r)) ∧
      (∀ r, maskSelects mask r = false → R[r] = s.getReg r) := by
  rcases popRegs_cases mask s.sp regsHighToLow s regsHighToLow_nodup (valid_ramWords_le hc) hsp with
    ⟨hlt, -⟩ | ⟨-, v, R, hr, hv, hsel, hoth⟩
  · rw [countP_regsHighToLow] at hlt
    exact absurd h (not_le.2 hlt)
  · rw [countP_regsHighToLow] at hv
    exact ⟨v, R, by rw [exec_pop, hr, complete_ok], hv, fun r hs => hsel _ r (getElem?_selectedAbove hs),
      fun r hs => hoth r (.inr hs)⟩

end Outcomes

end Sys2Proof.Machine

/-! The stack instructions (42_stack.md R183, R184). -/

namespace Sys2Proof.Machine

/-- Settles O37: the room below sp decides between the halt and a store of the selected registers, the lowest first. -/
theorem pushFollowsRule : Obligations.PushFollowsRule := by
  refine ⟨decodedI_of_decodeOperands .push fun _ => rfl, fun mask s _ hsp hwf =>
    ⟨fun hlt => exec_push_of_lt hsp hwf hlt, fun hle => ?fits⟩⟩
  case fits =>
    obtain ⟨v, m, ht, hv, hstored, hout⟩ := exec_push_of_le hsp hwf hle
    exact ⟨_, ht, hv, hstored, hout, rfl, ⟨rfl, rfl, rfl, rfl, rfl, rfl⟩, fun _ => rfl, rfl, rfl, rfl⟩

/-- Settles O38: the room above sp decides between the halt and a load of the selected registers, the highest first. -/
theorem popFollowsRule : Obligations.PopFollowsRule := by
  refine ⟨decodedI_of_decodeOperands .pop fun _ => rfl, fun mask s hc hsp =>
    ⟨fun hlt => exec_pop_of_lt hc hsp hlt, fun hle => ?fits⟩⟩
  case fits =>
    obtain ⟨v, R, ht, hv, hloaded, hkept⟩ := exec_pop_of_le hc hsp hle
    exact ⟨_, ht, hv, hloaded, hkept, fun _ => rfl, ⟨rfl, rfl, rfl, rfl, rfl, rfl⟩, rfl, rfl, rfl, rfl⟩

end Sys2Proof.Machine

/-! SUPPORT. What the branches, CALL and RET share: the decoding of formats M and R, the target as a number, the
conditions of the branches as propositions, and one equation per outcome of each instruction (30_encoding.md R72, R75;
43_branch.md R190 to R202). -/

namespace Sys2Proof.Machine

/-- An operation whose operand is that of format M is decoded as that format says (R75). -/
theorem decodedM_of_decodeOperands (op : Op) {make : Int → Instr}
    (h : ∀ w, decodeOperands op w = make (offField w)) : DecodedM op.opcode make := by
  intro w hw
  rw [decode_of_opcodeField hw, h]
  rfl

/-- An operation with no operands is decoded as format R says (R72). -/
theorem decodedR_of_decodeOperands (op : Op) {i : Instr} (h : ∀ w, decodeOperands op w = i) :
    DecodedR op.opcode i := by
  intro w hw
  rw [decode_of_opcodeField hw, h]

/-! ### The target and the conditional branch -/

/-- A pc set to the branch target is the pc after the fetch plus the offset, modulo 2^32 (R190). -/
theorem targetOf_of_pc_eq {s t : State} {off : Int} (h : t.pc = s.branchTarget off) : TargetOf s off t := by
  rw [TargetOf, h]
  exact toNat_add_signedWord s.pc off

theorem branchIf_of_true {c : Bool} (off : Int) (s : State) (h : c = true) :
    branchIf c off s = s.setPc (s.branchTarget off) := if_pos h

theorem branchIf_of_not_true {c : Bool} (off : Int) (s : State) (h : ¬ c = true) : branchIf c off s = s := if_neg h

/-- Setting the pc touches nothing else. -/
theorem sameButPc_setPc (s : State) (p : Word) : SameButPc s (s.setPc p) :=
  ⟨⟨rfl, rfl, rfl, rfl, rfl, rfl⟩, fun _ => rfl, rfl, rfl, rfl, fun _ => rfl, rfl⟩

/-- A format M operation that branches on a test of the flags follows R192 with the condition the test decides. -/
theorem branchesOn_of_branchIf (op : Op) {make : Int → Instr} {test : Flags → Bool} {cond : Flags → Prop}
    (hdecode : ∀ w, decodeOperands op w = make (offField w))
    (hexec : ∀ off s, exec (make off) s = .next (branchIf (test s.flags) off s))
    (hcond : ∀ f, test f = true ↔ cond f) : BranchesOn op.opcode make cond := by
  refine ⟨decodedM_of_decodeOperands op hdecode, fun off s => ?_⟩
  by_cases h : test s.flags = true
  case pos =>
    refine ⟨s.setPc (s.branchTarget off), by rw [hexec, branchIf_of_true off s h], sameButPc_setPc _ _,
      fun _ => targetOf_of_pc_eq rfl, fun hn => absurd ((hcond _).1 h) hn⟩
  case neg =>
    refine ⟨s.setPc s.pc, by rw [hexec, branchIf_of_not_true off s h]; rfl, sameButPc_setPc _ _,
      fun hc => absurd ((hcond _).2 hc) h, fun _ => rfl⟩

/-! ### The conditions of R192's table -/

theorem Flags.eq_iff (f : Flags) : f.eq = true ↔ f.z = true := Iff.rfl

theorem Flags.ne_iff (f : Flags) : f.ne = true ↔ f.z = false := by
  rw [Flags.ne, Bool.not_eq_true']

theorem Flags.lt_iff (f : Flags) : f.lt = true ↔ f.n ≠ f.v := by
  rw [Flags.lt, bne_iff_ne]

theorem Flags.ge_iff (f : Flags) : f.ge = true ↔ f.n = f.v := by
  rw [Flags.ge, beq_iff_eq]

theorem Flags.gt_iff (f : Flags) : f.gt = true ↔ f.z = false ∧ f.n = f.v := by
  rw [Flags.gt, Bool.and_eq_true, Bool.not_eq_true', beq_iff_eq]

theorem Flags.le_iff (f : Flags) : f.le = true ↔ f.z = true ∨ f.n ≠ f.v := by
  rw [Flags.le, Bool.or_eq_true, bne_iff_ne]

theorem Flags.cs_iff (f : Flags) : f.cs = true ↔ f.c = true := Iff.rfl

theorem Flags.cc_iff (f : Flags) : f.cc = true ↔ f.c = false := by
  rw [Flags.cc, Bool.not_eq_true']

/-! ### The meaning of each branch -/

theorem exec_beq (off : Int) (s : State) : exec (.beq off) s = .next (branchIf s.flags.eq off s) := rfl

theorem exec_bne (off : Int) (s : State) : exec (.bne off) s = .next (branchIf s.flags.ne off s) := rfl

theorem exec_blt (off : Int) (s : State) : exec (.blt off) s = .next (branchIf s.flags.lt off s) := rfl

theorem exec_bge (off : Int) (s : State) : exec (.bge off) s = .next (branchIf s.flags.ge off s) := rfl

theorem exec_bgt (off : Int) (s : State) : exec (.bgt off) s = .next (branchIf s.flags.gt off s) := rfl

theorem exec_ble (off : Int) (s : State) : exec (.ble off) s = .next (branchIf s.flags.le off s) := rfl

theorem exec_bcs (off : Int) (s : State) : exec (.bcs off) s = .next (branchIf s.flags.cs off s) := rfl

theorem exec_bcc (off : Int) (s : State) : exec (.bcc off) s = .next (branchIf s.flags.cc off s) := rfl

/-! ### The outcomes of CALL and RET -/

theorem exec_call (off : Int) (s : State) :
    exec (.call off) s =
      complete .call s ((pushWord s.sp s.pc s).bind fun t => .ok (t.setPc (s.branchTarget off))) := rfl

theorem exec_ret (s : State) :
    exec .ret s = complete .ret s ((popWord s.sp s).bind fun p => .ok (p.2.setPc p.1)) := rfl

section Outcomes

variable {s : State}

/-- CALL with no word below sp halts (R201). -/
theorem exec_call_of_sp_eq_zero (off : Int) (h : s.sp = 0) :
    exec (.call off) s = .next (faultedAt s .stackOverflow Op.call.opcode (some (.word s.sp))) := by
  rcases pushWord_cases s.sp s.pc s with ⟨-, hp⟩ | ⟨hne, -⟩ | ⟨hbeyond, -⟩
  · rw [exec_call, hp, Res.bind_raise, complete_raise]
  · exact absurd h hne
  · rw [h] at hbeyond
    exact absurd hbeyond (Nat.not_lt_zero _)

/-- CALL with a word below sp stores the return address there and jumps (R201). -/
theorem exec_call_of_sp_ne_zero (off : Int) (hsp : s.sp.toNat ≤ s.cfg.ramWords) (h : s.sp ≠ 0) :
    exec (.call off) s =
        .next (((s.setSp (s.sp - 1)).setRam (Mem.write s.ram (s.sp.toNat - 1) s.pc)).setPc (s.branchTarget off)) ∧
      (s.sp - 1).toNat = s.sp.toNat - 1 := by
  rcases pushWord_cases s.sp s.pc s with ⟨hzero, -⟩ | ⟨-, -, htop, hp⟩ | ⟨hbeyond, -⟩
  · exact absurd hzero h
  · exact ⟨by rw [exec_call, hp, Res.bind_ok, complete_ok], htop⟩
  · exact absurd hsp (not_le.2 hbeyond)

/-- RET with no word at sp halts (R202). -/
theorem exec_ret_of_le (h : s.cfg.ramWords ≤ s.sp.toNat) :
    exec .ret s = .next (faultedAt s .stackUnderflow Op.ret.opcode (some (.word s.sp))) := by
  rcases popWord_cases s.sp s with ⟨-, hp⟩ | ⟨hlt, -⟩
  · rw [exec_ret, hp, Res.bind_raise, complete_raise]
  · exact absurd h (not_le.2 hlt)

/-- RET with a word at sp takes it off the stack as the pc (R202). -/
theorem exec_ret_of_lt (h : s.sp.toNat < s.cfg.ramWords) :
    exec .ret s = .next ((s.setSp (s.sp + 1)).setPc (s.ramWord s.sp.toNat)) := by
  rcases popWord_cases s.sp s with ⟨hle, -⟩ | ⟨-, hp⟩
  · exact absurd h (not_lt.2 hle)
  · rw [exec_ret, hp, Res.bind_ok, complete_ok]

end Outcomes

end Sys2Proof.Machine

/-! The conditional branches, CALL and RET (43_branch.md R192 to R202). -/

namespace Sys2Proof.Machine

/-- Settles O41: each branch tests the flags by its own test, and that test decides the condition of its row. -/
theorem conditionalBranchesFollowTable : Obligations.ConditionalBranchesFollowTable :=
  ⟨branchesOn_of_branchIf .beq (fun _ => rfl) exec_beq Flags.eq_iff,
    branchesOn_of_branchIf .bne (fun _ => rfl) exec_bne Flags.ne_iff,
    branchesOn_of_branchIf .blt (fun _ => rfl) exec_blt Flags.lt_iff,
    branchesOn_of_branchIf .bge (fun _ => rfl) exec_bge Flags.ge_iff,
    branchesOn_of_branchIf .bgt (fun _ => rfl) exec_bgt Flags.gt_iff,
    branchesOn_of_branchIf .ble (fun _ => rfl) exec_ble Flags.le_iff,
    branchesOn_of_branchIf .bcs (fun _ => rfl) exec_bcs Flags.cs_iff,
    branchesOn_of_branchIf .bcc (fun _ => rfl) exec_bcc Flags.cc_iff⟩

/-- Settles O43: at sp = 0 the push faults; otherwise its one write is the return address, in the word below sp. -/
theorem callFollowsRule : Obligations.CallFollowsRule := by
  refine ⟨decodedM_of_decodeOperands .call fun _ => rfl, fun off s hsp hwf => ⟨fun hzero => ?full, fun hne => ?fits⟩⟩
  case full =>
    rw [exec_call_of_sp_eq_zero off hzero, hzero]
    rfl
  case fits =>
    obtain ⟨hexec, htop⟩ := exec_call_of_sp_ne_zero off hsp hne
    have hpos : s.sp.toNat ≠ 0 := fun h => hne (BitVec.eq_of_toNat_eq h)
    have hram := Mem.read_write s.ram hwf (s.sp.toNat - 1)
    refine ⟨_, hexec, targetOf_of_pc_eq rfl, htop, ?stored, fun a ha => ?outside,
      ⟨rfl, rfl, rfl, rfl, rfl, rfl⟩, fun _ => rfl, rfl, rfl, rfl⟩
    case stored => exact (hram _ _).trans (if_pos rfl)
    case outside => exact (hram _ _).trans (if_neg (by omega))

/-- Settles O44: the room above sp decides between the halt and the pop; a pointer inside RAM does not wrap. -/
theorem retFollowsRule : Obligations.RetFollowsRule := by
  refine ⟨decodedR_of_decodeOperands .ret fun _ => rfl, fun s hc => ⟨exec_ret_of_le, fun hlt => ?pops⟩⟩
  case pops =>
    exact ⟨_, exec_ret_of_lt hlt, rfl, toNat_add_one hlt (valid_ramWords_le hc), fun _ => rfl,
      ⟨rfl, rfl, rfl, rfl, rfl, rfl⟩, fun _ => rfl, rfl, rfl, rfl⟩

end Sys2Proof.Machine

/-! SUPPORT. The mode field of a status word (10_state.md R28, R29), and one equation per outcome of IRET
(44_system.md R211). -/

namespace Sys2Proof.Machine

/-! ### The mode field -/

/-- Only a mode field of 3 names no mode. -/
theorem statusMode_eq_none_iff (st : Word) : statusMode st = none ↔ st.extractLsb' 8 2 = 3 :=
  Mode.ofBits_eq_none _

/-- The mode a status word names has the value of its mode field. -/
theorem toBits_of_statusMode {st : Word} {m : Mode} (h : statusMode st = some m) :
    m.toBits = st.extractLsb' 8 2 := Mode.toBits_of_ofBits h

/-! ### The outcomes of IRET -/

theorem exec_iret (s : State) : exec .iret s = complete .iret s (trapReturn s.sp s) := rfl

section Outcomes

variable {s : State} (hc : s.cfg.valid = true)
include hc

/-- IRET with fewer than two words at sp halts (R211). -/
theorem exec_iret_of_lt (h : s.cfg.ramWords < s.sp.toNat + 2) :
    exec .iret s = .next (faultedAt s .stackUnderflow Op.iret.opcode (some (.word s.sp))) := by
  rcases trapReturn_cases s (valid_ramWords_le hc) with ⟨-, hr⟩ | ⟨hle, -⟩ | ⟨hle, -⟩
  · rw [exec_iret, hr, complete_raise]
  · exact absurd h (not_lt.2 hle)
  · exact absurd h (not_lt.2 hle)

/-- IRET of a frame whose status word names no mode halts (R211). -/
theorem exec_iret_of_statusMode_none (hle : s.sp.toNat + 2 ≤ s.cfg.ramWords)
    (h : statusMode (s.ramWord (s.sp.toNat + 1)) = none) :
    exec .iret s = .next (faultedAt s .invalidStatusWord Op.iret.opcode
      (some (.word (s.ramWord (s.sp.toNat + 1))))) := by
  rcases trapReturn_cases s (valid_ramWords_le hc) with ⟨hlt, -⟩ | ⟨-, -, hr⟩ | ⟨-, -, m, hm, -⟩
  · exact absurd hle (not_le.2 hlt)
  · rw [exec_iret, hr, complete_raise]
  · rw [h] at hm
    cases hm

/-- IRET of a frame whose status word names a mode takes both words off the stack and restores from them (R211). -/
theorem exec_iret_of_statusMode_some {m : Mode} (hle : s.sp.toNat + 2 ≤ s.cfg.ramWords)
    (h : statusMode (s.ramWord (s.sp.toNat + 1)) = some m) :
    exec .iret s = .next ((((s.setSp (s.sp + 1 + 1)).setPc (s.ramWord s.sp.toNat)).setMode m).setFlags
        (s.flags.restore (s.ramWord (s.sp.toNat + 1)))) ∧
      (s.sp + 1 + 1).toNat = s.sp.toNat + 2 := by
  rcases trapReturn_cases s (valid_ramWords_le hc) with ⟨hlt, -⟩ | ⟨-, hm, -⟩ | ⟨-, hsp, m', hm, hr⟩
  · exact absurd hle (not_le.2 hlt)
  · rw [h] at hm
    cases hm
  · rw [h] at hm
    cases hm
    exact ⟨by rw [exec_iret, hr, complete_ok], hsp⟩

end Outcomes

end Sys2Proof.Machine

/-! The return from a trap (44_system.md R211). -/

namespace Sys2Proof.Machine

/-- Settles O47: the room above sp, then whether the status word names a mode, decide between the two halts and the
restore of pc, mode and flags from the frame. -/
theorem iretFollowsRule : Obligations.IretFollowsRule := by
  refine ⟨decodedR_of_decodeOperands .iret fun _ => rfl, fun s hc _ => ⟨exec_iret_of_lt hc,
    fun hle h3 => exec_iret_of_statusMode_none hc hle ((statusMode_eq_none_iff _).2 h3), fun hle h3 => ?restores⟩⟩
  case restores =>
    obtain ⟨m, hm⟩ := Option.ne_none_iff_exists'.1 fun hnone => h3 ((statusMode_eq_none_iff _).1 hnone)
    obtain ⟨hexec, hsp⟩ := exec_iret_of_statusMode_some hc hle hm
    exact ⟨_, hexec, rfl, hsp, toBits_of_statusMode hm, rfl, fun _ => rfl, fun _ => rfl,
      ⟨rfl, rfl, rfl, rfl, rfl, rfl⟩, rfl⟩

end Sys2Proof.Machine

/-! SUPPORT. The step of a halted machine and the step with an interrupt due (60_exceptions.md R234, R240), the tick's
part in the invariant, and the trap entry and the dispatch where the frame fits (R241, R242). -/

namespace Sys2Proof.Machine

/-! ### The two kinds of step that fetch nothing -/

theorem step_of_not_running {s : State} (hr : s.running = false) : step s = .next s := if_neg (by simp [hr])

theorem step_of_interruptDue {s : State} (hr : s.running = true) (hi : interruptDue (tick s) = true) :
    step s = dispatchInterrupt (tick s) := (if_pos hr).trans (if_pos hi)

/-- The tick keeps the invariant: it moves only the cycle and IP, and latches number 0 (R237). -/
theorem inv_tick {s : State} (h : s.Inv) : (tick s).Inv := by
  rcases tick_cases s with ⟨-, ht⟩ | ⟨-, ht⟩
  case inl => rw [ht]; exact ⟨h.cfg, h.sp, rfl, h.ramWf, h.ramWithin, h.rom, h.fault, h.rows⟩
  case inr => rw [ht]; exact ⟨h.cfg, h.sp, h.irqNum, h.ramWf, h.ramWithin, h.rom, h.fault, h.rows⟩

/-! ### The trap entry and the dispatch with room for the frame -/

/-- With room for its two words, the entry for a number that names a vector completes as R241 says. -/
theorem trapEntry_of_two_le {s : State} {n : Word} (ret : Word) (hc : s.cfg.valid = true)
    (hsp : s.sp.toNat ≤ s.cfg.ramWords) (hwf : Mem.wf s.ram) (hn : n.toNat < 16) (hroom : 2 ≤ s.sp.toNat) :
    ∃ t, trapEntry n ret s.sp s = .ok t ∧ TrapEntered s n.toNat ret t := by
  rcases trapEntry_cases n ret s hc hsp hwf hn with ⟨hlt, -⟩ | ⟨-, v, m, p, ht, hv, -, -, hstatus, hret, hout, hp⟩
  · exact absurd hroom (not_le.2 hlt)
  · exact ⟨_, ht, ⟨rfl, rfl, rfl, rfl, rfl, rfl⟩, hv, hstatus, hret, hout, rfl, rfl, hp, fun _ => rfl, rfl⟩

/-- With room for its two words, a dispatch clears IP and enters the trap of vector 0, the one R36 lets the latch name,
and returns to the pc it found (R242). -/
theorem dispatchInterrupt_of_two_le {s : State} (h : s.Inv) (hroom : 2 ≤ s.sp.toNat) :
    ∃ t, dispatchInterrupt s = .next t ∧ TrapEntered (s.setFlags { s.flags with ip := false }) 0 s.pc t := by
  obtain ⟨t, ht, hentered⟩ := trapEntry_of_two_le (s := s.setFlags { s.flags with ip := false }) (n := 0) s.pc
    h.cfg h.sp h.ramWf (by decide) hroom
  refine ⟨t, ?_, hentered⟩
  rw [State.sp_setFlags] at ht
  rw [dispatchInterrupt, h.irqNum, ht, finish]

end Sys2Proof.Machine

/-! The halted machine and the interrupt dispatch (60_exceptions.md R234, R242). -/

namespace Sys2Proof.Machine

/-- Settles O8: the step tests `running` before anything else, and answers its own state where it is false. -/
theorem haltedStepChangesNothing : Obligations.HaltedStepChangesNothing := fun _ hr => step_of_not_running hr

/-- Settles O13: the tick keeps the invariant, pc and sp, so the step is the dispatch of R242 from the ticked state. -/
theorem dispatchEntersTrap : Obligations.DispatchEntersTrap := by
  intro s hinv hr hi hroom
  obtain ⟨-, -, -, hpc, hsp, -⟩ := tick_frame s
  obtain ⟨t, ht, hentered⟩ := dispatchInterrupt_of_two_le (inv_tick hinv) (by rw [hsp]; exact hroom)
  rw [hpc] at hentered
  exact ⟨t, by rw [step_of_interruptDue hr hi, ht], hentered⟩

end Sys2Proof.Machine

/-! SUPPORT. The decoder and the encoder against each other: the ranges of decoded fields, the operands read back from
an encoded word, and a word rebuilt from its fields (30_encoding.md R72 to R88). -/

namespace Sys2Proof

/-! ### Numbers in the ranges of their fields -/

theorem immInRange_iff (v : Int) : immInRange v = true ↔ -32768 ≤ v ∧ v ≤ 32767 := by
  rw [immInRange, Bool.and_eq_true, decide_eq_true_iff, decide_eq_true_iff]

theorem offInRange_iff (v : Int) : offInRange v = true ↔ -8388608 ≤ v ∧ v ≤ 8388607 := by
  rw [offInRange, Bool.and_eq_true, decide_eq_true_iff, decide_eq_true_iff]

theorem immInRange_toInt (x : BitVec 16) : immInRange x.toInt = true := by
  have hlo := x.le_toInt
  have hhi := x.toInt_le
  exact (immInRange_iff _).2 ⟨by omega, by omega⟩

theorem offInRange_toInt (x : BitVec 24) : offInRange x.toInt = true := by
  have hlo := x.le_toInt
  have hhi := x.toInt_le
  exact (offInRange_iff _).2 ⟨by omega, by omega⟩

theorem maskInRange_toNat (x : BitVec 16) : maskInRange x.toNat = true :=
  decide_eq_true (Nat.le_of_lt_succ x.isLt)

theorem toInt_ofInt_of_immInRange {v : Int} (h : immInRange v = true) : (BitVec.ofInt 16 v).toInt = v := by
  obtain ⟨hlo, hhi⟩ := (immInRange_iff v).1 h
  exact BitVec.toInt_ofInt_eq_self (by decide) (by omega) (by omega)

theorem toInt_ofInt_of_offInRange {v : Int} (h : offInRange v = true) : (BitVec.ofInt 24 v).toInt = v := by
  obtain ⟨hlo, hhi⟩ := (offInRange_iff v).1 h
  exact BitVec.toInt_ofInt_eq_self (by decide) (by omega) (by omega)

theorem toNat_ofNat_of_maskInRange {m : Nat} (h : maskInRange m = true) : (BitVec.ofNat 16 m).toNat = m := by
  have := of_decide_eq_true h
  rw [BitVec.toNat_ofNat]
  omega

/-! ### What the decoder answers -/

/-- The decoder answers an instruction exactly for the words with an operation's opcode (R86). -/
theorem decode_eq_instr_iff (w : Word) (i : Instr) :
    decode w = .instr i ↔ ∃ op : Op, opcodeField w = op.opcode ∧ i = decodeOperands op w := by
  constructor
  · intro h
    cases hop : lookupByOpcode (opcodeField w) with
    | none => simp [decode, hop] at h
    | some op => exact ⟨op, (opcode_of_lookupByOpcode hop).symm, by simpa [decode, hop, eq_comm] using h⟩
  · rintro ⟨op, hop, rfl⟩
    exact decode_of_opcodeField hop

@[simp] theorem op_decodeOperands (op : Op) (w : Word) : (decodeOperands op w).op = op := by
  cases op <;> rfl

theorem wellFormed_srcField (w : Word) : (srcField w).wellFormed = true := by
  unfold srcField
  split
  · exact immInRange_toInt _
  · rfl

/-- Whatever the word, the fields read in an operation's format lie in their ranges (R88). -/
theorem wellFormed_decodeOperands (op : Op) (w : Word) : (decodeOperands op w).wellFormed = true := by
  cases op with
  | add | sub | mul | div | mod | and | or | xor | shl | shr | cmp | mov => exact wellFormed_srcField w
  | ldr | str | int => exact immInRange_toInt _
  | push | pop => exact maskInRange_toNat _
  | jmp | beq | bne | blt | bge | bgt | ble | bcs | bcc | call => exact offInRange_toInt _
  | ret | iret | hlt => rfl

/-! ### The operands read back from an encoded word -/

theorem opcodeField_encode (i : Instr) : opcodeField (encode i) = i.op.opcode := by
  cases i with
  | add | sub | mul | div | mod | and | or | xor | shl | shr | cmp | mov => exact opcodeField_encodeRI _ _ _
  | ldr | str | push | pop | int => exact opcodeField_encodeI _ _ _ _
  | jmp | beq | bne | blt | bge | bgt | ble | bcs | bcc | call => exact opcodeField_encodeM _ _
  | ret | iret | hlt => exact opcodeField_encodeR _

theorem srcField_encodeRI_of_wellFormed (op : Op) (rd : Reg) {src : Src} (h : src.wellFormed = true) :
    srcField (encodeRI op rd src) = src := by
  rw [srcField_encodeRI]
  cases src with
  | reg rs => rfl
  | imm v => exact congrArg Src.imm (toInt_ofInt_of_immInRange h)

theorem immField_encodeI (op : Op) (rd rb : Reg) {v : Int} (h : immInRange v = true) :
    immField (encodeI op rd rb (BitVec.ofInt 16 v)) = v := by
  rw [immField, imm16_encodeI, toInt_ofInt_of_immInRange h]

theorem maskField_encodeI (op : Op) (rd rb : Reg) {m : Nat} (h : maskInRange m = true) :
    maskField (encodeI op rd rb (BitVec.ofNat 16 m)) = m := by
  rw [maskField, imm16_encodeI, toNat_ofNat_of_maskInRange h]

theorem offField_encodeM (op : Op) {v : Int} (h : offInRange v = true) : offField (encodeM op v) = v := by
  rw [offField, off24_encodeM, toInt_ofInt_of_offInRange h]

/-- The operands of a well-formed instruction are what its word holds, format by format (R88). -/
theorem decodeOperands_encode {i : Instr} (h : i.wellFormed = true) : decodeOperands i.op (encode i) = i := by
  cases i with
  | add rd src | sub rd src | mul rd src | div rd src | mod rd src | and rd src | or rd src | xor rd src
  | shl rd src | shr rd src | cmp rd src | mov rd src =>
    simp only [Instr.op, encode, decodeOperands, rdField_encodeRI, srcField_encodeRI_of_wellFormed _ _ h]
  | ldr rd rb imm | str rd rb imm =>
    simp only [Instr.op, encode, decodeOperands, rdField_encodeI, rbField_encodeI, immField_encodeI _ _ _ h]
  | push m | pop m => simp only [Instr.op, encode, decodeOperands, maskField_encodeI _ _ _ h]
  | int n => simp only [Instr.op, encode, decodeOperands, immField_encodeI _ _ _ h]
  | jmp off | beq off | bne off | blt off | bge off | bgt off | ble off | bcs off | bcc off | call off =>
    simp only [Instr.op, encode, decodeOperands, offField_encodeM _ h]
  | ret | iret | hlt => rfl

theorem decode_encode {i : Instr} (h : i.wellFormed = true) : decode (encode i) = .instr i := by
  rw [decode_of_opcodeField (opcodeField_encode i), decodeOperands_encode h]

/-! ### A word rebuilt from its fields -/

/-- The ones of the `n`-bit field whose lowest bit is `lo`. -/
def fieldMask (lo n : Nat) : Word := (BitVec.allOnes n).setWidth 32 <<< lo

/-- A field of a word, put back in its place, is the word with every other bit cleared. -/
theorem extractLsb'_shiftLeft_eq_and (w : Word) {lo n : Nat} (h : lo + n ≤ 32) :
    (w.extractLsb' lo n).setWidth 32 <<< lo = w &&& fieldMask lo n := by
  refine BitVec.eq_of_getLsbD_eq fun k hk => ?_
  simp only [fieldMask, BitVec.getLsbD_shiftLeft, BitVec.getLsbD_setWidth, BitVec.getLsbD_extractLsb',
    BitVec.getLsbD_and, BitVec.getLsbD_allOnes]
  by_cases hlo : k < lo
  · simp [hlo]
  · by_cases hn : k - lo < n
    · simp [hlo, hn, hk, show lo + (k - lo) = k by omega, show k - lo < 32 by omega]
    · simp [hlo, hn]

theorem extractLsb'_zero_eq_and (w : Word) {n : Nat} (h : n ≤ 32) :
    (w.extractLsb' 0 n).setWidth 32 = w &&& fieldMask 0 n := by
  rw [← extractLsb'_shiftLeft_eq_and w (by omega), BitVec.shiftLeft_zero]

/-- A register field put back in its place. -/
theorem regBits_regOfBits (w : Word) {lo : Nat} (h : lo + 4 ≤ 32) :
    regBits (regOfBits (w.extractLsb' lo 4)) lo = w &&& fieldMask lo 4 := by
  rw [regBits, bitsOfReg_regOfBits, extractLsb'_shiftLeft_eq_and w h]

section Rebuild

variable {op : Op} {w : Word} (h : opcodeField w = op.opcode)
include h

theorem opcodeBits_eq_and : opcodeBits op = w &&& fieldMask 26 6 := by
  rw [opcodeBits, ← h, opcodeField, extractLsb'_shiftLeft_eq_and w (by decide)]

/-- Format RI: the flag in bit 0 says which of the two forms is rebuilt (R74). -/
theorem encodeRI_fields (hf : op.descriptor.family = .RI) :
    encodeRI op (rdField w) (srcField w) = w &&& ~~~(ignoredBits op w) := by
  simp only [srcField, ignoredBits, hf]
  split
  case isTrue h0 =>
    have hflag : w &&& 1#32 = 1#32 := by rw [BitVec.and_one_eq_setWidth_ofBool_getLsbD, h0]; rfl
    calc encodeRI op (rdField w) (.imm (w.extractLsb' 1 16).toInt)
      _ = w &&& fieldMask 26 6 ||| w &&& fieldMask 20 4 ||| w &&& fieldMask 1 16 ||| w &&& 1#32 := by
        rw [encodeRI, opcodeBits_eq_and h, rdField, regBits_regOfBits w (by decide), BitVec.ofInt_toInt,
          extractLsb'_shiftLeft_eq_and w (by decide), hflag]
      _ = w &&& ~~~0x030E0000#32 := by simp only [← BitVec.and_or_distrib_left]; rfl
  case isFalse h0 =>
    have hflag : w &&& 1#32 = 0#32 := by
      rw [BitVec.and_one_eq_setWidth_ofBool_getLsbD, Bool.eq_false_iff.2 h0]; rfl
    calc encodeRI op (rdField w) (.reg (rbField w))
      _ = w &&& fieldMask 26 6 ||| w &&& fieldMask 20 4 ||| w &&& fieldMask 16 4 ||| w &&& 1#32 := by
        rw [encodeRI, opcodeBits_eq_and h, rdField, rbField, regBits_regOfBits w (by decide),
          regBits_regOfBits w (by decide), hflag, BitVec.or_zero]
      _ = w &&& ~~~0x0300FFFE#32 := by simp only [← BitVec.and_or_distrib_left]; rfl

/-- Format I of LDR and STR, which use every field (R73). -/
theorem encodeI_fields : encodeI op (rdField w) (rbField w) (w.extractLsb' 0 16) = w &&& ~~~0x03000000#32 := by
  rw [encodeI, opcodeBits_eq_and h, rdField, rbField, regBits_regOfBits w (by decide), regBits_regOfBits w (by decide),
    extractLsb'_zero_eq_and w (by decide)]
  simp only [← BitVec.and_or_distrib_left]
  rfl

/-- Format I of PUSH, POP and INT, which use neither register field (R73, R76). -/
theorem encodeI_zero_fields : encodeI op 0 0 (w.extractLsb' 0 16) = w &&& ~~~0x03FF0000#32 := by
  calc encodeI op 0 0 (w.extractLsb' 0 16)
    _ = opcodeBits op ||| (w.extractLsb' 0 16).setWidth 32 := by
      rw [encodeI, show regBits 0 20 = 0#32 from rfl, show regBits 0 16 = 0#32 from rfl, BitVec.or_zero, BitVec.or_zero]
    _ = w &&& fieldMask 26 6 ||| w &&& fieldMask 0 16 := by
      rw [opcodeBits_eq_and h, extractLsb'_zero_eq_and w (by decide)]
    _ = w &&& ~~~0x03FF0000#32 := by simp only [← BitVec.and_or_distrib_left]; rfl

/-- Format M (R75). -/
theorem encodeM_fields : encodeM op (offField w) = w &&& ~~~0x03000000#32 := by
  rw [encodeM, offField, BitVec.ofInt_toInt, opcodeBits_eq_and h, extractLsb'_zero_eq_and w (by decide),
    ← BitVec.and_or_distrib_left]
  rfl

/-- Format R (R72). -/
theorem encodeR_fields : encodeR op = w &&& ~~~0x03FFFFFF#32 := opcodeBits_eq_and h

/-- Encoding the operands of a word gives the word with its ignored bits cleared (R82, R88). -/
theorem encode_decodeOperands : encode (decodeOperands op w) = w &&& ~~~(ignoredBits op w) := by
  cases op with
  | add | sub | mul | div | mod | and | or | xor | shl | shr | cmp | mov => exact encodeRI_fields h rfl
  | ldr | str => exact (congrArg (encodeI _ _ _) BitVec.ofInt_toInt).trans (encodeI_fields h)
  | push | pop =>
    exact (congrArg (encodeI _ _ _) ((BitVec.ofNat_toNat _ _).trans (BitVec.setWidth_eq _))).trans
      (encodeI_zero_fields h)
  | int => exact (congrArg (encodeI _ _ _) BitVec.ofInt_toInt).trans (encodeI_zero_fields h)
  | jmp | beq | bne | blt | bge | bgt | ble | bcs | bcc | call => exact encodeM_fields h
  | ret | iret | hlt => exact encodeR_fields h

end Rebuild

/-! ### Words that differ in ignored bits only -/

/-- No format ignores a bit of the opcode (R71, R82). -/
theorem extractLsb'_not_ignoredBits (op : Op) (w : Word) :
    (~~~(ignoredBits op w)).extractLsb' 26 6 = BitVec.allOnes 6 := by
  unfold ignoredBits
  split
  case h_1 | h_4 => rfl
  case h_2 | h_3 => split <;> rfl

theorem opcodeField_clear_ignoredBits (op : Op) (v w : Word) :
    opcodeField (w &&& ~~~(ignoredBits op v)) = opcodeField w := by
  rw [opcodeField, BitVec.extractLsb'_and, extractLsb'_not_ignoredBits, BitVec.and_allOnes, opcodeField]

/-- Format RI does not ignore the flag in bit 0 (R74, R82). -/
theorem getLsbD_zero_clear_ignoredBits {op : Op} (hf : op.descriptor.family = .RI) (v w : Word) :
    (w &&& ~~~(ignoredBits op v)).getLsbD 0 = w.getLsbD 0 := by
  have hkept : (~~~(ignoredBits op v)).getLsbD 0 = true := by
    simp only [ignoredBits, hf]
    split <;> rfl
  rw [BitVec.getLsbD_and, hkept, Bool.and_true]

section SameButIgnored

variable {op : Op} {w w' : Word} (h : w' &&& ~~~(ignoredBits op w) = w &&& ~~~(ignoredBits op w))
include h

theorem opcodeField_eq_of_clear_eq : opcodeField w' = opcodeField w := by
  rw [← opcodeField_clear_ignoredBits op w w', h, opcodeField_clear_ignoredBits]

/-- Words that differ in ignored bits only have the same ignored bits: which they are depends on no more than the
flag. -/
theorem ignoredBits_eq_of_clear_eq : ignoredBits op w' = ignoredBits op w := by
  cases hf : op.descriptor.family with
  | RI =>
    have hflag : w'.getLsbD 0 = w.getLsbD 0 := by
      rw [← getLsbD_zero_clear_ignoredBits hf w w', h, getLsbD_zero_clear_ignoredBits hf]
    simp only [ignoredBits, hf, hflag]
  | R | I | M => simp only [ignoredBits, hf]

end SameButIgnored

end Sys2Proof

/-! The encoding (30_encoding.md R72 to R88). -/

namespace Sys2Proof

/-- Settles O50: the encoded word carries the opcode of its operation, and its fields are the operands. -/
theorem decodeOfEncode : Obligations.DecodeOfEncode := fun _ h => decode_encode h

/-- Settles O51: a word is rebuilt from its fields without its ignored bits, and that word is the encoding of a
well-formed instruction. -/
theorem encodeOfDecodeClearsIgnoredBits : Obligations.EncodeOfDecodeClearsIgnoredBits := by
  intro w i h
  obtain ⟨op, hop, rfl⟩ := (decode_eq_instr_iff w i).1 h
  have hencode := encode_decodeOperands hop
  rw [op_decodeOperands]
  exact ⟨hencode, by rw [← hencode, decode_encode (wellFormed_decodeOperands op w)]⟩

/-- Settles O52: both words have the opcode of the operation, and their operands have one encoding, which decodes to
either. -/
theorem ignoredBitsDoNotMatter : Obligations.IgnoredBitsDoNotMatter := by
  intro w w' op hop h
  have hop' : opcodeField w' = op.opcode := (opcodeField_eq_of_clear_eq h).trans hop
  have hencode : encode (decodeOperands op w') = encode (decodeOperands op w) := by
    rw [encode_decodeOperands hop', encode_decodeOperands hop, ignoredBits_eq_of_clear_eq h, h]
  calc decode w'
    _ = decode (encode (decodeOperands op w')) := by
      rw [decode_of_opcodeField hop', decode_encode (wellFormed_decodeOperands op w')]
    _ = decode (encode (decodeOperands op w)) := by rw [hencode]
    _ = decode w := by rw [decode_of_opcodeField hop, decode_encode (wellFormed_decodeOperands op w)]

/-- Settles O53. -/
theorem decodedInstructionWellFormed : Obligations.DecodedInstructionWellFormed := by
  intro w i h
  obtain ⟨op, -, rfl⟩ := (decode_eq_instr_iff w i).1 h
  exact wellFormed_decodeOperands op w

/-- Settles O54, by running the decoder on the eight words. -/
theorem sampleWordsDecode : Obligations.SampleWordsDecode := by
  unfold Obligations.SampleWordsDecode
  decide

end Sys2Proof

/-! SUPPORT. The invariant under each update of a state and under each shared operation of a step: an operation that
starts from a sound state never reaches the model's own stop and completes in a sound state only (10_state.md R36,
log 6). -/

namespace Sys2Proof.Machine

/-! ### The invariant under the updates of a state -/

section Updates

variable {s : State} (h : s.Inv)
include h

theorem inv_setReg (r : Reg) (v : Word) : (s.setReg r v).Inv :=
  ⟨h.cfg, h.sp, h.irqNum, h.ramWf, h.ramWithin, h.rom, h.fault, h.rows⟩

theorem inv_setPc (p : Word) : (s.setPc p).Inv :=
  ⟨h.cfg, h.sp, h.irqNum, h.ramWf, h.ramWithin, h.rom, h.fault, h.rows⟩

theorem inv_setFlags (f : Flags) : (s.setFlags f).Inv :=
  ⟨h.cfg, h.sp, h.irqNum, h.ramWf, h.ramWithin, h.rom, h.fault, h.rows⟩

theorem inv_setMode (m : Mode) : (s.setMode m).Inv :=
  ⟨h.cfg, h.sp, h.irqNum, h.ramWf, h.ramWithin, h.rom, h.fault, h.rows⟩

theorem inv_setSp {v : Word} (hv : v.toNat ≤ s.cfg.ramWords) : (s.setSp v).Inv :=
  ⟨h.cfg, hv, h.irqNum, h.ramWf, h.ramWithin, h.rom, h.fault, h.rows⟩

theorem inv_write {a : Nat} (v : Word) (ha : a < s.cfg.ramWords) : (s.setRam (Mem.write s.ram a v)).Inv :=
  ⟨h.cfg, h.sp, h.irqNum, Mem.wf_write _ h.ramWf _ _, Mem.within_write _ _ _ _ h.ramWithin ha, h.rom, h.fault, h.rows⟩

theorem inv_emit {row : RowSlice} (hrow : row.length = s.cfg.fbWidth) : (s.emit row).Inv := by
  refine ⟨h.cfg, h.sp, h.irqNum, h.ramWf, h.ramWithin, h.rom, h.fault, fun q hq => ?_⟩
  rcases List.mem_append.1 hq with hq | hq
  · exact h.rows q hq
  · rw [List.mem_singleton.1 hq]
    exact hrow

/-- HLT leaves a halted machine, of which the invariant asks no record (R31). -/
theorem inv_setRunning_false : (s.setRunning false).Inv :=
  ⟨h.cfg, h.sp, h.irqNum, h.ramWf, h.ramWithin, h.rom, (fun hr => nomatch hr), h.rows⟩

theorem inv_haltWith (r : FaultRecord) : (s.haltWith r).Inv :=
  ⟨h.cfg, h.sp, h.irqNum, h.ramWf, h.ramWithin, h.rom, (fun hr => nomatch hr), h.rows⟩

end Updates

/-! ### Operations that never reach the model's own stop -/

/-- The operation does not touch an absent RAM word, and what it completes with satisfies `P`. -/
def Res.Sound {α : Type} (P : α → Prop) : Res α → Prop
  | .ok a => P a
  | .raise _ _ => True
  | .absent _ => False

theorem Res.Sound.bind {α β : Type} {P : α → Prop} {Q : β → Prop} {r : Res α} {f : α → Res β}
    (hr : r.Sound P) (hf : ∀ a, P a → (f a).Sound Q) : (r.bind f).Sound Q := by
  cases r with
  | ok a => exact hf a hr
  | raise k x => trivial
  | absent a => exact hr.elim

theorem memRead_sound (a : Word) (s : State) : (memRead a s).Sound (fun _ => True) := by
  rcases memRead_cases a s with ⟨-, hr⟩ | ⟨-, hr⟩ <;> rw [hr] <;> trivial

section Operations

variable {s : State} (h : s.Inv)
include h

theorem pushWord_sound (sp0 v : Word) : (pushWord sp0 v s).Sound State.Inv := by
  rcases pushWord_cases sp0 v s with ⟨-, hp⟩ | ⟨hne, hle, htop, hp⟩ | ⟨hbeyond, -⟩
  · rw [hp]; trivial
  · have hpos : s.sp.toNat ≠ 0 := fun e => hne (BitVec.eq_of_toNat_eq e)
    rw [hp]
    exact inv_write (inv_setSp h (by omega)) v (by rw [State.cfg_setSp]; omega)
  · exact absurd h.sp (not_le.2 hbeyond)

theorem popWord_sound (sp0 : Word) : (popWord sp0 s).Sound (fun p => p.2.Inv) := by
  rcases popWord_cases sp0 s with ⟨-, hp⟩ | ⟨hlt, hp⟩
  · rw [hp]; trivial
  · rw [hp]
    exact inv_setSp h (by rw [toNat_add_one hlt (valid_ramWords_le h.cfg)]; exact hlt)

theorem pushRegs_sound (mask : Nat) (sp0 : Word) (L : List Reg) : (pushRegs mask sp0 L s).Sound State.Inv := by
  induction L generalizing s with
  | nil => exact h
  | cons r L ih =>
    unfold pushRegs
    split
    · exact (pushWord_sound h _ _).bind fun t ht => ih ht
    · exact ih h

theorem popRegs_sound (mask : Nat) (sp0 : Word) (L : List Reg) : (popRegs mask sp0 L s).Sound State.Inv := by
  induction L generalizing s with
  | nil => exact h
  | cons r L ih =>
    unfold popRegs
    split
    · exact (popWord_sound h _).bind fun p hp => ih (inv_setReg hp _ _)
    · exact ih h

theorem memWrite_sound (a v : Word) : (memWrite a v s).Sound State.Inv := by
  rcases memWrite_cases a v s with ⟨hlt, hw⟩ | ⟨-, hw⟩
  · rw [hw]; exact inv_write h v hlt
  · rw [hw]; trivial

theorem notifyFramebuffer_sound (a : Nat) : (notifyFramebuffer a s).Sound State.Inv := by
  rcases notifyFramebuffer_cases a s h.cfg with ⟨-, hn⟩ | ⟨-, hn⟩
  · rw [hn]; exact h
  · rw [hn]; exact inv_emit h (by rw [List.length_map, List.length_range])

theorem trapEntry_sound (n ret sp0 : Word) : (trapEntry n ret sp0 s).Sound State.Inv :=
  (pushWord_sound h _ _).bind fun _ h1 => (pushWord_sound h1 _ _).bind fun _ h2 =>
    (memRead_sound _ _).bind fun _ _ => inv_setPc (inv_setMode (inv_setFlags h2 _) _) _

theorem trapReturn_sound (sp0 : Word) : (trapReturn sp0 s).Sound State.Inv := by
  refine (popWord_sound h _).bind fun p hp => (popWord_sound hp _).bind fun q hq => ?_
  split
  · trivial
  · exact inv_setFlags (inv_setMode (inv_setPc hq _) _) _

theorem softwareInterrupt_sound (n : Int) : (softwareInterrupt n s).Sound State.Inv := by
  unfold softwareInterrupt
  split
  · exact trapEntry_sound h _ _ _
  · trivial

theorem runDivision_sound (f : Word → Word → Flags → Option AluOut) (rd : Reg) (src : Src) :
    (runDivision f rd src s).Sound State.Inv := by
  unfold runDivision
  split
  · trivial
  · exact inv_setFlags (inv_setReg h _ _) _

/-! ### The end of an operation, an instruction and a dispatch -/

theorem finish_sound {r : Res State} (opcode : Option (BitVec 6)) (pc : Word) (hr : r.Sound State.Inv) :
    ∃ t, finish opcode pc s r = .next t ∧ t.Inv := by
  cases r with
  | ok t => exact ⟨t, rfl, hr⟩
  | raise k x => exact ⟨_, rfl, inv_haltWith h _⟩
  | absent a => exact hr.elim

theorem complete_sound {r : Res State} (op : Op) (hr : r.Sound State.Inv) :
    ∃ t, complete op s r = .next t ∧ t.Inv := finish_sound h _ _ hr

theorem inv_branchIf (c : Bool) (off : Int) : (branchIf c off s).Inv := by
  unfold branchIf
  split
  · exact inv_setPc h _
  · exact h

/-- In a sound state every instruction answers a next state, and a sound one. -/
theorem exec_sound (i : Instr) : ∃ t, exec i s = .next t ∧ t.Inv := by
  cases i with
  | add rd src | sub rd src | mul rd src | and rd src | or rd src | xor rd src | shl rd src | shr rd src =>
    exact ⟨_, rfl, inv_setFlags (inv_setReg h _ _) _⟩
  | div rd src | mod rd src => exact complete_sound h _ (runDivision_sound h _ _ _)
  | cmp rd src => exact ⟨_, rfl, inv_setFlags h _⟩
  | mov rd src => exact ⟨_, rfl, inv_setReg h _ _⟩
  | ldr rd rb imm => exact complete_sound h _ ((memRead_sound _ _).bind fun _ _ => inv_setReg h _ _)
  | str rd rb imm =>
    exact complete_sound h _ ((memWrite_sound h _ _).bind fun _ ht => notifyFramebuffer_sound ht _)
  | push mask => exact complete_sound h _ (pushRegs_sound h _ _ _)
  | pop mask => exact complete_sound h _ (popRegs_sound h _ _ _)
  | jmp off => exact ⟨_, rfl, inv_setPc h _⟩
  | beq off | bne off | blt off | bge off | bgt off | ble off | bcs off | bcc off =>
    exact ⟨_, rfl, inv_branchIf h _ _⟩
  | call off => exact complete_sound h _ ((pushWord_sound h _ _).bind fun _ ht => inv_setPc ht _)
  | ret => exact complete_sound h _ ((popWord_sound h _).bind fun _ hp => inv_setPc hp _)
  | int n =>
    by_cases hm : s.mode = .bios
    · exact ⟨_, if_pos hm, inv_setPc (inv_setMode h _) _⟩
    · rw [show exec (.int n) s = complete .int s (softwareInterrupt n s) from if_neg hm]
      exact complete_sound h _ (softwareInterrupt_sound h _)
  | iret => exact complete_sound h _ (trapReturn_sound h _)
  | hlt => exact ⟨_, rfl, inv_setRunning_false h⟩

theorem dispatchInterrupt_sound : ∃ t, dispatchInterrupt s = .next t ∧ t.Inv :=
  finish_sound h _ _ (trapEntry_sound (inv_setFlags h _) _ _ _)

/-- In a sound state a step answers a next state, and a sound one. -/
theorem step_sound : ∃ t, step s = .next t ∧ t.Inv := by
  have htick := inv_tick h
  rcases step_cases s with ⟨-, hs⟩ | ⟨-, -, hs⟩ | ⟨-, -, r, hs, -⟩ | ⟨i, -, hs⟩
  · exact ⟨s, hs, h⟩
  · rw [hs]; exact dispatchInterrupt_sound htick
  · exact ⟨_, hs, inv_haltWith htick r⟩
  · rw [hs]; exact exec_sound (inv_setPc htick _) i

end Operations

end Sys2Proof.Machine

/-! SUPPORT. The frames of all instructions, read off the shapes of their next states (Laws/Exec.lean): what each field
of the state can come to be under an instruction (10_state.md R21 to R30; 60_exceptions.md R231, R232). -/

namespace Sys2Proof.Machine

section Frames

variable {i : Instr} {s t : State} (h : exec i s = .next t)
include h

/-- No instruction writes the parameters, ROM, the latch or the cycle counter. -/
theorem exec_keeps_launch : t.cfg = s.cfg ∧ t.rom = s.rom ∧ t.irqNum = s.irqNum ∧ t.cycle = s.cycle := by
  cases exec_effect h <;> exact ⟨rfl, rfl, rfl, rfl⟩

theorem exec_keeps_getReg {r : Reg} (hr : ¬ writesReg i r) : t.getReg r = s.getReg r := by
  cases exec_effect h with
  | result rd v f hd hi hz hc =>
    have hne : r ≠ rd := fun e => hr (e ▸ hd)
    rw [State.getReg_setFlags, State.getReg_setReg_ne _ _ hne]
  | pop p R hop hR => exact hR r hr
  | _ => rfl

theorem exec_keeps_zn (hi : ¬ writesZN i.op) : t.flags.z = s.flags.z ∧ t.flags.n = s.flags.n := by
  cases exec_effect h with
  | result rd v f hd _ hz hc => exact hz hi
  | compare f hop | iret p q m w hop => exact absurd (by simp [hop, writesZN]) hi
  | _ => exact ⟨rfl, rfl⟩

theorem exec_keeps_cv (hi : ¬ writesCV i.op) : t.flags.c = s.flags.c ∧ t.flags.v = s.flags.v := by
  cases exec_effect h with
  | result rd v f hd _ hz hc => exact hc hi
  | compare f hop | iret p q m w hop => exact absurd (by simp [hop, writesCV]) hi
  | _ => exact ⟨rfl, rfl⟩

theorem exec_keeps_ie (hi : ¬ writesIE i.op) : t.flags.ie = s.flags.ie := by
  cases exec_effect h with
  | result rd v f hd hi' hz hc => exact hi'.1
  | compare f hop hi' => exact hi'.1
  | trap p m q hop | iret p q m w hop => exact absurd (by simp [hop, writesIE]) hi
  | _ => rfl

/-- IP is set by the tick and cleared by a dispatch, and written by no instruction. -/
theorem exec_keeps_ip : t.flags.ip = s.flags.ip := by
  cases exec_effect h with
  | result rd v f hd hi hz hc => exact hi.2
  | compare f hop hi => exact hi.2
  | _ => rfl

theorem exec_keeps_sp (hi : ¬ movesSp i.op) : t.sp = s.sp := by
  cases exec_effect h with
  | pop p R hop | push p m hop | call p m q hop | ret p q hop | trap p m q hop | iret p q m w hop =>
    exact absurd (by simp [hop, movesSp]) hi
  | _ => rfl

theorem exec_keeps_ram (hi : ¬ storesRam i.op) : t.ram = s.ram := by
  cases exec_effect h with
  | store m e hop | push p m hop | call p m q hop | trap p m q hop =>
    exact absurd (by simp [hop, storesRam]) hi
  | _ => rfl

theorem exec_keeps_mode (hint : i.op ≠ .int) (hiret : i.op ≠ .iret) : t.mode = s.mode := by
  cases exec_effect h with
  | handoff hop | trap p m q hop => exact absurd hop hint
  | iret p q m w hop => exact absurd hop hiret
  | _ => rfl

theorem exec_keeps_fbEvents (hi : i.op ≠ .str) : t.fbEvents = s.fbEvents := by
  cases exec_effect h with
  | store m e hop => exact absurd hop hi
  | _ => rfl

/-- An instruction leaves the fault record as it is, or faults with a kind R231 lists for it. -/
theorem exec_fault_cases :
    t.fault = s.fault ∨
    ∃ k x, (s.cfg.valid = true → k ∈ mayRaise i.op) ∧ t = faultedAt s k i.op.opcode x := by
  cases exec_effect h with
  | fault k x hk => exact .inr ⟨k, x, hk, rfl⟩
  | _ => exact .inl rfl

/-- Of the instructions that complete only HLT ends the run. -/
theorem op_eq_hlt_of_exec (hr : s.running = true) (ht : t.running = false) (hf : t.fault = none) : i.op = .hlt := by
  cases exec_effect h with
  | fault k x hk => cases hf
  | halt hop => exact hop
  | _ => exact nomatch hr.symm.trans ht

end Frames

theorem eq_hlt_of_op {i : Instr} (h : i.op = .hlt) : i = .hlt := by
  cases i with
  | hlt => rfl
  | _ => cases h

theorem eq_iret_of_op {i : Instr} (h : i.op = .iret) : i = .iret := by
  cases i with
  | iret => rfl
  | _ => cases h

theorem eq_int_of_op {i : Instr} (h : i.op = .int) : ∃ n, i = .int n := by
  cases i with
  | int n => exact ⟨n, rfl⟩
  | _ => cases h

/-! ### The mode and the operations -/

/-- Apply `f` to the value of an operation that completes. -/
def Res.map {α β : Type} (f : α → β) (r : Res α) : Res β := r.bind fun a => .ok (f a)

theorem Res.map_ite {α β : Type} (f : α → β) (c : Prop) [Decidable c] (r r' : Res α) :
    (if c then r else r').map f = if c then r.map f else r'.map f := by
  split <;> rfl

/-- Operations that commute with changes of the state are composed of parts that do. -/
theorem Res.bind_map_comm {α β : Type} {f : α → α} {f' : β → β} {g g' : α → Res β} {r r' : Res α}
    (hr : r' = r.map f) (hg : ∀ a, g' (f a) = (g a).map f') : r'.bind g' = (r.bind g).map f' := by
  subst hr
  cases r with
  | ok a => exact hg a
  | raise k x => rfl
  | absent a => rfl

section SetMode

variable (m : Mode) (s : State)

theorem pushWord_setMode (sp0 v : Word) :
    pushWord sp0 v (s.setMode m) = (pushWord sp0 v s).map (State.setMode · m) := by
  simp only [pushWord, Res.map_ite]
  rfl

theorem popWord_setMode (sp0 : Word) :
    popWord sp0 (s.setMode m) = (popWord sp0 s).map fun p => (p.1, p.2.setMode m) := by
  simp only [popWord, Res.map_ite]
  rfl

theorem pushRegs_setMode (mask : Nat) (sp0 : Word) (L : List Reg) :
    pushRegs mask sp0 L (s.setMode m) = (pushRegs mask sp0 L s).map (State.setMode · m) := by
  induction L generalizing s with
  | nil => rfl
  | cons r L ih =>
    unfold pushRegs
    split
    · exact Res.bind_map_comm (pushWord_setMode m s sp0 _) fun t => ih t
    · exact ih s

theorem popRegs_setMode (mask : Nat) (sp0 : Word) (L : List Reg) :
    popRegs mask sp0 L (s.setMode m) = (popRegs mask sp0 L s).map (State.setMode · m) := by
  induction L generalizing s with
  | nil => rfl
  | cons r L ih =>
    unfold popRegs
    split
    · exact Res.bind_map_comm (popWord_setMode m s sp0) fun p => ih (p.2.setReg r p.1)
    · exact ih s

theorem memWrite_setMode (a v : Word) : memWrite a v (s.setMode m) = (memWrite a v s).map (State.setMode · m) := by
  simp only [memWrite, Res.map_ite]
  rfl

theorem memRead_setMode (a : Word) : memRead a (s.setMode m) = (memRead a s).map id := by
  simp only [memRead, Res.map_ite]
  rfl

theorem notifyFramebuffer_setMode (a : Nat) :
    notifyFramebuffer a (s.setMode m) = (notifyFramebuffer a s).map (State.setMode · m) := by
  unfold notifyFramebuffer
  rw [State.cfg_setMode]
  split_ifs
  · cases hrow : rowSlice a s <;>
      rw [show rowSlice a (s.setMode m) = rowSlice a s from rfl, hrow] <;> rfl
  · rfl

theorem runDivision_setMode (f : Word → Word → Flags → Option AluOut) (rd : Reg) (src : Src) :
    runDivision f rd src (s.setMode m) = (runDivision f rd src s).map (State.setMode · m) := by
  have hsrc : (s.setMode m).srcValue src = s.srcValue src := by cases src <;> rfl
  simp only [runDivision, hsrc, State.getReg_setMode, State.flags_setMode]
  split <;> rfl

theorem branchIf_setMode (c : Bool) (off : Int) : branchIf c off (s.setMode m) = (branchIf c off s).setMode m := by
  unfold branchIf
  split <;> rfl

/-- A trap return takes the mode from its frame, so the mode it starts in is lost (R211). -/
theorem trapReturn_setMode (sp0 : Word) : trapReturn sp0 (s.setMode m) = trapReturn sp0 s := by
  unfold trapReturn
  rw [popWord_setMode]
  cases popWord sp0 s with
  | ok p =>
    simp only [Res.map, Res.bind_ok]
    rw [popWord_setMode]
    cases popWord sp0 p.2 <;> rfl
  | raise k x => rfl
  | absent a => rfl

end SetMode

section CompleteSetMode

variable {m : Mode} {s t : State}

theorem complete_setMode {op : Op} {r r' : Res State} (hr : r' = r.map (State.setMode · m))
    (h : complete op s r = .next t) : complete op (s.setMode m) r' = .next (t.setMode m) := by
  subst hr
  cases r with
  | ok u => cases h; rfl
  | raise k x => cases h; rfl
  | absent a => cases h

/-- An instruction other than INT and IRET neither reads nor writes the mode. -/
theorem exec_setMode {i : Instr} (hint : i.op ≠ .int) (hiret : i.op ≠ .iret) (h : exec i s = .next t) :
    exec i (s.setMode m) = .next (t.setMode m) := by
  cases i with
  | add rd src | sub rd src | mul rd src | and rd src | or rd src | xor rd src | shl rd src | shr rd src
  | cmp rd src | mov rd src => cases h; cases src <;> rfl
  | div rd src | mod rd src => exact complete_setMode (runDivision_setMode m s _ rd src) h
  | ldr rd rb imm => exact complete_setMode (Res.bind_map_comm (memRead_setMode m s _) fun _ => rfl) h
  | str rd rb imm =>
    exact complete_setMode
      (Res.bind_map_comm (memWrite_setMode m s _ _) fun u => notifyFramebuffer_setMode m u _) h
  | push mask => exact complete_setMode (pushRegs_setMode m s mask s.sp regsLowToHigh) h
  | pop mask => exact complete_setMode (popRegs_setMode m s mask s.sp regsHighToLow) h
  | jmp off | hlt => cases h; rfl
  | beq off | bne off | blt off | bge off | bgt off | ble off | bcs off | bcc off =>
    cases h
    exact congrArg _ (branchIf_setMode m s _ off)
  | call off => exact complete_setMode (Res.bind_map_comm (pushWord_setMode m s s.sp s.pc) fun _ => rfl) h
  | ret => exact complete_setMode (Res.bind_map_comm (popWord_setMode m s s.sp) fun _ => rfl) h
  | int n => exact absurd rfl hint
  | iret => exact absurd rfl hiret

/-- IRET completes in the same state from every mode; where it faults, the mode stays. -/
theorem exec_iret_setMode (m : Mode) (h : exec .iret s = .next t) :
    (t.fault = s.fault ∧ exec .iret (s.setMode m) = .next t) ∨
    (t.fault ≠ none ∧ exec .iret (s.setMode m) = .next (t.setMode m)) := by
  have heq : exec .iret (s.setMode m) = complete .iret (s.setMode m) (trapReturn s.sp s) := by
    rw [exec_iret, State.sp_setMode, trapReturn_setMode]
  rw [heq]
  rcases complete_eq_next h with hr | ⟨k, x, hr, rfl⟩
  · obtain ⟨p, q, m', w, rfl⟩ := trapReturn_eq_ok hr
    exact .inl ⟨rfl, by rw [hr, complete_ok]⟩
  · exact .inr ⟨Option.some_ne_none _, by rw [hr, complete_raise]; rfl⟩

end CompleteSetMode

end Sys2Proof.Machine

/-! What each instruction changes, what a fault commits, and the mode (10_state.md R21 to R30; 60_exceptions.md
R231, R232; 44_system.md R213). -/

namespace Sys2Proof.Machine

/-- Settles O17, from the shapes of the next states: a written register is the instruction's destination. -/
theorem registersWrittenOnlyByDestination : Obligations.RegistersWrittenOnlyByDestination :=
  fun _ _ _ _ h hr => exec_keeps_getReg h hr

/-- Settles O18, flag by flag. -/
theorem flagsWrittenOnlyAsNamed : Obligations.FlagsWrittenOnlyAsNamed :=
  fun _ _ _ h => ⟨exec_keeps_zn h, exec_keeps_cv h, exec_keeps_ie h, exec_keeps_ip h⟩

/-- Settles O19, field by field; the whole RAM list is kept, so every word of it is. -/
theorem otherStateWrittenOnlyAsNamed : Obligations.OtherStateWrittenOnlyAsNamed := by
  intro i s t h
  obtain ⟨hcfg, hrom, hirq, hcycle⟩ := exec_keeps_launch h
  exact ⟨exec_keeps_sp h, fun hi a => congrArg (Mem.read · a) (exec_keeps_ram h hi), exec_keeps_mode h,
    exec_keeps_fbEvents h, hirq, hcycle, hrom, hcfg⟩

/-- Settles O20: a new record can only be that of the instruction's own fault. -/
theorem faultCommitsNothingElse : Obligations.FaultCommitsNothingElse := by
  intro i s t h hs ht
  rcases exec_fault_cases h with hkept | ⟨k, x, -, rfl⟩
  · exact absurd (hkept.trans hs) ht
  · exact ⟨k, x, rfl⟩

/-- Settles O21: a new record can only be that of the instruction's own fault, whose kind R231 lists. -/
theorem instructionFaultKinds : Obligations.InstructionFaultKinds := by
  intro i s t r hc h hs ht
  rcases exec_fault_cases h with hkept | ⟨k, x, hk, rfl⟩
  · exact nomatch (hkept.trans hs).symm.trans ht
  · cases ht
    exact hk hc

/-- Settles O22: changing the mode before an instruction is changing it afterwards, but for a completed IRET, which
overwrites it. -/
theorem instructionsIgnoreMode : Obligations.InstructionsIgnoreMode := by
  intro i s t m hint hs h
  by_cases hiret : i.op = .iret
  case neg => exact ⟨t.setMode m, exec_setMode hint hiret h, rfl, by simp [hiret]⟩
  case pos =>
    obtain rfl := eq_iret_of_op hiret
    rcases exec_iret_setMode m h with ⟨hf, hu⟩ | ⟨hf, hu⟩
    · exact ⟨t, hu, rfl, by rw [if_pos ⟨rfl, hf.trans hs⟩]⟩
    · exact ⟨t.setMode m, hu, rfl, by rw [if_neg fun hc => hf hc.2]; rfl⟩

end Sys2Proof.Machine

/-! SUPPORT. The status word as a number (10_state.md R28), the trap entry and the dispatch whose frame does not fit
(60_exceptions.md R232, R241), and one equation per outcome of INT (44_system.md R210). -/

namespace Sys2Proof.Machine

/-- The status word is its flag byte and mode, each bit with its own weight (R28). -/
theorem toNat_statusWord (s : State) :
    s.statusWord.toNat = 256 * s.mode.toBits.toNat + 32 * s.flags.ip.toNat + 16 * s.flags.ie.toNat +
      8 * s.flags.v.toNat + 4 * s.flags.n.toNat + 2 * s.flags.c.toNat + s.flags.z.toNat := by
  have key : ∀ (m : Mode) (z c n v ie ip : Bool),
      (m.toBits.setWidth 32 <<< 8 ||| (Flags.toByte ⟨z, c, n, v, ie, ip⟩).setWidth 32).toNat =
        256 * m.toBits.toNat + 32 * ip.toNat + 16 * ie.toNat + 8 * v.toNat + 4 * n.toNat + 2 * c.toNat + z.toNat := by
    intro m; cases m <;> decide
  exact key s.mode s.flags.z s.flags.c s.flags.n s.flags.v s.flags.ie s.flags.ip

/-! ### A frame that does not fit -/

/-- Without room for its two words, the entry raises StackOverflow with sp as it was (R181, R241). -/
theorem trapEntry_of_lt_two {s : State} {n : Word} (ret : Word) (hc : s.cfg.valid = true)
    (hsp : s.sp.toNat ≤ s.cfg.ramWords) (hwf : Mem.wf s.ram) (hn : n.toNat < 16) (hfull : s.sp.toNat < 2) :
    trapEntry n ret s.sp s = .raise .stackOverflow (some (.word s.sp)) := by
  rcases trapEntry_cases n ret s hc hsp hwf hn with ⟨-, ht⟩ | ⟨hroom, -⟩
  · exact ht
  · exact absurd hfull (not_lt.2 hroom)

/-- Without room for its two words, a dispatch halts with no opcode and the pc it found (R232, R233). -/
theorem dispatchInterrupt_of_lt_two {s : State} (h : s.Inv) (hfull : s.sp.toNat < 2) :
    dispatchInterrupt s = .next (s.haltWith ⟨.stackOverflow, s.pc, none, some (.word s.sp)⟩) := by
  have ht := trapEntry_of_lt_two (s := s.setFlags { s.flags with ip := false }) (n := 0) s.pc h.cfg h.sp h.ramWf
    (by decide) hfull
  rw [State.sp_setFlags] at ht
  rw [dispatchInterrupt, h.irqNum, ht, finish]

/-! ### The outcomes of INT -/

/-- A number that names a vector is its own 32-bit word. -/
theorem toNat_signedWord_of_vector {n : Int} (h0 : 0 ≤ n) (h16 : n < 16) : (signedWord n).toNat = n.toNat := by
  rw [signedWord, BitVec.toNat_ofInt]
  omega

section Outcomes

variable {n : Int} {s : State}

/-- INT in BIOS mode is the handoff, whatever its number (R252). -/
theorem exec_int_of_bios (n : Int) (hm : s.mode = .bios) : exec (.int n) s = .next ((s.setMode .kernel).setPc 0) :=
  if_pos hm

theorem exec_int_of_not_bios (n : Int) (hm : s.mode ≠ .bios) :
    exec (.int n) s = complete .int s (softwareInterrupt n s) := if_neg hm

theorem softwareInterrupt_of_vector (hn : 0 ≤ n ∧ n < 16) :
    softwareInterrupt n s = trapEntry (signedWord n) s.pc s.sp s := if_pos hn

theorem softwareInterrupt_of_not_vector (hn : ¬ (0 ≤ n ∧ n < 16)) :
    softwareInterrupt n s = .raise .invalidInterruptNumber (some (.number n)) := if_neg hn

/-- INT of a number that names no vector halts (R210). -/
theorem exec_int_of_not_vector (hm : s.mode ≠ .bios) (hn : ¬ (0 ≤ n ∧ n < 16)) :
    exec (.int n) s = .next (faultedAt s .invalidInterruptNumber Op.int.opcode (some (.number n))) := by
  rw [exec_int_of_not_bios n hm, softwareInterrupt_of_not_vector hn, complete_raise]

/-- INT of a number that names a vector is the entry of its trap, with return address ia + 1 (R210). -/
theorem exec_int_of_vector (hm : s.mode ≠ .bios) (hn : 0 ≤ n ∧ n < 16) :
    exec (.int n) s = complete .int s (trapEntry (signedWord n) s.pc s.sp s) := by
  rw [exec_int_of_not_bios n hm, softwareInterrupt_of_vector hn]

variable (hc : s.cfg.valid = true) (hsp : s.sp.toNat ≤ s.cfg.ramWords) (hwf : Mem.wf s.ram)
  (hm : s.mode ≠ .bios) (hn : 0 ≤ n ∧ n < 16)
include hc hsp hwf hm hn

/-- INT whose frame does not fit halts (R210). -/
theorem exec_int_of_lt_two (hfull : s.sp.toNat < 2) :
    exec (.int n) s = .next (faultedAt s .stackOverflow Op.int.opcode (some (.word s.sp))) := by
  have hword : (signedWord n).toNat < 16 := by rw [toNat_signedWord_of_vector hn.1 hn.2]; omega
  rw [exec_int_of_vector hm hn, trapEntry_of_lt_two s.pc hc hsp hwf hword hfull, complete_raise]

/-- INT with room for its frame enters the trap of its vector (R210, R241). -/
theorem exec_int_of_two_le (hroom : 2 ≤ s.sp.toNat) :
    ∃ t, exec (.int n) s = .next t ∧ TrapEntered s n.toNat s.pc t := by
  have hnat := toNat_signedWord_of_vector hn.1 hn.2
  obtain ⟨t, ht, hentered⟩ := trapEntry_of_two_le (n := signedWord n) s.pc hc hsp hwf (by omega) hroom
  exact ⟨t, by rw [exec_int_of_vector hm hn, ht, complete_ok], hnat ▸ hentered⟩

end Outcomes

theorem exec_hlt (s : State) : exec .hlt s = .next (s.setRunning false) := rfl

end Sys2Proof.Machine

/-! The status word, INT with its return, and HLT (10_state.md R28; 44_system.md R210 to R212). -/

namespace Sys2Proof.Machine

/-- Settles O45. -/
theorem statusWordLayout : Obligations.StatusWordLayout := toNat_statusWord

/-- Settles O46: the mode, the number and the room on the stack are tested in R210's order. -/
theorem intFollowsRule : Obligations.IntFollowsRule :=
  ⟨decodedI_of_decodeOperands .int fun _ => rfl, fun n _ hc hsp hwf =>
    ⟨exec_int_of_bios n, exec_int_of_not_vector, fun hm hn => exec_int_of_lt_two hc hsp hwf hm hn,
      fun hm hn => exec_int_of_two_le hc hsp hwf hm hn⟩⟩

/-- Settles O48: the frame the INT left holds the return pc at sp and the status word above it, and an IRET that finds
both restores from them what they were built of. -/
theorem trapThenIretResumes : Obligations.TrapThenIretResumes := by
  intro n s t u hc hsp hwf hm hn hroom ht hcfg husp hret hstatus
  obtain ⟨t', ht', hentered⟩ := exec_int_of_two_le hc hsp hwf hm hn hroom
  obtain rfl : t' = t := by cases ht'.symm.trans ht; rfl
  have htcfg := hentered.cfg
  have htsp := hentered.sp
  have hpc : u.ramWord u.sp.toNat = s.pc := by rw [husp, hret, htsp, hentered.ret]
  have hst : u.ramWord (u.sp.toNat + 1) = s.statusWord := by
    rw [husp, hstatus, htsp, show s.sp.toNat - 2 + 1 = s.sp.toNat - 1 by omega, hentered.status]
  have hle : u.sp.toNat + 2 ≤ u.cfg.ramWords := by rw [husp, hcfg, htsp, htcfg]; omega
  obtain ⟨hexec, hup⟩ := exec_iret_of_statusMode_some (s := u) (m := s.mode) (by rw [hcfg, htcfg]; exact hc) hle
    (by rw [hst]; exact statusMode_statusWord s)
  refine ⟨_, hexec, hpc, rfl, BitVec.eq_of_toNat_eq ?_, ?_, fun _ => rfl⟩
  · have : u.sp.toNat + 2 = s.sp.toNat := by rw [husp, htsp]; omega
    exact hup.trans this
  · rw [State.flags_setFlags, hst, Flags.restore_statusWord]

/-- Settles O49. -/
theorem hltFollowsRule : Obligations.HltFollowsRule :=
  ⟨decodedR_of_decodeOperands .hlt fun _ => rfl, fun s hs =>
    ⟨_, exec_hlt s, rfl, hs, rfl, rfl, rfl, rfl, rfl, rfl, rfl, rfl, rfl, fun _ => rfl, fun _ => rfl,
      step_of_not_running rfl⟩⟩

end Sys2Proof.Machine

/-! SUPPORT. The step by cases: what its fetch reads, the step that executes the fetched instruction and the step that
halts at the fetch (20_memory.md R52; 60_exceptions.md R240), and what no step changes. -/

namespace Sys2Proof.Machine

/-! ### What a fetch reads -/

/-- In BIOS mode with a ROM a fetch reads ROM below ROM_WORDS (R52). -/
theorem fetchRead_of_rom {s : State} {rom : Mem} (a : Word) (hm : s.mode = .bios) (hrom : s.rom = some rom) :
    fetchRead a s = if a.toNat < s.cfg.romWords then some (Mem.read rom a.toNat) else none := by
  rw [fetchRead, hm, hrom]

/-- In every other case a fetch reads RAM below RAM_WORDS (R52). -/
theorem fetchRead_of_ram {s : State} (a : Word) (h : s.mode ≠ .bios ∨ s.rom = none) :
    fetchRead a s = if a.toNat < s.cfg.ramWords then some (s.ramWord a.toNat) else none := by
  unfold fetchRead
  split
  case h_1 rom hm hrom =>
    rcases h with h | h
    · exact absurd hm h
    · exact nomatch h.symm.trans hrom
  case h_2 => rfl

/-! ### The step with no interrupt due -/

section NoInterrupt

variable {s : State} (hr : s.running = true) (hi : interruptDue (tick s) = false)
include hr hi

/-- A fetch that gives an instruction runs it on the ticked state with pc advanced (R240, R92). -/
theorem step_of_decode_instr {w : Word} {i : Instr} (hw : fetchRead s.pc s = some w) (hd : decode w = .instr i) :
    step s = exec i ((tick s).setPc (s.pc + 1)) := by
  obtain ⟨-, -, -, hpc, -⟩ := tick_frame s
  have hf : fetch (tick s) = .instr i ((tick s).setPc (s.pc + 1)) := by
    simp [fetch, hpc, hw, hd]
  simp [step, hr, hi, hf]

/-- A fetch outside the fetch space halts the ticked state, its pc unchanged (R90, R232). -/
theorem step_of_fetchRead_none (hw : fetchRead s.pc s = none) :
    step s = .next { tick s with
      running := false, fault := some ⟨.memoryOutOfBounds, s.pc, none, some (.word s.pc)⟩ } := by
  obtain ⟨-, -, -, hpc, -⟩ := tick_frame s
  have hf : fetch (tick s) =
      .halted ((tick s).haltWith ⟨.memoryOutOfBounds, s.pc, none, some (.word s.pc)⟩) := by
    simp [fetch, hpc, hw]
  rw [step_of_fetch_halted hr hi hf, haltWith_of_pc_eq hpc.symm]

end NoInterrupt

/-! ### What no step changes -/

/-- A dispatch writes neither the parameters, ROM nor the cycle counter. -/
theorem dispatchInterrupt_keeps_launch {s t : State} (h : dispatchInterrupt s = .next t) :
    t.cfg = s.cfg ∧ t.rom = s.rom ∧ t.cycle = s.cycle := by
  rcases dispatchInterrupt_eq_next h with ⟨p, m, q, f, rfl⟩ | ⟨k, x, rfl⟩ <;> exact ⟨rfl, rfl, rfl⟩

/-- A dispatch leaves the machine running, or a record. -/
theorem dispatchInterrupt_running {s t : State} (h : dispatchInterrupt s = .next t) :
    t.running = s.running ∨ t.fault ≠ none := by
  rcases dispatchInterrupt_eq_next h with ⟨p, m, q, f, rfl⟩ | ⟨k, x, rfl⟩
  · exact .inl rfl
  · exact .inr (Option.some_ne_none _)

/-- A step writes neither the parameters nor ROM, and counts itself if the machine runs (R30, R33, R54). -/
theorem step_keeps_launch {s t : State} (h : step s = .next t) :
    t.cfg = s.cfg ∧ t.rom = s.rom ∧ t.cycle = if s.running then s.cycle + 1 else s.cycle := by
  obtain ⟨hcycle, hcfg, -, -, -, -, -, -, -, hrom, -⟩ := tick_frame s
  rcases step_cases s with ⟨hr, hs⟩ | ⟨hr, -, hs⟩ | ⟨hr, -, r, hs, -⟩ | ⟨i, ⟨hr, -⟩, hs⟩ <;> rw [hs] at h
  · cases h
    exact ⟨rfl, rfl, by rw [hr]; rfl⟩
  · obtain ⟨h1, h2, h3⟩ := dispatchInterrupt_keeps_launch h
    exact ⟨h1.trans hcfg, h2.trans hrom, by rw [h3, hcycle, if_pos hr]⟩
  · cases h
    exact ⟨hcfg, hrom, by rw [if_pos hr]; exact hcycle⟩
  · obtain ⟨h1, h2, -, h3⟩ := exec_keeps_launch h
    exact ⟨h1.trans hcfg, h2.trans hrom, by rw [h3, if_pos hr]; exact hcycle⟩

/-! ### The byte views of the mode and the flags -/

/-- A mode is never the value 3 (R29). -/
theorem Mode.toBits_le (m : Mode) : m.toBits.toNat ≤ 2 := by cases m <;> decide

/-- Bits 6 and 7 of the flag register read 0 (R24). -/
theorem Flags.toByte_high (f : Flags) : f.toByte.getLsbD 6 = false ∧ f.toByte.getLsbD 7 = false := by
  have key : ∀ z c n v ie ip : Bool, (Flags.toByte ⟨z, c, n, v, ie, ip⟩).getLsbD 6 = false ∧
      (Flags.toByte ⟨z, c, n, v, ie, ip⟩).getLsbD 7 = false := by decide
  exact key f.z f.c f.n f.v f.ie f.ip

/-! ### The mode under a step -/

/-- A dispatch that changes the mode had room for its frame and entered BIOS mode (R255). -/
theorem dispatchInterrupt_mode_ne {s t : State} (h : s.Inv) (ht : dispatchInterrupt s = .next t)
    (hne : t.mode ≠ s.mode) : 2 ≤ s.sp.toNat ∧ t.mode = .bios := by
  by_cases hroom : 2 ≤ s.sp.toNat
  · obtain ⟨t', ht', hentered⟩ := dispatchInterrupt_of_two_le h hroom
    cases ht'.symm.trans ht
    exact ⟨hroom, hentered.mode⟩
  · cases (dispatchInterrupt_of_lt_two h (not_le.1 hroom)).symm.trans ht
    exact absurd rfl hne

/-- An INT that changes the mode is the handoff, or the trap of a vector with room for its frame (R255). -/
theorem exec_int_mode_ne {n : Int} {s t : State} (h : s.Inv) (ht : exec (.int n) s = .next t)
    (hne : t.mode ≠ s.mode) :
    (s.mode = .bios ∧ t.mode = .kernel ∧ t.pc = 0 ∧ t.sp = s.sp) ∨
    (s.mode ≠ .bios ∧ 0 ≤ n ∧ n < 16 ∧ 2 ≤ s.sp.toNat ∧ t.mode = .bios) := by
  by_cases hm : s.mode = .bios
  · cases (exec_int_of_bios n hm).symm.trans ht
    exact .inl ⟨hm, rfl, rfl, rfl⟩
  by_cases hn : 0 ≤ n ∧ n < 16
  · by_cases hroom : 2 ≤ s.sp.toNat
    · obtain ⟨t', ht', hentered⟩ := exec_int_of_two_le h.cfg h.sp h.ramWf hm hn hroom
      cases ht'.symm.trans ht
      exact .inr ⟨hm, hn.1, hn.2, hroom, hentered.mode⟩
    · cases (exec_int_of_lt_two h.cfg h.sp h.ramWf hm hn (not_le.1 hroom)).symm.trans ht
      exact absurd rfl hne
  · cases (exec_int_of_not_vector hm hn).symm.trans ht
    exact absurd rfl hne

/-- An IRET that changes the mode found its two words and took the mode from the second (R255). -/
theorem exec_iret_mode_ne {s t : State} (hc : s.cfg.valid = true) (ht : exec .iret s = .next t)
    (hne : t.mode ≠ s.mode) :
    s.sp.toNat + 2 ≤ s.cfg.ramWords ∧ t.mode.toBits = (s.ramWord (s.sp.toNat + 1)).extractLsb' 8 2 := by
  by_cases hle : s.sp.toNat + 2 ≤ s.cfg.ramWords
  · cases hst : statusMode (s.ramWord (s.sp.toNat + 1)) with
    | none =>
      cases (exec_iret_of_statusMode_none hc hle hst).symm.trans ht
      exact absurd rfl hne
    | some m =>
      cases (exec_iret_of_statusMode_some hc hle hst).1.symm.trans ht
      exact ⟨hle, toBits_of_statusMode hst⟩
  · cases (exec_iret_of_lt hc (not_le.1 hle)).symm.trans ht
    exact absurd rfl hne

end Sys2Proof.Machine

/-! The step and its invariant (10_state.md R36; 60_exceptions.md R240 to R255; 70_reset_and_hazards.md R277). -/

namespace Sys2Proof.Machine

/-- Settles O5: the step answers a sound state, and the rest of the claim is the byte views and the step's own count. -/
theorem stepKeepsInvariant : Obligations.StepKeepsInvariant := by
  intro s t hinv h
  obtain ⟨t', ht', hinv'⟩ := step_sound hinv
  cases ht'.symm.trans h
  obtain ⟨h6, h7⟩ := t.flags.toByte_high
  exact ⟨hinv', t.mode.toBits_le, h6, h7, (step_keeps_launch h).2.2⟩

/-- Settles O6. -/
theorem stepAlwaysAnswers : Obligations.StepAlwaysAnswers := by
  intro s hinv
  obtain ⟨t, ht, -⟩ := step_sound hinv
  exact ⟨t, ht⟩

/-- Settles O7. -/
theorem stepNeverWritesRom : Obligations.StepNeverWritesRom := by
  intro s t h
  obtain ⟨hcfg, hrom, -⟩ := step_keeps_launch h
  exact ⟨hrom, hcfg⟩

/-- Settles O9. -/
theorem stepRunsDecodedInstruction : Obligations.StepRunsDecodedInstruction :=
  fun _ _ _ hr hi hw hd => step_of_decode_instr hr hi hw hd

/-- Settles O10, from the two cases of the tick. -/
theorem tickFollowsRule : Obligations.TickFollowsRule := by
  intro s
  obtain ⟨hcycle, hcfg, hregs, hpc, hsp, hmode, hrun, hfault, hram, hrom, hfb, -⟩ := tick_frame s
  refine ⟨hcycle, fun hm => ?multiple, fun hm => ?other, fun r => ?regs, fun a => congrArg (Mem.read · a) hram,
    hpc, hsp, hmode, hrun, hfault, hrom, hcfg, hfb⟩
  case multiple =>
    rcases tick_cases s with ⟨-, h⟩ | ⟨hn, -⟩
    · rw [h]; exact ⟨rfl, rfl⟩
    · exact absurd hm hn
  case other =>
    rcases tick_cases s with ⟨h0, -⟩ | ⟨-, h⟩
    · exact absurd h0 hm
    · rw [h]; exact ⟨rfl, rfl⟩
  case regs => rw [State.getReg, hregs, State.getReg]

/-- Settles O12: both arrays are read below their size, and from there on the fetch has no word. -/
theorem fetchOutsideSpaceHalts : Obligations.FetchOutsideSpaceHalts := by
  intro s hr hi
  refine ⟨fun rom hm hrom => ⟨fun hlt => ?_, fun hle => ?_⟩, fun h => ⟨fun hlt => ?_, fun hle => ?_⟩⟩
  · rw [fetchRead_of_rom _ hm hrom, if_pos hlt]
  · exact step_of_fetchRead_none hr hi (by rw [fetchRead_of_rom _ hm hrom, if_neg (not_lt.2 hle)])
  · rw [fetchRead_of_ram _ h, if_pos hlt]
  · exact step_of_fetchRead_none hr hi (by rw [fetchRead_of_ram _ h, if_neg (not_lt.2 hle)])

/-- Settles O14: the tick keeps the invariant, pc and sp, and the dispatch of the ticked state has no room. -/
theorem dispatchOverflowHalts : Obligations.DispatchOverflowHalts := by
  intro s hinv hr hi hfull
  obtain ⟨-, -, -, hpc, hsp, -⟩ := tick_frame s
  have hd := dispatchInterrupt_of_lt_two (inv_tick hinv) (by rw [hsp]; exact hfull)
  rw [hpc, hsp] at hd
  rw [step_of_interruptDue hr hi, hd, haltWith_of_pc_eq hpc.symm]

/-- Settles O15: a dispatch leaves the machine running or a record, a halt at the fetch leaves a record, and of the
instructions only HLT ends the run without one. -/
theorem onlyHltEndsNormally : Obligations.OnlyHltEndsNormally := by
  intro s t hr h ht hf
  obtain ⟨-, -, -, -, -, -, htick, -⟩ := tick_frame s
  rcases step_cases s with ⟨hr', -⟩ | ⟨-, -, hs⟩ | ⟨-, -, r, hs, -⟩ | ⟨i, hexec, hs⟩
  · exact absurd hr (Bool.eq_false_iff.1 hr')
  · rw [hs] at h
    rcases dispatchInterrupt_running h with hkept | hrecord
    · exact absurd (hkept.trans (htick.trans hr)) (Bool.eq_false_iff.1 ht)
    · exact absurd hf hrecord
  · cases hs.symm.trans h
    cases hf
  · rw [hs] at h
    obtain rfl := eq_hlt_of_op (op_eq_hlt_of_exec h (htick.trans hr) ht hf)
    exact ⟨_, hexec⟩

/-- Settles O16: of the four kinds of step only the dispatch and the execution of INT and IRET write the mode, and each
under the condition of its row. -/
theorem modeChangesByTableOnly : Obligations.ModeChangesByTableOnly := by
  intro s t hinv h hne
  have htick := inv_tick hinv
  obtain ⟨-, hcfg, -, -, hsp, hmode, -, -, hram, -⟩ := tick_frame s
  rcases step_cases s with ⟨-, hs⟩ | ⟨hr, hi, hs⟩ | ⟨-, -, r, hs, -⟩ | ⟨i, hexec, hs⟩ <;> rw [hs] at h
  · cases h
    exact absurd rfl hne
  · obtain ⟨hroom, ht⟩ := dispatchInterrupt_mode_ne htick h (by rwa [hmode])
    exact .inl ⟨hr, hi, hsp ▸ hroom, ht⟩
  · cases h
    exact absurd hmode hne
  · have hinv' := inv_setPc htick (s.pc + 1)
    have hne' : t.mode ≠ ((tick s).setPc (s.pc + 1)).mode := by rwa [State.mode_setPc, hmode]
    by_cases hint : i.op = .int
    · obtain ⟨n, rfl⟩ := eq_int_of_op hint
      have hrow := exec_int_mode_ne hinv' h hne'
      rw [State.mode_setPc, State.sp_setPc, hmode, hsp] at hrow
      rcases hrow with hhandoff | htrap
      · exact .inr (.inl ⟨n, _, hexec, hhandoff⟩)
      · exact .inr (.inr (.inl ⟨n, _, hexec, htrap⟩))
    by_cases hiret : i.op = .iret
    · obtain rfl := eq_iret_of_op hiret
      have hrow := exec_iret_mode_ne hinv'.cfg h hne'
      rw [State.sp_setPc, State.cfg_setPc, State.ramWord_setPc, hsp, hcfg, State.ramWord, hram] at hrow
      exact .inr (.inr (.inr ⟨_, hexec, hrow⟩))
    · exact absurd (exec_keeps_mode h hint hiret) hne'

end Sys2Proof.Machine

/-! SUPPORT. Signed overflow of a sum and a difference, an immediate as a word, the outcomes of MOV, JMP and a pair of
opposite branches, the events of a store left out, and where PUSH puts what POP takes (30_encoding.md R77; 40_alu.md
R141 to R153; 41_load_store.md R172; 42_stack.md R183, R184; 43_branch.md R191, R192). -/

namespace Sys2Proof.Machine

/-! ### Signed overflow -/

theorem v_aluAdd (a b : Word) (f : Flags) : (aluAdd a b f).flags.v = BitVec.saddOverflow a b :=
  (BitVec.saddOverflow_eq a b).symm

theorem v_aluSub (a b : Word) (f : Flags) : (aluSub a b f).flags.v = BitVec.ssubOverflow a b := by
  have hv : (aluSub a b f).flags.v = (a.msb != b.msb && (a - b).msb != a.msb) := rfl
  rw [hv, BitVec.ssubOverflow_eq]
  cases a.msb <;> cases b.msb <;> cases (a - b).msb <;> rfl

/-- A number leaves the signed 32-bit range at one of its two ends. -/
theorem overflow_iff (x : Int) :
    (decide (x ≥ 2 ^ (32 - 1)) || decide (x < -2 ^ (32 - 1))) = true ↔ ¬ (-2 ^ 31 ≤ x ∧ x < 2 ^ 31) := by
  rw [Bool.or_eq_true, decide_eq_true_iff, decide_eq_true_iff]
  omega

/-! ### An immediate as a word -/

/-- A 16-bit signed number keeps its value as a word (00_scope.md R8). -/
theorem toInt_signedWord_of_immInRange {v : Int} (h : immInRange v = true) : (signedWord v).toInt = v := by
  obtain ⟨hlo, hhi⟩ := (immInRange_iff v).1 h
  exact BitVec.toInt_ofInt_eq_self (by decide) (by omega) (by omega)

/-! ### MOV, JMP and opposite branches -/

theorem exec_mov (rd : Reg) (src : Src) (s : State) : exec (.mov rd src) s = .next (s.setReg rd (s.srcValue src)) := rfl

theorem exec_jmp (off : Int) (s : State) : exec (.jmp off) s = .next (s.setPc (s.branchTarget off)) := rfl

/-- Where the condition of one branch holds and that of another does not, the one jumps and the other falls through. -/
theorem exec_opposite_branches {i j : Instr} {c d : Bool} {off : Int} {t : State}
    (hi : exec i t = .next (branchIf c off t)) (hj : exec j t = .next (branchIf d off t))
    (hc : c = true) (hd : ¬ d = true) : exec i t = .next (t.setPc (t.branchTarget off)) ∧ exec j t = .next t :=
  ⟨by rw [hi, branchIf_of_true off t hc], by rw [hj, branchIf_of_not_true off t hd]⟩

/-- Flags that decide equality and both orders of two words make each condition of R192's table decide the relation of
its row. -/
theorem conditions_of_comparison {f : Flags} {a b : Word} (hz : f.z = true ↔ a = b)
    (hs : f.n ≠ f.v ↔ a.toInt < b.toInt) (hc : f.c = true ↔ a.toNat < b.toNat) :
    (f.eq = true ↔ a = b) ∧ (f.ne = true ↔ a ≠ b) ∧
    (f.lt = true ↔ a.toInt < b.toInt) ∧ (f.ge = true ↔ b.toInt ≤ a.toInt) ∧
    (f.gt = true ↔ b.toInt < a.toInt) ∧ (f.le = true ↔ a.toInt ≤ b.toInt) ∧
    (f.cs = true ↔ a.toNat < b.toNat) ∧ (f.cc = true ↔ b.toNat ≤ a.toNat) := by
  have hz' : f.z = false ↔ a ≠ b := by rw [Ne, ← hz.not, Bool.not_eq_true]
  have hs' : f.n = f.v ↔ b.toInt ≤ a.toInt := by rw [← not_lt, ← hs, not_not]
  have hc' : f.c = false ↔ b.toNat ≤ a.toNat := by rw [← not_lt, ← hc, Bool.not_eq_true]
  have hint : a = b ↔ a.toInt = b.toInt := BitVec.toInt_inj.symm
  refine ⟨f.eq_iff.trans hz, f.ne_iff.trans hz', f.lt_iff.trans hs, f.ge_iff.trans hs', ?gt, ?le, f.cs_iff.trans hc,
    f.cc_iff.trans hc'⟩
  case gt => rw [f.gt_iff, hz', hs', Ne, hint]; omega
  case le => rw [f.le_iff, hz, hs, hint]; omega

/-! ### A store without its events -/

/-- Whatever the window, a STR inside RAM that completes has written its word and nothing that selects the fetch space
(R172). -/
theorem exec_str_eq_next {rd rb : Reg} {imm : Int} {s t : State}
    (hlt : (s.effectiveAddress rb imm).toNat < s.cfg.ramWords) (h : exec (.str rd rb imm) s = .next t) :
    t.ram = Mem.write s.ram (s.effectiveAddress rb imm).toNat (s.getReg rd) ∧
      t.cfg = s.cfg ∧ t.mode = s.mode ∧ t.rom = s.rom := by
  rw [exec_str, memWrite_of_lt _ hlt, Res.bind_ok] at h
  rcases complete_eq_next h with hr | ⟨k, x, hr, -⟩
  · obtain ⟨e, rfl⟩ := notifyFramebuffer_eq_ok hr
    exact ⟨rfl, rfl, rfl, rfl⟩
  · exact (notifyFramebuffer_ne_raise hr).elim

/-! ### The place of a register under PUSH and under POP -/

/-- Every selected register but `r` lies below it or above it. -/
theorem selectedBelow_add_selectedAbove {mask : Nat} {r : Reg} (h : maskSelects mask r = true) :
    selectedBelow mask r + selectedAbove mask r + 1 = maskCount mask := by
  have hbelow := getElem?_selectedBelow h
  have habove := getElem?_selectedAbove h
  have hnodup : (regsLowToHigh.filter (maskSelects mask)).Nodup :=
    (regsLowToHigh_pairwise_lt.imp ne_of_lt).filter _
  rw [regsHighToLow_eq_reverse, List.filter_reverse] at habove
  have hltb := (List.getElem?_eq_some_iff.1 hbelow).1
  have hlta := (List.getElem?_eq_some_iff.1 habove).1
  rw [List.length_reverse] at hlta
  rw [List.getElem?_reverse hlta] at habove
  have hsame := (List.getElem?_inj hltb hnodup).1 (hbelow.trans habove.symm)
  rw [maskCount, List.countP_eq_length_filter]
  omega

end Sys2Proof.Machine

/-! Operands, MOV and JMP, the overflow flag, branches after CMP, the fetch after a store, and PUSH with POP
(30_encoding.md R77; 40_alu.md R141 to R153; 42_stack.md; 43_branch.md R191, R192; 70_reset_and_hazards.md R274). -/

namespace Sys2Proof.Machine

/-- Settles O23. -/
theorem secondOperandValue : Obligations.SecondOperandValue :=
  fun _ => ⟨fun _ => rfl, fun _ h => toInt_signedWord_of_immInRange h⟩

/-- Settles O26: V is the library's signed overflow of the sum and of the difference. -/
theorem overflowFlagIsSignedOverflow : Obligations.OverflowFlagIsSignedOverflow := by
  intro rd src s t
  refine ⟨fun h => ?add, fun h => ?sub⟩
  case add =>
    cases (exec_add rd src s).symm.trans h
    rw [flags_writeAlu, v_aluAdd]
    exact overflow_iff _
  case sub =>
    cases (exec_sub rd src s).symm.trans h
    rw [flags_writeAlu, v_aluSub]
    exact overflow_iff _

/-- Settles O33. -/
theorem movFollowsRule : Obligations.MovFollowsRule :=
  ⟨decodedRI_of_decodeOperands .mov fun _ => rfl, fun rd src s => ⟨_, exec_mov rd src s,
    State.getReg_setReg_same _ _ _, rfl, otherRegsSame_setReg _ _ _, sameButRegsFlags_setReg _ _ _⟩⟩

/-- Settles O36: the store writes RAM at its address, and mode, ROM and parameters still select RAM. -/
theorem storeSeenByNextFetch : Obligations.StoreSeenByNextFetch := by
  intro rd rb imm s t hwf hlt hspace h
  obtain ⟨hram, hcfg, hmode, hrom⟩ := exec_str_eq_next hlt h
  rw [fetchRead_of_ram _ (by rwa [hmode, hrom]), hcfg, if_pos hlt, State.ramWord, hram,
    Mem.read_write _ hwf, if_pos rfl]

/-- Settles O39: the words below the old sp hold the selected registers, lowest on top, and POP takes from each the
register PUSH put there. -/
theorem pushThenPopRestores : Obligations.PushThenPopRestores := by
  intro mask s t regs hc hsp hwf hroom h
  obtain ⟨v, m, ht, hv, hstored, -⟩ := exec_push_of_le hsp hwf hroom
  cases ht.symm.trans h
  have hfits : v.toNat + maskCount mask ≤ s.cfg.ramWords := by omega
  obtain ⟨v', R, hu, hv', hloaded, -⟩ :=
    exec_pop_of_le (s := { (s.setSp v).setRam m with regs := regs }) hc (Nat.le_of_add_right_le hfits) hfits
  refine ⟨_, hu, BitVec.eq_of_toNat_eq ?sp, fun r hr => ?register⟩
  case sp =>
    have : v.toNat + maskCount mask = s.sp.toNat := by omega
    exact hv'.trans this
  case register =>
    have hplace := selectedBelow_add_selectedAbove hr
    have hslot : v.toNat + selectedAbove mask r = s.sp.toNat - 1 - selectedBelow mask r := by omega
    calc R[r]
      _ = Mem.read m (v.toNat + selectedAbove mask r) := hloaded r hr
      _ = s.getReg r := by rw [hslot, hstored r hr]

/-- Settles O40. -/
theorem jmpFollowsRule : Obligations.JmpFollowsRule :=
  ⟨decodedM_of_decodeOperands .jmp fun _ => rfl, fun off s =>
    ⟨_, exec_jmp off s, targetOf_of_pc_eq rfl, sameButPc_setPc _ _⟩⟩

/-- Settles O42: the flags of CMP decide equality and both orders (O32), and each pair of opposite branches tests one
of them. -/
theorem branchAfterCmpDecidesRelation : Obligations.BranchAfterCmpDecidesRelation := by
  intro rd src off s t h
  obtain ⟨t', ht', -, hz, hlt, hc, -⟩ := cmpFollowsRule.2 rd src s
  cases ht'.symm.trans h
  obtain ⟨heq, hne, hlt', hge, hgt, hle, hcs, hcc⟩ := conditions_of_comparison hz hlt hc
  exact ⟨
    fun hr => exec_opposite_branches (exec_beq off t) (exec_bne off t) (heq.2 hr) fun h => hne.1 h hr,
    fun hr => exec_opposite_branches (exec_bne off t) (exec_beq off t) (hne.2 hr) fun h => hr (heq.1 h),
    fun hr => exec_opposite_branches (exec_blt off t) (exec_bge off t) (hlt'.2 hr) fun h => not_lt.2 (hge.1 h) hr,
    fun hr => exec_opposite_branches (exec_bge off t) (exec_blt off t) (hge.2 hr) fun h => not_lt.2 hr (hlt'.1 h),
    fun hr => exec_opposite_branches (exec_bgt off t) (exec_ble off t) (hgt.2 hr) fun h => not_lt.2 (hle.1 h) hr,
    fun hr => exec_opposite_branches (exec_ble off t) (exec_bgt off t) (hle.2 hr) fun h => not_lt.2 hr (hgt.1 h),
    fun hr => exec_opposite_branches (exec_bcs off t) (exec_bcc off t) (hcs.2 hr) fun h => not_lt.2 (hcc.1 h) hr,
    fun hr => exec_opposite_branches (exec_bcc off t) (exec_bcs off t) (hcc.2 hr) fun h => not_lt.2 hr (hcs.1 h)⟩

end Sys2Proof.Machine

/-! SUPPORT. Image files as words, the images a launch loads, and the state after reset (20_memory.md R55, R59;
10_state.md R35, R36). -/

namespace Sys2Proof.Machine

/-! ### A word and its four bytes -/

/-- A byte put above the bits of a word adds its value there. -/
theorem toNat_or_shiftLeft {x : Word} (b : Byte) {k : Nat} (hx : x.toNat < 2 ^ k) (hk : k + 8 ≤ 32) :
    (x ||| b.setWidth 32 <<< k).toNat = x.toNat + 2 ^ k * b.toNat := by
  have hb : b.toNat * 2 ^ k < 2 ^ 32 := calc
    b.toNat * 2 ^ k < 2 ^ 8 * 2 ^ k := Nat.mul_lt_mul_of_pos_right b.isLt (Nat.two_pow_pos k)
    _ = 2 ^ (8 + k) := (Nat.pow_add 2 8 k).symm
    _ ≤ 2 ^ 32 := Nat.pow_le_pow_right (by decide) (by omega)
  have hshift : (b.setWidth 32 <<< k).toNat = b.toNat <<< k := by
    rw [BitVec.toNat_shiftLeft, BitVec.toNat_setWidth, Nat.mod_eq_of_lt (lt_trans b.isLt (by decide)),
      Nat.shiftLeft_eq, Nat.mod_eq_of_lt hb]
  rw [BitVec.toNat_or, hshift, Nat.or_comm, ← Nat.shiftLeft_add_eq_or_of_lt hx, Nat.shiftLeft_eq]
  ring

/-- Byte 0 of a word is the least significant (R55). -/
theorem toNat_wordOfBytes (b0 b1 b2 b3 : Byte) :
    (wordOfBytes b0 b1 b2 b3).toNat =
      b0.toNat + 256 * b1.toNat + 65536 * b2.toNat + 16777216 * b3.toNat := by
  have h0 : (b0.setWidth 32).toNat = b0.toNat := by rw [BitVec.toNat_setWidth]; omega
  have h1 := toNat_or_shiftLeft (x := b0.setWidth 32) b1 (k := 8) (by omega) (by decide)
  have h2 := toNat_or_shiftLeft (x := b0.setWidth 32 ||| b1.setWidth 32 <<< 8) b2 (k := 16) (by omega) (by decide)
  have h3 := toNat_or_shiftLeft (x := b0.setWidth 32 ||| b1.setWidth 32 <<< 8 ||| b2.setWidth 32 <<< 16) b3 (k := 24)
    (by omega) (by decide)
  rw [wordOfBytes, h3, h2, h1, h0]
  norm_num

/-- The four bytes of a word make up the word. -/
theorem wordOfBytes_extract (w : Word) :
    wordOfBytes (w.extractLsb' 0 8) (w.extractLsb' 8 8) (w.extractLsb' 16 8) (w.extractLsb' 24 8) = w := by
  rw [wordOfBytes, extractLsb'_zero_eq_and w (by decide), extractLsb'_shiftLeft_eq_and w (by decide),
    extractLsb'_shiftLeft_eq_and w (by decide), extractLsb'_shiftLeft_eq_and w (by decide)]
  simp only [← BitVec.and_or_distrib_left]
  exact BitVec.and_allOnes

/-! ### Image files -/

theorem imageWords_cons (b0 b1 b2 b3 : Byte) (rest : List Byte) :
    imageWords (b0 :: b1 :: b2 :: b3 :: rest) = (imageWords rest).map (wordOfBytes b0 b1 b2 b3 :: ·) := rfl

/-- The words written to an image file are the words read from it (31_assembler.md R100). -/
theorem imageWords_imageBytes (ws : List Word) : imageWords (imageBytes ws) = some ws := by
  induction ws with
  | nil => rfl
  | cons w ws ih =>
    calc imageWords (imageBytes (w :: ws))
      _ = (imageWords (imageBytes ws)).map
          (wordOfBytes (w.extractLsb' 0 8) (w.extractLsb' 8 8) (w.extractLsb' 16 8) (w.extractLsb' 24 8) :: ·) := rfl
      _ = some (w :: ws) := by rw [ih, wordOfBytes_extract]; rfl

/-- An image file of whole words has a word for every four bytes, and any other file has none (R55, R59). -/
theorem imageWords_cases (file : List Byte) :
    (file.length % 4 = 0 ∧ ∃ ws, imageWords file = some ws ∧ ws.length = file.length / 4) ∨
    (file.length % 4 ≠ 0 ∧ imageWords file = none) := by
  induction file using imageWords.induct with
  | case1 => exact .inl ⟨rfl, [], rfl, rfl⟩
  | case2 b0 b1 b2 b3 rest ih =>
    rw [imageWords_cons]
    simp only [List.length_cons]
    rcases ih with ⟨hlen, ws, hws, hcount⟩ | ⟨hlen, hnone⟩
    · exact .inl ⟨by omega, wordOfBytes b0 b1 b2 b3 :: ws, by rw [hws]; rfl, by rw [List.length_cons]; omega⟩
    · exact .inr ⟨by omega, by rw [hnone]; rfl⟩
  | case3 file hnil hfour =>
    match file with
    | [] => exact absurd rfl hnil
    | [_] | [_, _] | [_, _, _] => exact .inr ⟨by simp, rfl⟩
    | b0 :: b1 :: b2 :: b3 :: rest => exact absurd rfl (hfour b0 b1 b2 b3 rest)

/-- Loading gives exactly the words of a file of whole words that fit the array (R59). -/
theorem loadImage_eq_ok_iff (size : Nat) (file : List Byte) (m : Mem) :
    loadImage size file = .ok m ↔
      ∃ ws, imageWords file = some ws ∧ ws.length ≤ size ∧ m = Mem.ofWords 0 ws := by
  unfold loadImage
  cases imageWords file with
  | none => simp
  | some ws => by_cases h : ws.length ≤ size <;> simp [h, eq_comm]

/-- Loading succeeds exactly for a file of whole words that fit the array (R59). -/
theorem exists_loadImage_eq_ok_iff (size : Nat) (file : List Byte) :
    (∃ m, loadImage size file = .ok m) ↔ file.length % 4 = 0 ∧ file.length / 4 ≤ size := by
  simp only [loadImage_eq_ok_iff]
  rcases imageWords_cases file with ⟨hlen, ws, hws, hcount⟩ | ⟨hlen, hnone⟩
  · simp [hws, hlen, hcount]
  · simp [hnone, hlen]

/-! ### A launch -/

/-- A launch with sound parameters resets over the images it loads, and a BIOS image is what gives a ROM (R59, R270). -/
theorem launch_eq_ok_iff (cfg : Config) (program : List Byte) (bios : Option (List Byte)) (s : State) :
    launch cfg program bios = .ok s ↔ cfg.valid = true ∧ ∃ ram, loadImage cfg.ramWords program = .ok ram ∧
      ((bios = none ∧ s = State.resetWith cfg ram none) ∨
        ∃ file rom, bios = some file ∧ loadImage cfg.romWords file = .ok rom ∧
          s = State.resetWith cfg ram (some rom)) := by
  unfold launch
  by_cases hc : cfg.valid = true
  · cases loadImage cfg.ramWords program with
    | error e => simp [hc]
    | ok ram =>
      cases bios with
      | none => simp [hc, eq_comm]
      | some file => cases hrom : loadImage cfg.romWords file <;> simp [hc, hrom, eq_comm]
  · simp [hc]

/-! ### The state after reset -/

section Reset

variable {cfg : Config} (hc : cfg.valid = true)
include hc

theorem toNat_sp_resetWith (ram : Mem) (rom : Option Mem) :
    (State.resetWith cfg ram rom).sp.toNat = cfg.ramWords := by
  have := valid_ramWords_le hc
  exact Nat.mod_eq_of_lt (by omega)

/-- Reset with sound parameters over canonical memories leaves a sound state (R35, R36). -/
theorem inv_resetWith {ram : Mem} {rom : Option Mem} (hwf : Mem.wf ram) (hin : Mem.within ram cfg.ramWords)
    (hrom : ∀ m, rom = some m → Mem.wf m ∧ Mem.within m cfg.romWords) : (State.resetWith cfg ram rom).Inv :=
  ⟨hc, (toNat_sp_resetWith hc ram rom).le, rfl, hwf, hin, hrom, fun _ => rfl, fun _ h => nomatch h⟩

end Reset

/-- Of the flags only IE is set after reset (R35). -/
theorem toByte_reset : Flags.reset.toByte = 0x10 := by decide

theorem getReg_resetWith (cfg : Config) (ram : Mem) (rom : Option Mem) (r : Reg) :
    (State.resetWith cfg ram rom).getReg r = 0 := Vector.getElem_replicate _

/-- A loaded image is canonical and lies inside its array (R59). -/
theorem wf_within_of_loadImage {size : Nat} {file : List Byte} {m : Mem} (h : loadImage size file = .ok m) :
    Mem.wf m ∧ Mem.within m size := by
  obtain ⟨ws, -, hlen, rfl⟩ := (loadImage_eq_ok_iff size file m).1 h
  refine ⟨Mem.wf_ofWords 0 ws, fun c hcell => ?_⟩
  obtain ⟨-, hlt, -⟩ := Mem.mem_ofWords hcell
  omega

/-- A loaded image holds its words from address 0 on and 0 beyond (R35, R59). -/
theorem read_of_loadImage {size : Nat} {file : List Byte} {m : Mem} (h : loadImage size file = .ok m) :
    ∃ ws, imageWords file = some ws ∧ ∀ a, Mem.read m a = ws.getD a 0 := by
  obtain ⟨ws, hws, -, rfl⟩ := (loadImage_eq_ok_iff size file m).1 h
  exact ⟨ws, hws, fun a => by rw [Mem.read_ofWords, if_pos (Nat.zero_le a), Nat.sub_zero]⟩

end Sys2Proof.Machine

/-! Image files, the launch and the state after reset (20_memory.md R55, R59; 10_state.md R35, R36). -/

namespace Sys2Proof.Machine

/-- Settles O1: a launch is a reset over the images it loads. -/
theorem launchLeavesResetValues : Obligations.LaunchLeavesResetValues := by
  intro cfg program bios s h
  obtain ⟨hc, ram, hram, hbios⟩ := (launch_eq_ok_iff _ _ _ _).1 h
  obtain ⟨ws, hws, hread⟩ := read_of_loadImage hram
  rcases hbios with ⟨rfl, rfl⟩ | ⟨file, rom, rfl, hrom, rfl⟩
  · exact ⟨ws, hws, rfl, getReg_resetWith _ _ _, rfl, toNat_sp_resetWith hc _ _, rfl, toByte_reset, rfl, rfl,
      rfl, rfl, rfl, rfl, hread, fun _ => rfl, fun _ hf => nomatch hf⟩
  · refine ⟨ws, hws, rfl, getReg_resetWith _ _ _, rfl, toNat_sp_resetWith hc _ _, rfl, toByte_reset, rfl, rfl,
      rfl, rfl, rfl, rfl, hread, fun hn => absurd hn (Option.some_ne_none _), fun file' hf => ?_⟩
    cases hf
    obtain ⟨vs, hvs, hreadRom⟩ := read_of_loadImage hrom
    exact ⟨vs, rom, hvs, rfl, hreadRom⟩

/-- Settles O2: a launch is refused for no other reason than an image's length or size, and the images it loads are
canonical and inside their arrays. -/
theorem launchRefusesOnlyBadImages : Obligations.LaunchRefusesOnlyBadImages := by
  intro cfg program bios hc
  refine ⟨?starts, fun s h => ?sound⟩
  case starts =>
    rw [← and_assoc, ← exists_loadImage_eq_ok_iff]
    simp only [← exists_loadImage_eq_ok_iff]
    constructor
    · rintro ⟨s, h⟩
      obtain ⟨-, ram, hram, hbios⟩ := (launch_eq_ok_iff _ _ _ _).1 h
      refine ⟨⟨ram, hram⟩, fun file hf => ?_⟩
      rcases hbios with ⟨rfl, -⟩ | ⟨file', rom, rfl, hrom, -⟩
      · exact nomatch hf
      · cases hf
        exact ⟨rom, hrom⟩
    · rintro ⟨⟨ram, hram⟩, hbios⟩
      cases bios with
      | none => exact ⟨_, (launch_eq_ok_iff _ _ _ _).2 ⟨hc, ram, hram, .inl ⟨rfl, rfl⟩⟩⟩
      | some file =>
        obtain ⟨rom, hrom⟩ := hbios file rfl
        exact ⟨_, (launch_eq_ok_iff _ _ _ _).2 ⟨hc, ram, hram, .inr ⟨file, rom, rfl, hrom, rfl⟩⟩⟩
  case sound =>
    obtain ⟨-, ram, hram, hbios⟩ := (launch_eq_ok_iff _ _ _ _).1 h
    obtain ⟨hwf, hin⟩ := wf_within_of_loadImage hram
    rcases hbios with ⟨-, rfl⟩ | ⟨file, rom, -, hrom, rfl⟩
    · exact inv_resetWith hc hwf hin fun _ hm => nomatch hm
    · refine inv_resetWith hc hwf hin fun m hm => ?_
      cases hm
      exact wf_within_of_loadImage hrom

/-- Settles O3. -/
theorem imageFileIsLittleEndian : Obligations.ImageFileIsLittleEndian :=
  ⟨fun b0 b1 b2 b3 rest => ⟨_, toNat_wordOfBytes b0 b1 b2 b3, imageWords_cons b0 b1 b2 b3 rest⟩, imageWords_imageBytes⟩

/-- Settles O4. -/
theorem resetSatisfiesInvariant : Obligations.ResetSatisfiesInvariant :=
  inv_resetWith (by decide) ⟨List.Pairwise.nil, fun _ h => nomatch h⟩ (fun _ h => nomatch h) fun _ h => nomatch h

end Sys2Proof.Machine

/-! SUPPORT. The two passes over the lines of a text: what pass 1 binds, and how many instructions pass 2 gives
(31_assembler.md R104 to R108). -/

namespace Sys2Proof.Machine

theorem except_map_eq_ok_iff {ε α β : Type} {f : α → β} {x : Except ε α} {b : β} :
    x.map f = .ok b ↔ ∃ a, x = .ok a ∧ f a = b := by
  cases x <;> simp [Except.map]

/-! ### Instruction lines -/

theorem isCodeLine_of_blank {raw : Text} (h : classify raw = .blank) : isCodeLine raw = false := by
  rw [isCodeLine, h]

theorem isCodeLine_of_label {raw name : Text} {rest : List Text} (h : classify raw = .label name rest) :
    isCodeLine raw = false := by
  rw [isCodeLine, h]

theorem isCodeLine_of_code {raw : Text} {toks : List Text} (h : classify raw = .code toks) :
    isCodeLine raw = true := by
  rw [isCodeLine, h]

/-! ### Pass 1 -/

theorem lookup_cons_of_ne {name name' : Text} (h : name' ≠ name) (off : Nat) (tbl : LabelTable) :
    List.lookup name' ((name, off) :: tbl) = tbl.lookup name' := by
  rw [List.lookup_cons, beq_false_of_ne h]

/-- The bindings the label lines make, from word offset `off` on: each name to the number of instruction lines before
it (R105). -/
def labelBindings (off : Nat) : List Text → LabelTable
  | [] => []
  | raw :: rest =>
    match classify raw with
    | .blank => labelBindings off rest
    | .label name _ => (name, off) :: labelBindings off rest
    | .code _ => labelBindings (off + 1) rest

/-- Two lines do not bind one name. -/
def BindApart (raw raw' : Text) : Prop :=
  ∀ name rest rest', classify raw = .label name rest → classify raw' ≠ .label name rest'

/-- A label line is accepted exactly when it is a well-formed name alone and the name is new (R104, R106). -/
theorem labelError_eq_none_iff (tbl : LabelTable) (name : Text) (rest : List Text) :
    labelError tbl name rest = none ↔ isLabelName name = true ∧ rest = [] ∧ lookupLabel tbl name = none := by
  unfold labelError
  cases isLabelName name with
  | false => simp
  | true =>
    cases rest with
    | cons t ts => simp
    | nil => cases lookupLabel tbl name <;> simp

/-- What a pass 1 that succeeds says of its lines and its table: each label line is a name alone, no name is bound
twice, and the table is extended by the bindings of the label lines. -/
structure Pass1Ok (off : Nat) (tbl : LabelTable) (lines : List Text) (tbl' : LabelTable) : Prop where
  bindings : tbl' = tbl ++ labelBindings off lines
  labels : ∀ raw ∈ lines, ∀ name rest, classify raw = .label name rest → rest = [] ∧ lookupLabel tbl name = none
  apart : lines.Pairwise BindApart

theorem lookupLabel_append_eq_none_iff (tbl : LabelTable) (name name' : Text) (off : Nat) :
    lookupLabel (tbl ++ [(name, off)]) name' = none ↔ lookupLabel tbl name' = none ∧ name' ≠ name := by
  rw [lookupLabel, List.lookup_append, Option.or_eq_none_iff]
  by_cases h : name' = name
  · simp [h]
  · simp [h, lookupLabel, lookup_cons_of_ne h]

theorem Pass1Ok.cons_of_not_label {off off' : Nat} {tbl tbl' : LabelTable} {raw : Text} {lines : List Text}
    (hraw : ∀ name rest, classify raw ≠ .label name rest)
    (hoff : labelBindings off (raw :: lines) = labelBindings off' lines) (h : Pass1Ok off' tbl lines tbl') :
    Pass1Ok off tbl (raw :: lines) tbl' := by
  refine ⟨hoff ▸ h.bindings, fun raw' hm name rest hr => ?_,
    List.pairwise_cons.2 ⟨fun raw' _ name rest rest' hr => absurd hr (hraw name rest), h.apart⟩⟩
  rcases List.mem_cons.1 hm with rfl | hm
  · exact absurd hr (hraw name rest)
  · exact h.labels raw' hm name rest hr

theorem Pass1Ok.cons_of_label {off : Nat} {tbl tbl' : LabelTable} {raw name : Text} {lines : List Text}
    (hraw : classify raw = .label name []) (hnew : lookupLabel tbl name = none)
    (h : Pass1Ok off (tbl ++ [(name, off)]) lines tbl') : Pass1Ok off tbl (raw :: lines) tbl' := by
  have hlater : ∀ raw' ∈ lines, ∀ name' rest', classify raw' = .label name' rest' →
      rest' = [] ∧ lookupLabel tbl name' = none ∧ name' ≠ name := fun raw' hm name' rest' hr => by
    obtain ⟨hrest, hnone⟩ := h.labels raw' hm name' rest' hr
    exact ⟨hrest, (lookupLabel_append_eq_none_iff _ _ _ _).1 hnone⟩
  refine ⟨?bindings, fun raw' hm name' rest' hr => ?labels, List.pairwise_cons.2 ⟨fun raw' hm => ?apart, h.apart⟩⟩
  case bindings =>
    rw [h.bindings, labelBindings, hraw, List.append_assoc]
    rfl
  case labels =>
    rcases List.mem_cons.1 hm with rfl | hm
    · cases hraw.symm.trans hr
      exact ⟨rfl, hnew⟩
    · obtain ⟨hrest, hnone, -⟩ := hlater raw' hm name' rest' hr
      exact ⟨hrest, hnone⟩
  case apart =>
    intro name' rest rest' hr hr'
    cases hraw.symm.trans hr
    exact (hlater raw' hm name rest' hr').2.2 rfl

theorem pass1Ok_of_eq_ok {n off : Nat} {tbl tbl' : LabelTable} {lines : List Text}
    (h : pass1 n off tbl lines = .ok tbl') : Pass1Ok off tbl lines tbl' := by
  induction lines generalizing n off tbl with
  | nil =>
    cases h
    exact ⟨(List.append_nil _).symm, fun _ hm => absurd hm List.not_mem_nil, .nil⟩
  | cons raw lines ih =>
    unfold pass1 at h
    cases hk : classify raw with
    | blank =>
      rw [hk] at h
      exact (ih h).cons_of_not_label (fun _ _ hr => nomatch hk.symm.trans hr) (by rw [labelBindings, hk])
    | code toks =>
      rw [hk] at h
      exact (ih h).cons_of_not_label (fun _ _ hr => nomatch hk.symm.trans hr) (by rw [labelBindings, hk])
    | label name extra =>
      rw [hk] at h
      cases he : labelError tbl name extra with
      | some e => simp [he] at h
      | none =>
        simp only [he] at h
        obtain ⟨-, rfl, hnew⟩ := (labelError_eq_none_iff tbl name extra).1 he
        exact (ih h).cons_of_label hk hnew

/-! ### The bindings as a table -/

/-- Where no name is bound twice, a label line's name is bound to the number of instruction lines before it. -/
theorem lookup_labelBindings {lines : List Text} (hapart : lines.Pairwise BindApart) {off k : Nat} {raw name : Text}
    {rest : List Text} (hk : lines[k]? = some raw) (hr : classify raw = .label name rest) :
    lookupLabel (labelBindings off lines) name = some (off + (lines.take k).countP isCodeLine) := by
  induction lines generalizing off k with
  | nil => exact nomatch hk
  | cons raw0 lines ih =>
    obtain ⟨hhead, hapart⟩ := List.pairwise_cons.1 hapart
    cases k with
    | zero =>
      cases hk
      rw [labelBindings, hr]
      simp [lookupLabel]
    | succ k =>
      rw [List.getElem?_cons_succ] at hk
      rw [List.take_succ_cons, List.countP_cons, labelBindings]
      cases h0 : classify raw0 with
      | blank => simpa [isCodeLine_of_blank h0] using ih hapart hk
      | code toks => simpa [isCodeLine_of_code h0, Nat.add_comm, Nat.add_left_comm] using ih (off := off + 1) hapart hk
      | label name0 rest0 =>
        have hne : name ≠ name0 := fun e => hhead raw (List.mem_of_getElem? hk) name0 rest0 rest h0 (e ▸ hr)
        simpa [isCodeLine_of_label h0, lookupLabel, lookup_cons_of_ne hne] using ih hapart hk

/-- Every binding is that of a label line (R105). -/
theorem exists_label_of_lookup {lines : List Text} {off x : Nat} {name : Text}
    (h : lookupLabel (labelBindings off lines) name = some x) :
    ∃ k raw rest, lines[k]? = some raw ∧ classify raw = .label name rest ∧
      x = off + (lines.take k).countP isCodeLine := by
  induction lines generalizing off with
  | nil => exact nomatch h
  | cons raw0 lines ih =>
    have hlater : ∀ {off' : Nat}, lookupLabel (labelBindings off' lines) name = some x →
        off' = off + (if isCodeLine raw0 then 1 else 0) →
        ∃ k raw rest, (raw0 :: lines)[k]? = some raw ∧ classify raw = .label name rest ∧
          x = off + ((raw0 :: lines).take k).countP isCodeLine := by
      intro off' hlook hoff
      obtain ⟨k, raw, rest, hk, hr, hx⟩ := ih hlook
      refine ⟨k + 1, raw, rest, by rw [List.getElem?_cons_succ, hk], hr, ?_⟩
      rw [List.take_succ_cons, List.countP_cons]
      omega
    rw [labelBindings] at h
    cases h0 : classify raw0 with
    | blank =>
      rw [h0] at h
      exact hlater h (by rw [isCodeLine_of_blank h0]; rfl)
    | code toks =>
      rw [h0] at h
      exact hlater h (by rw [isCodeLine_of_code h0]; rfl)
    | label name0 rest0 =>
      rw [h0] at h
      by_cases hname : name = name0
      · subst hname
        rw [lookupLabel, List.lookup_cons_self] at h
        cases h
        exact ⟨0, raw0, rest0, rfl, h0, rfl⟩
      · rw [lookupLabel, lookup_cons_of_ne hname] at h
        exact hlater h (by rw [isCodeLine_of_label h0]; rfl)

/-! ### Pass 2 and the image -/

/-- Pass 2 gives one instruction for each instruction line (R108). -/
theorem length_of_pass2_eq_ok {tbl : LabelTable} {n a : Nat} {lines : List Text} {is : List Instr}
    (h : pass2 tbl n a lines = .ok is) : is.length = lines.countP isCodeLine := by
  induction lines generalizing n a is with
  | nil => cases h; rfl
  | cons raw lines ih =>
    unfold pass2 at h
    rw [List.countP_cons]
    cases hk : classify raw with
    | blank =>
      rw [hk] at h
      rw [isCodeLine_of_blank hk, ih h]
      rfl
    | label name rest =>
      rw [hk] at h
      rw [isCodeLine_of_label hk, ih h]
      rfl
    | code toks =>
      rw [hk] at h
      rw [isCodeLine_of_code hk]
      cases hi : parseInstr tbl a toks with
      | error e => simp [hi] at h
      | ok i =>
        simp only [hi] at h
        obtain ⟨is', his', rfl⟩ := except_map_eq_ok_iff.1 h
        rw [List.length_cons, ih his']
        rfl

/-- An assembled image is the encodings of the instructions pass 2 gives with the table of pass 1 (R100, R107). -/
theorem assemble_eq_ok_iff (text : Text) (ws : List Word) :
    assemble text = .ok ws ↔ ∃ tbl is, pass1 1 0 [] (splitLines text) = .ok tbl ∧
      pass2 tbl 1 0 (splitLines text) = .ok is ∧ is.map encode = ws := by
  rw [assemble, except_map_eq_ok_iff]
  cases h : pass1 1 0 [] (splitLines text) <;> simp [assembleInstrs, h]

end Sys2Proof.Machine

/-! Labels and the length of the image (31_assembler.md R105, R106). -/

namespace Sys2Proof.Machine

/-- Settles O57: pass 2 gives an instruction per instruction line, and the table of pass 1 is the bindings of the label
lines, no name twice. -/
theorem labelsCountInstructionLines : Obligations.LabelsCountInstructionLines := by
  refine fun text => ⟨fun ws h => ?length, fun tbl k raw name rest h hk hr => ?bound,
    fun tbl name off h hlook => ?only⟩
  case length =>
    obtain ⟨tbl, is, -, his, rfl⟩ := (assemble_eq_ok_iff text ws).1 h
    rw [List.length_map, length_of_pass2_eq_ok his]
  case bound =>
    obtain ⟨hb, -, hapart⟩ := pass1Ok_of_eq_ok h
    rw [hb, List.nil_append, lookup_labelBindings hapart hk hr, Nat.zero_add]
  case only =>
    obtain ⟨hb, hlabels, -⟩ := pass1Ok_of_eq_ok h
    rw [hb, List.nil_append] at hlook
    obtain ⟨k, raw, rest, hk, hr, hx⟩ := exists_label_of_lookup hlook
    obtain ⟨rfl, -⟩ := hlabels raw (List.mem_of_getElem? hk) name rest hr
    exact ⟨k, raw, hk, hr, by rw [hx, Nat.zero_add]⟩

/-- Settles O59: a pass 1 that succeeds found no name bound twice. -/
theorem duplicateLabelsRefused : Obligations.DuplicateLabelsRefused := by
  intro text j k raw raw' name hjk hj hk hr hr'
  cases ha : assemble text with
  | error e => exact ⟨e, rfl⟩
  | ok ws =>
    obtain ⟨tbl, is, htbl, -⟩ := (assemble_eq_ok_iff text ws).1 ha
    obtain ⟨hj', rfl⟩ := List.getElem?_eq_some_iff.1 hj
    obtain ⟨hk', rfl⟩ := List.getElem?_eq_some_iff.1 hk
    exact absurd hr' (List.pairwise_iff_getElem.1 (pass1Ok_of_eq_ok htbl).apart j k hj' hk' hjk name [] [] hr)

end Sys2Proof.Machine

/-! SUPPORT. What the parser accepts: the operands of each form and the ranges of their values, and the instruction of
an instruction line (31_assembler.md R110 to R121). -/

namespace Sys2Proof.Machine

/-! ### Operand tokens -/

/-- A parsed immediate lies in the range asked for (R113). -/
theorem parseImmediate_range {tbl : LabelTable} {lo hi v : Int} {t : Text} (h : parseImmediate tbl lo hi t = .ok v) :
    lo ≤ v ∧ v ≤ hi := by
  have inRange : ∀ {x : Int} {e : TokenError}, (if lo ≤ x ∧ x ≤ hi then .ok x else .error e) = Except.ok v →
      lo ≤ v ∧ v ≤ hi := by
    intro x e hx
    split at hx
    · cases hx; assumption
    · cases hx
  unfold parseImmediate at h
  split at h
  · split at h
    · exact inRange h
    · cases h
  · split at h
    · exact inRange h
    · cases h
  · cases h

theorem immInRange_of_parseImm16 {tbl : LabelTable} {v : Int} {t : Text} (h : parseImm16 tbl t = .ok v) :
    immInRange v = true := (immInRange_iff v).2 (parseImmediate_range h)

/-- Only a token with a number or dollar sign is an immediate (R111, R112). -/
theorem isImmediateToken_of_parseImmediate {tbl : LabelTable} {lo hi v : Int} {t : Text}
    (h : parseImmediate tbl lo hi t = .ok v) : isImmediateToken t = true := by
  unfold parseImmediate at h
  split at h
  · rfl
  · rfl
  · cases h

/-- A parsed branch offset lies in the range of its field (R118). -/
theorem offInRange_of_parseOffset {tbl : LabelTable} {a : Nat} {v : Int} {t : Text} (h : parseOffset tbl a t = .ok v) :
    offInRange v = true := by
  have inRange : ∀ {x : Int} {e : TokenError},
      (if -8388608 ≤ x ∧ x ≤ 8388607 then .ok x else .error e) = Except.ok v → offInRange v = true := by
    intro x e hx
    split at hx
    · cases hx; exact (offInRange_iff v).2 ‹_›
    · cases hx
  unfold parseOffset at h
  split at h
  · split at h
    · exact inRange h
    · cases h
  · dsimp only at h
    split at h
    · exact inRange h
    · cases h
  · dsimp only at h
    split at h
    · exact inRange h
    · cases h

/-- A second operand is an immediate, or, where a register is allowed, one whose token is no immediate (R114, R121). -/
theorem parseSrc_eq_ok_iff {immOnly : Bool} {tbl : LabelTable} {t : Text} {src : Src} :
    parseSrc immOnly tbl t = .ok src ↔
      (∃ v, parseImm16 tbl t = .ok v ∧ .imm v = src) ∨
      (immOnly = false ∧ isImmediateToken t = false ∧ ∃ r, parseRegister t = .ok r ∧ .reg r = src) := by
  unfold parseSrc
  by_cases ht : isImmediateToken t = true
  · simp [ht, except_map_eq_ok_iff]
  · have himm : ∀ v, parseImm16 tbl t ≠ .ok v := fun v hv => ht (isImmediateToken_of_parseImmediate hv)
    cases immOnly <;> simp [ht, himm, except_map_eq_ok_iff]

theorem wellFormed_of_parseSrc {immOnly : Bool} {tbl : LabelTable} {t : Text} {src : Src}
    (h : parseSrc immOnly tbl t = .ok src) : src.wellFormed = true := by
  rcases parseSrc_eq_ok_iff.1 h with ⟨v, hv, rfl⟩ | ⟨-, -, r, -, rfl⟩
  · exact immInRange_of_parseImm16 hv
  · rfl

/-- Restricted to an immediate, a second operand parses as it does without the restriction if that is an immediate
(R121). -/
theorem parseSrc_true_eq_ok_iff {tbl : LabelTable} {t : Text} {src : Src} :
    parseSrc true tbl t = .ok src ↔ parseSrc false tbl t = .ok src ∧ ∃ v, src = .imm v := by
  rw [parseSrc_eq_ok_iff, parseSrc_eq_ok_iff]
  constructor
  · rintro (⟨v, hv, rfl⟩ | ⟨hfalse, -⟩)
    · exact ⟨.inl ⟨v, hv, rfl⟩, v, rfl⟩
    · exact nomatch hfalse
  · rintro ⟨⟨v, hv, rfl⟩ | ⟨-, -, r, -, rfl⟩, v', hv'⟩
    · exact .inl ⟨v, hv, rfl⟩
    · exact nomatch hv'

/-- The mask of a list of registers has bits 0 to 15 only (R117). -/
theorem maskInRange_maskOfRegisters (rs : List Reg) : maskInRange (maskOfRegisters rs) = true := by
  have hbit : ∀ m : Nat, m < 2 ^ 16 → ∀ r : Reg, m ||| 1 <<< r.val < 2 ^ 16 := fun m hm r =>
    Nat.or_lt_two_pow hm (by rw [Nat.one_shiftLeft]; exact Nat.pow_lt_pow_right (by decide) r.isLt)
  have hfold : ∀ m : Nat, m < 2 ^ 16 → rs.foldl (fun m r => m ||| 1 <<< r.val) m < 2 ^ 16 := by
    induction rs with
    | nil => exact fun m hm => hm
    | cons r rs ih => exact fun m hm => ih _ (hbit m hm r)
  exact decide_eq_true (Nat.le_of_lt_succ (hfold 0 (by decide)))

/-! ### Operand lists -/

section OperandLists

variable {tbl : LabelTable} {count : TokenError} {ts : List Text}

theorem parseRI_eq_ok_iff {immOnly : Bool} {p : Reg × Src} :
    parseRI immOnly tbl count ts = .ok p ↔
      ∃ t u, ts = [t, u] ∧ parseRegister t = .ok p.1 ∧ parseSrc immOnly tbl u = .ok p.2 := by
  unfold parseRI
  split
  case h_1 t u =>
    cases ht : parseRegister t with
    | error e => simp [ht]
    | ok rd => simp [ht, except_map_eq_ok_iff, Prod.ext_iff, and_comm]
  case h_2 hts => exact iff_of_false (fun h => nomatch h) fun ⟨t, u, h, _⟩ => hts t u h

theorem parseRI_true_eq_ok_iff {count' : TokenError} {p : Reg × Src} :
    parseRI true tbl count ts = .ok p ↔ parseRI false tbl count' ts = .ok p ∧ ∃ v, p.2 = .imm v := by
  simp only [parseRI_eq_ok_iff, parseSrc_true_eq_ok_iff, ← and_assoc, exists_and_right]

theorem immInRange_of_parseLoadStore {p : Reg × Reg × Int} (h : parseLoadStore tbl count ts = .ok p) :
    immInRange p.2.2 = true := by
  unfold parseLoadStore at h
  split at h
  · split at h
    · cases h
    · split at h
      · cases h
      · obtain ⟨v, hv, rfl⟩ := except_map_eq_ok_iff.1 h
        exact immInRange_of_parseImm16 hv
  · cases h

theorem maskInRange_of_parseMask {m : Nat} (h : parseMask tbl count ts = .ok m) : maskInRange m = true := by
  unfold parseMask at h
  split at h
  · cases h
  · split at h
    · split at h
      · cases h
      · rename_i mask hmask
        split at h
        · cases h
          obtain ⟨hlo, hhi⟩ := parseImmediate_range hmask
          exact decide_eq_true (by omega)
        · cases h
    · obtain ⟨rs, -, rfl⟩ := except_map_eq_ok_iff.1 h
      exact maskInRange_maskOfRegisters rs

theorem parseM_eq_ok_iff {a : Nat} {v : Int} :
    parseM tbl a count ts = .ok v ↔ ∃ t, ts = [t] ∧ parseOffset tbl a t = .ok v := by
  unfold parseM
  split
  case h_1 t => simp
  case h_2 hts => exact iff_of_false (fun h => nomatch h) fun ⟨t, h, _⟩ => hts t h

theorem parseInterruptNumber_eq_ok_iff {v : Int} :
    parseInterruptNumber tbl count ts = .ok v ↔ ∃ t, ts = [t] ∧ parseImm16 tbl t = .ok v := by
  unfold parseInterruptNumber
  split
  case h_1 t => simp
  case h_2 hts => exact iff_of_false (fun h => nomatch h) fun ⟨t, h, _⟩ => hts t h

/-- The operands of every operation parse to an instruction with its fields in range (R114 to R119). -/
theorem wellFormed_of_parseOperands {op : Op} {immOnly : Bool} {a : Nat} {i : Instr}
    (h : parseOperands op immOnly tbl a count ts = .ok i) : i.wellFormed = true := by
  cases op with
  | add | sub | mul | div | mod | and | or | xor | shl | shr | cmp | mov =>
    obtain ⟨p, hp, rfl⟩ := except_map_eq_ok_iff.1 h
    obtain ⟨t, u, -, -, hsrc⟩ := parseRI_eq_ok_iff.1 hp
    exact wellFormed_of_parseSrc hsrc
  | ldr | str =>
    obtain ⟨p, hp, rfl⟩ := except_map_eq_ok_iff.1 h
    exact immInRange_of_parseLoadStore hp
  | push | pop =>
    obtain ⟨m, hm, rfl⟩ := except_map_eq_ok_iff.1 h
    exact maskInRange_of_parseMask hm
  | jmp | beq | bne | blt | bge | bgt | ble | bcs | bcc | call =>
    obtain ⟨v, hv, rfl⟩ := except_map_eq_ok_iff.1 h
    obtain ⟨t, -, ht⟩ := parseM_eq_ok_iff.1 hv
    exact offInRange_of_parseOffset ht
  | int =>
    obtain ⟨v, hv, rfl⟩ := except_map_eq_ok_iff.1 h
    obtain ⟨t, -, ht⟩ := parseInterruptNumber_eq_ok_iff.1 hv
    exact immInRange_of_parseImm16 ht
  | ret | iret | hlt => cases h; rfl

end OperandLists

/-! ### Instruction lines -/

/-- A line with a known mnemonic parses as its operation does, if its operand count is in range (R108, R109, R120). -/
theorem parseInstr_eq_ok_iff {tbl : LabelTable} {a : Nat} {m : Text} {ts : List Text} {op : Op} {immOnly : Bool}
    {i : Instr} (hm : lookupMnemonic m = some (op, immOnly)) :
    parseInstr tbl a (m :: ts) = .ok i ↔
      (op.descriptor.minOperands ≤ ts.length ∧ ts.length ≤ op.descriptor.maxOperands) ∧
        parseOperands op immOnly tbl a (countError op m) ts = .ok i := by
  simp only [parseInstr, hm]
  split
  case isTrue h => simp [h]
  case isFalse h => simp [h]

/-- A mnemonic of the opcode table names its own operation (R85, R109). -/
theorem lookupMnemonic_name (op : Op) : lookupMnemonic op.descriptor.name.toList = some (op, false) := by
  cases op <;> rfl

/-- The second spellings name their operations; LDI is MOV restricted to an immediate (R121). -/
theorem lookupMnemonic_secondSpellings :
    lookupMnemonic "HALT".toList = some (.hlt, false) ∧ lookupMnemonic "SVC".toList = some (.int, false) ∧
    lookupMnemonic "B".toList = some (.jmp, false) ∧ lookupMnemonic "LDI".toList = some (.mov, true) :=
  ⟨rfl, rfl, rfl, rfl⟩

/-- Two mnemonics of one operation parse alike where success does not hang on the error kept for a wrong count. -/
theorem parseInstr_eq_ok_congr {tbl : LabelTable} {a : Nat} {m m' : Text} {ts : List Text} {op : Op} {immOnly : Bool}
    {i : Instr} (hm : lookupMnemonic m = some (op, immOnly)) (hm' : lookupMnemonic m' = some (op, immOnly))
    (hcount : ∀ c c', parseOperands op immOnly tbl a c ts = .ok i ↔ parseOperands op immOnly tbl a c' ts = .ok i) :
    parseInstr tbl a (m :: ts) = .ok i ↔ parseInstr tbl a (m' :: ts) = .ok i := by
  rw [parseInstr_eq_ok_iff hm, parseInstr_eq_ok_iff hm']
  exact and_congr_right fun _ => hcount _ _

/-- What parses has a mnemonic with an operation, and its operands parse as that operation's. -/
theorem exists_op_of_parseInstr {tbl : LabelTable} {a : Nat} {toks : List Text} {i : Instr}
    (h : parseInstr tbl a toks = .ok i) : ∃ m ts op immOnly, toks = m :: ts ∧
      parseOperands op immOnly tbl a (countError op m) ts = .ok i := by
  cases toks with
  | nil => cases h
  | cons m ts =>
    cases hm : lookupMnemonic m with
    | none => simp [parseInstr, hm] at h
    | some p => exact ⟨m, ts, p.1, p.2, rfl, ((parseInstr_eq_ok_iff hm).1 h).2⟩

/-- Every instruction of pass 2 has its fields in range. -/
theorem wellFormed_of_pass2 {tbl : LabelTable} {n a : Nat} {lines : List Text} {is : List Instr}
    (h : pass2 tbl n a lines = .ok is) : ∀ i ∈ is, i.wellFormed = true := by
  induction lines generalizing n a is with
  | nil => cases h; exact fun i hi => absurd hi List.not_mem_nil
  | cons raw lines ih =>
    unfold pass2 at h
    split at h
    · exact ih h
    · exact ih h
    · split at h
      · cases h
      · rename_i i0 hi0
        obtain ⟨is', his', rfl⟩ := except_map_eq_ok_iff.1 h
        obtain ⟨m, ts, op, immOnly, -, hop⟩ := exists_op_of_parseInstr hi0
        intro i hi
        rcases List.mem_cons.1 hi with rfl | hi
        · exact wellFormed_of_parseOperands hop
        · exact ih his' i hi

/-! ### Branches to labels -/

/-- The offset of a format M instruction. -/
def branchOffset : Instr → Option Int
  | .jmp off | .beq off | .bne off | .blt off | .bge off | .bgt off | .ble off | .bcs off | .bcc off | .call off =>
    some off
  | _ => none

/-- Where one operand parses to a format M instruction, it parses to the offset (R118). -/
theorem parseOffset_of_parseOperands {op : Op} {immOnly : Bool} {tbl : LabelTable} {a : Nat} {count : TokenError}
    {t : Text} {i : Instr} {off : Int} (h : parseOperands op immOnly tbl a count [t] = .ok i)
    (hoff : branchOffset i = some off) : parseOffset tbl a t = .ok off := by
  cases op with
  | jmp | beq | bne | blt | bge | bgt | ble | bcs | bcc | call =>
    obtain ⟨v, hv, rfl⟩ := except_map_eq_ok_iff.1 h
    cases hoff
    exact hv
  | push | pop | int =>
    obtain ⟨p, -, rfl⟩ := except_map_eq_ok_iff.1 h
    cases hoff
  | ret | iret | hlt =>
    cases h
    cases hoff
  | _ => cases h

/-- A label name has neither a number nor a dollar sign (R104). -/
theorem isImmediateToken_of_isLabelName {name : Text} (h : isLabelName name = true) :
    isImmediateToken name = false := by
  unfold isImmediateToken
  split
  · exact absurd h (by simp [isLabelName, isNameStart])
  · exact absurd h (by simp [isLabelName, isNameStart])
  · rfl

/-- The offset of a label operand is the label less the address after the instruction (R118). -/
theorem offset_of_parseOffset_label {tbl : LabelTable} {a l : Nat} {name token : Text} {off : Int}
    (htoken : token = '$' :: name ∨ token = name ∧ isLabelName name = true) (hl : lookupLabel tbl name = some l)
    (h : parseOffset tbl a token = .ok off) : off = (l : Int) - ((a : Int) + 1) := by
  have hlabel : ∀ t, parseLabel tbl t name = .ok l := fun t => by rw [parseLabel, hl]
  unfold parseOffset at h
  rcases htoken with rfl | ⟨rfl, hname⟩
  · simp only [hlabel] at h
    split at h
    · cases h; rfl
    · cases h
  · have himm := isImmediateToken_of_isLabelName hname
    split at h
    · cases himm
    · cases himm
    · simp only [hlabel] at h
      split at h
      · cases h; rfl
      · cases h

/-- From the address after the instruction a label operand's offset reaches the label. -/
theorem branchTarget_of_label {s : State} {a l : Nat} (hpc : s.pc = BitVec.ofNat 32 (a + 1)) :
    s.branchTarget ((l : Int) - ((a : Int) + 1)) = BitVec.ofNat 32 l := by
  rw [State.branchTarget, hpc, signedWord, ← BitVec.ofInt_natCast, ← BitVec.ofInt_add, ← BitVec.ofInt_natCast]
  congr 1
  omega

end Sys2Proof.Machine

/-! The assembler's instructions, branches to labels and second spellings (31_assembler.md R108 to R121). -/

namespace Sys2Proof.Machine

/-- Settles O56: every word is the encoding of a parsed instruction, and the parser keeps every field in range. -/
theorem assembledWordsDecode : Obligations.AssembledWordsDecode := by
  intro text ws h w hw
  obtain ⟨tbl, is, -, his, rfl⟩ := (assemble_eq_ok_iff text ws).1 h
  obtain ⟨i, hi, rfl⟩ := List.mem_map.1 hw
  have hwf := wellFormed_of_pass2 his i hi
  exact ⟨i, hwf, decode_encode hwf, rfl⟩

/-- Settles O58: the offset parsed is that of the label, so each branch that is taken sets pc to the label. -/
theorem labelBranchLandsOnLabel : Obligations.LabelBranchLandsOnLabel := by
  intro tbl a l name token mnemonic i off s htoken h hl hpc
  have htarget : branchOffset i = some off → s.branchTarget off = BitVec.ofNat 32 l := by
    intro hoff
    obtain ⟨m, ts, op, immOnly, htoks, hop⟩ := exists_op_of_parseInstr h
    cases htoks
    rw [offset_of_parseOffset_label htoken hl (parseOffset_of_parseOperands hop hoff)]
    exact branchTarget_of_label hpc
  have htaken : ∀ {j : Instr} {c : Bool}, branchOffset j = some off → exec j s = .next (branchIf c off s) →
      c = true → i = j → exec i s = .next (s.setPc (BitVec.ofNat 32 l)) := by
    rintro j c hoff hj hc rfl
    rw [hj, branchIf_of_true off s hc, htarget hoff]
  refine ⟨fun hi => ?jmp, fun hi hc => htaken rfl (exec_beq off s) (s.flags.eq_iff.2 hc) hi,
    fun hi hc => htaken rfl (exec_bne off s) (s.flags.ne_iff.2 hc) hi,
    fun hi hc => htaken rfl (exec_blt off s) (s.flags.lt_iff.2 hc) hi,
    fun hi hc => htaken rfl (exec_bge off s) (s.flags.ge_iff.2 hc) hi,
    fun hi hc => htaken rfl (exec_bgt off s) (s.flags.gt_iff.2 hc) hi,
    fun hi hc => htaken rfl (exec_ble off s) (s.flags.le_iff.2 hc) hi,
    fun hi hc => htaken rfl (exec_bcs off s) (s.flags.cs_iff.2 hc) hi,
    fun hi hc => htaken rfl (exec_bcc off s) (s.flags.cc_iff.2 hc) hi, fun hi hne hsp => ?call⟩
  case jmp =>
    subst hi
    rw [exec_jmp, htarget rfl]
  case call =>
    subst hi
    exact ⟨_, (exec_call_of_sp_ne_zero off hsp hne).1, htarget rfl⟩

/-- Settles O60: each second spelling names the operation of its first one, which reads its operands alike; LDI keeps
the immediates of MOV. -/
theorem secondSpellingsAssembleAlike : Obligations.SecondSpellingsAssembleAlike := by
  intro tbl a ops i
  obtain ⟨hhalt, hsvc, hb, hldi⟩ := lookupMnemonic_secondSpellings
  refine ⟨parseInstr_eq_ok_congr hhalt (lookupMnemonic_name .hlt) fun _ _ => Iff.rfl,
    parseInstr_eq_ok_congr hsvc (lookupMnemonic_name .int) fun _ _ => ?svc,
    parseInstr_eq_ok_congr hb (lookupMnemonic_name .jmp) fun _ _ => ?b, ?ldi⟩
  case svc => simp only [parseOperands, except_map_eq_ok_iff, parseInterruptNumber_eq_ok_iff]
  case b => simp only [parseOperands, except_map_eq_ok_iff, parseM_eq_ok_iff]
  case ldi =>
    have hmov : lookupMnemonic "MOV".toList = some (.mov, false) := lookupMnemonic_name .mov
    rw [parseInstr_eq_ok_iff hldi, parseInstr_eq_ok_iff hmov]
    refine Iff.trans (and_congr_right fun _ => ?_) and_assoc.symm
    simp only [parseOperands, except_map_eq_ok_iff, parseRI_true_eq_ok_iff (count' := countError .mov "MOV".toList)]
    constructor
    · rintro ⟨⟨rd, src⟩, ⟨hp, v, rfl⟩, rfl⟩
      exact ⟨⟨_, hp, rfl⟩, rd, v, rfl⟩
    · rintro ⟨⟨⟨rd, src⟩, hp, rfl⟩, rd', v, hi⟩
      cases hi
      exact ⟨_, ⟨hp, v, rfl⟩, rfl⟩

end Sys2Proof.Machine

/-! SUPPORT. The canonical text of an instruction read back by the assembler: its one line, its tokens, and the number,
register and mask each token spells (30_encoding.md R89; 31_assembler.md R101 to R118). -/

namespace Sys2Proof.Machine

/-! ### Digits -/

theorem decValue_decDigit {d : Nat} (h : d < 10) : decValue (decDigit d) = some d := by
  have key : ∀ d : Fin 10, decValue (decDigit d.val) = some d.val := by decide
  exact key ⟨d, h⟩

theorem hexValue_hexDigit {d : Nat} (h : d < 16) : hexValue (hexDigit d) = some d := by
  have key : ∀ d : Fin 16, hexValue (hexDigit d.val) = some d.val := by decide
  exact key ⟨d, h⟩

theorem decDigits_of_lt {fuel n : Nat} (h : n < 10) : decDigits (fuel + 1) n = [decDigit n] := if_pos h

theorem decDigits_of_le {fuel n : Nat} (h : 10 ≤ n) :
    decDigits (fuel + 1) n = decDigits fuel (n / 10) ++ [decDigit (n % 10)] := if_neg (not_lt.2 h)

/-- Reading one digit more. -/
theorem digitsFrom_append_singleton {base : Nat} {value : Char → Option Nat} {acc n d : Nat} {t : Text} {c : Char}
    (ht : digitsFrom base value acc t = some n) (hc : value c = some d) :
    digitsFrom base value acc (t ++ [c]) = some (n * base + d) := by
  induction t generalizing acc with
  | nil =>
    cases ht
    simp [digitsFrom, hc]
  | cons c' t ih =>
    rw [digitsFrom] at ht
    cases hc' : value c' with
    | none => simp [hc'] at ht
    | some d' =>
      simp only [hc'] at ht
      simp only [List.cons_append, digitsFrom, hc']
      exact ih ht

/-- The decimal digits of a number denote it. -/
theorem digitsFrom_decDigits {fuel n : Nat} (h : n < fuel) : digitsFrom 10 decValue 0 (decDigits fuel n) = some n := by
  induction fuel generalizing n with
  | zero => exact absurd h (Nat.not_lt_zero n)
  | succ fuel ih =>
    by_cases hn : n < 10
    · simp [decDigits_of_lt hn, digitsFrom, decValue_decDigit hn]
    · rw [decDigits_of_le (not_lt.1 hn), digitsFrom_append_singleton (ih (by omega))
        (decValue_decDigit (Nat.mod_lt n (by decide)))]
      rw [Nat.div_add_mod']

/-- The characters of a decimal number are digits. -/
theorem exists_digit_of_mem_decDigits {fuel n : Nat} {c : Char} (h : c ∈ decDigits fuel n) :
    ∃ d, d < 10 ∧ c = decDigit d := by
  induction fuel generalizing n with
  | zero => exact absurd h List.not_mem_nil
  | succ fuel ih =>
    by_cases hn : n < 10
    · rw [decDigits_of_lt hn] at h
      exact ⟨n, hn, List.mem_singleton.1 h⟩
    · rw [decDigits_of_le (not_lt.1 hn)] at h
      rcases List.mem_append.1 h with h | h
      · exact ih h
      · exact ⟨n % 10, Nat.mod_lt n (by decide), List.mem_singleton.1 h⟩

theorem decText_ne_nil (n : Nat) : decText n ≠ [] := by
  unfold decText decDigits
  split <;> simp

theorem digits_decText (n : Nat) : digits 10 decValue (decText n) = some n := by
  rw [digits, if_neg (by simpa using decText_ne_nil n)]
  exact digitsFrom_decDigits (Nat.lt_succ_self n)

theorem decValue_isSome_of_mem_decText {n : Nat} {c : Char} (h : c ∈ decText n) : (decValue c).isSome = true := by
  obtain ⟨d, hd, rfl⟩ := exists_digit_of_mem_decDigits h
  rw [decValue_decDigit hd]
  rfl

/-! ### Numbers as tokens -/

/-- A decimal number does not start as a hex number does, and reads as itself (R111). -/
theorem magnitude_decText (n : Nat) : magnitude (decText n) = some n := by
  have hx : ∀ {c0 c : Char} {t : Text}, decText n = c0 :: c :: t → (decValue c).isSome = true := fun h =>
    decValue_isSome_of_mem_decText (n := n) (by simp [h])
  unfold magnitude
  split
  · exact absurd (hx ‹_›) (by decide)
  · exact absurd (hx ‹_›) (by decide)
  · exact digits_decText n

/-- A decimal number has no sign (R111). -/
theorem immediateValue_decText (n : Nat) : immediateValue (decText n) = some (n : Int) := by
  have hx : ∀ {c : Char} {t : Text}, decText n = c :: t → (decValue c).isSome = true := fun h =>
    decValue_isSome_of_mem_decText (n := n) (by simp [h])
  unfold immediateValue
  split
  · exact absurd (hx ‹_›) (by decide)
  · exact absurd (hx ‹_›) (by decide)
  · rw [magnitude_decText]; rfl

/-- The text of a signed number after its number sign reads as that number (R89, R111). -/
theorem intText_eq_cons (v : Int) : ∃ u, intText v = '#' :: u ∧ immediateValue u = some v := by
  unfold intText
  split
  · refine ⟨_, rfl, ?_⟩
    simp only [immediateValue, magnitude_decText, Option.pure_def, Option.bind_eq_bind, Option.bind_some,
      Option.map_some]
    congr 1
    omega
  · refine ⟨_, rfl, ?_⟩
    rw [immediateValue_decText]
    congr 1
    omega

theorem parseImmediate_intText (tbl : LabelTable) {lo hi v : Int} (h : lo ≤ v ∧ v ≤ hi) :
    parseImmediate tbl lo hi (intText v) = .ok v := by
  obtain ⟨u, hu, hv⟩ := intText_eq_cons v
  rw [hu]
  simp [parseImmediate, hv, h]

theorem parseImm16_intText (tbl : LabelTable) {v : Int} (h : immInRange v = true) :
    parseImm16 tbl (intText v) = .ok v := parseImmediate_intText tbl ((immInRange_iff v).1 h)

theorem parseOffset_intText (tbl : LabelTable) (a : Nat) {v : Int} (h : offInRange v = true) :
    parseOffset tbl a (intText v) = .ok v := by
  obtain ⟨u, hu, hv⟩ := intText_eq_cons v
  rw [hu]
  simp [parseOffset, hv, (offInRange_iff v).1 h]

/-- Hex digits after `0x` read as the number they denote (R111). -/
theorem immediateValue_hex {t : Text} {n : Nat} (h : digits 16 hexValue t = some n) :
    immediateValue ('0' :: 'x' :: t) = some (n : Int) := by
  simp [immediateValue, magnitude, h]

/-- A mask's four hex digits denote it (R89). -/
theorem digits_mask {m : Nat} (h : m ≤ 65535) :
    digits 16 hexValue [hexDigit (m / 4096 % 16), hexDigit (m / 256 % 16), hexDigit (m / 16 % 16),
      hexDigit (m % 16)] = some m := by
  have hd : ∀ k, hexValue (hexDigit (k % 16)) = some (k % 16) := fun k => hexValue_hexDigit (Nat.mod_lt k (by decide))
  have hsum : (((0 * 16 + m / 4096 % 16) * 16 + m / 256 % 16) * 16 + m / 16 % 16) * 16 + m % 16 = m := by omega
  simp only [digits, List.isEmpty_cons, digitsFrom, hd, hsum, Bool.false_eq_true, if_false]

theorem parseMask_maskText (tbl : LabelTable) (count : TokenError) {m : Nat} (h : maskInRange m = true) :
    parseMask tbl count [maskText m] = .ok m := by
  have hm : m ≤ 65535 := of_decide_eq_true h
  have himm : parseImmediate tbl 0 65535 (maskText m) = .ok (m : Int) := by
    simp [parseImmediate, maskText, immediateValue_hex (digits_mask hm), hm]
  have htok : isImmediateToken (maskText m) = true := rfl
  simp [parseMask, himm, htok]

theorem parseRegister_regText (r : Reg) : parseRegister (regText r) = .ok r := by
  simp [parseRegister, registerValue, regText, digits_decText]

theorem isImmediateToken_regText (r : Reg) : isImmediateToken (regText r) = false := rfl

theorem parseSrc_srcText (tbl : LabelTable) {src : Src} (h : src.wellFormed = true) :
    parseSrc false tbl (srcText src) = .ok src := by
  rw [parseSrc_eq_ok_iff]
  cases src with
  | reg r => exact .inr ⟨rfl, rfl, r, parseRegister_regText r, rfl⟩
  | imm v => exact .inl ⟨v, parseImm16_intText tbl h, rfl⟩

/-! ### The operands and the mnemonic -/

/-- The canonical operands of a well-formed instruction parse to it, form by form (R114 to R119). -/
theorem parseOperands_operandText (tbl : LabelTable) (a : Nat) (count : TokenError) {i : Instr}
    (h : i.wellFormed = true) : parseOperands i.op false tbl a count (operandText i) = .ok i := by
  cases i with
  | add rd src | sub rd src | mul rd src | div rd src | mod rd src | and rd src | or rd src | xor rd src
  | shl rd src | shr rd src | cmp rd src | mov rd src =>
    exact except_map_eq_ok_iff.2 ⟨(rd, src),
      parseRI_eq_ok_iff.2 ⟨_, _, rfl, parseRegister_regText rd, parseSrc_srcText tbl h⟩, rfl⟩
  | ldr rd rb imm | str rd rb imm =>
    refine except_map_eq_ok_iff.2 ⟨(rd, rb, imm), ?_, rfl⟩
    simp [operandText, parseLoadStore, parseRegister_regText, parseImm16_intText tbl h, Except.map]
  | push m | pop m => exact except_map_eq_ok_iff.2 ⟨m, parseMask_maskText tbl count h, rfl⟩
  | jmp off | beq off | bne off | blt off | bge off | bgt off | ble off | bcs off | bcc off | call off =>
    exact except_map_eq_ok_iff.2 ⟨off, parseM_eq_ok_iff.2 ⟨_, rfl, parseOffset_intText tbl a h⟩, rfl⟩
  | int n =>
    exact except_map_eq_ok_iff.2 ⟨n, parseInterruptNumber_eq_ok_iff.2 ⟨_, rfl, parseImm16_intText tbl h⟩, rfl⟩
  | ret | iret | hlt => rfl

/-- The canonical text has as many operands as the operation takes (R85, R120). -/
theorem length_operandText (i : Instr) :
    i.op.descriptor.minOperands ≤ (operandText i).length ∧
      (operandText i).length ≤ i.op.descriptor.maxOperands := by
  cases i <;> simp [Instr.op, Op.descriptor, operandText]

/-- The tokens of the canonical text parse to the instruction. -/
theorem parseInstr_operandText (tbl : LabelTable) (a : Nat) {i : Instr} (h : i.wellFormed = true) :
    parseInstr tbl a (i.op.descriptor.name.toList :: operandText i) = .ok i :=
  (parseInstr_eq_ok_iff (lookupMnemonic_name i.op)).2 ⟨length_operandText i, parseOperands_operandText tbl a _ h⟩

/-! ### The tokens of the canonical text -/

/-- A character that neither separates tokens nor ends a line or its code. -/
def isPlain (c : Char) : Bool := !isSeparator c && c != '\n' && c != ';'

/-- A text that is one token of a line. -/
def IsToken (t : Text) : Prop := t ≠ [] ∧ ∀ c ∈ t, isPlain c = true

theorem isPlain_decDigit {d : Nat} (h : d < 10) : isPlain (decDigit d) = true := by
  have key : ∀ d : Fin 10, isPlain (decDigit d.val) = true := by decide
  exact key ⟨d, h⟩

theorem isPlain_hexDigit {d : Nat} (h : d < 16) : isPlain (hexDigit d) = true := by
  have key : ∀ d : Fin 16, isPlain (hexDigit d.val) = true := by decide
  exact key ⟨d, h⟩

theorem isPlain_of_mem_decText {n : Nat} {c : Char} (h : c ∈ decText n) : isPlain c = true := by
  obtain ⟨d, hd, rfl⟩ := exists_digit_of_mem_decDigits h
  exact isPlain_decDigit hd

theorem IsToken.cons {c : Char} {t : Text} (hc : isPlain c = true) (ht : ∀ c ∈ t, isPlain c = true) :
    IsToken (c :: t) := ⟨List.cons_ne_nil c t, List.forall_mem_cons.2 ⟨hc, ht⟩⟩

theorem isToken_regText (r : Reg) : IsToken (regText r) :=
  .cons (by decide) fun _ h => isPlain_of_mem_decText h

theorem isToken_intText (v : Int) : IsToken (intText v) := by
  unfold intText
  split
  · exact .cons (by decide) (List.forall_mem_cons.2 ⟨by decide, fun _ h => isPlain_of_mem_decText h⟩)
  · exact .cons (by decide) fun _ h => isPlain_of_mem_decText h

theorem isToken_srcText (src : Src) : IsToken (srcText src) := by
  cases src with
  | reg r => exact isToken_regText r
  | imm v => exact isToken_intText v

theorem isToken_maskText (m : Nat) : IsToken (maskText m) := by
  have hd : ∀ k, isPlain (hexDigit (k % 16)) = true := fun k => isPlain_hexDigit (Nat.mod_lt k (by decide))
  refine .cons (by decide) ?_
  simp only [List.forall_mem_cons, hd, true_and]
  exact ⟨by decide, by decide, fun _ h => absurd h List.not_mem_nil⟩

theorem isToken_of_mem_operandText {i : Instr} {t : Text} (h : t ∈ operandText i) : IsToken t := by
  cases i with
  | add rd src | sub rd src | mul rd src | div rd src | mod rd src | and rd src | or rd src | xor rd src
  | shl rd src | shr rd src | cmp rd src | mov rd src =>
    simp only [operandText, List.mem_cons, List.not_mem_nil, or_false] at h
    rcases h with rfl | rfl
    · exact isToken_regText rd
    · exact isToken_srcText src
  | ldr rd rb imm | str rd rb imm =>
    simp only [operandText, List.mem_cons, List.not_mem_nil, or_false] at h
    rcases h with rfl | rfl | rfl
    · exact isToken_regText rd
    · exact isToken_regText rb
    · exact isToken_intText imm
  | push m | pop m => rw [List.mem_singleton.1 h]; exact isToken_maskText m
  | jmp off | beq off | bne off | blt off | bge off | bgt off | ble off | bcs off | bcc off | call off | int off =>
    rw [List.mem_singleton.1 h]; exact isToken_intText off
  | ret | iret | hlt => exact absurd h List.not_mem_nil

theorem isToken_name (op : Op) : IsToken op.descriptor.name.toList := by
  have hne : op.descriptor.name.toList.isEmpty = false := by cases op <;> rfl
  have hall : op.descriptor.name.toList.all isPlain = true := by cases op <;> rfl
  exact ⟨fun h => by simp [h] at hne, List.all_eq_true.1 hall⟩

theorem isSeparator_of_isPlain {c : Char} (h : isPlain c = true) : isSeparator c = false := by
  simp only [isPlain, Bool.and_eq_true, Bool.not_eq_true'] at h
  exact h.1.1

/-- A token before a separator is the first token of a line (R103). -/
theorem tokens_append_cons {t : Text} (ht : IsToken t) {c : Char} (hc : isSeparator c = true) (rest : Text) :
    tokens (t ++ c :: rest) = t :: tokens rest := by
  obtain ⟨hne, hplain⟩ := ht
  rw [tokens, List.splitOnP_append_cons_of_forall_mem (fun c h => isSeparator_of_isPlain (hplain c h)) c hc]
  simp [tokens, hne]

/-- A separator at the front of a line starts no token (R103). -/
theorem tokens_cons_of_isSeparator {c : Char} (hc : isSeparator c = true) (rest : Text) :
    tokens (c :: rest) = tokens rest := by
  have := List.splitOnP_append_cons_of_forall_mem (p := isSeparator) (xs := []) (by simp) c hc rest
  rw [List.nil_append] at this
  simp [tokens, this]

theorem tokens_of_isToken {t : Text} (ht : IsToken t) : tokens t = [t] := by
  obtain ⟨hne, hplain⟩ := ht
  rw [tokens, List.splitOnP_eq_singleton (fun c h => isSeparator_of_isPlain (hplain c h))]
  simp [hne]

/-- Operands separated by a comma and a space are the tokens of their text (R89, R103). -/
theorem tokens_append_flatMap_comma {t : Text} {ts : List Text} (ht : IsToken t) (hts : ∀ t ∈ ts, IsToken t) :
    tokens (t ++ ts.flatMap (comma ++ ·)) = t :: ts := by
  induction ts generalizing t with
  | nil => rw [List.flatMap_nil, List.append_nil, tokens_of_isToken ht]
  | cons u ts ih =>
    obtain ⟨hu, hts⟩ := List.forall_mem_cons.1 hts
    calc tokens (t ++ (u :: ts).flatMap (comma ++ ·))
      _ = tokens (t ++ ',' :: ' ' :: (u ++ ts.flatMap (comma ++ ·))) := by simp [comma]
      _ = t :: tokens (' ' :: (u ++ ts.flatMap (comma ++ ·))) := tokens_append_cons ht rfl _
      _ = t :: u :: ts := by rw [tokens_cons_of_isSeparator rfl, ih hu hts]

/-- The tokens of the canonical text are the mnemonic and the operands (R89). -/
theorem tokens_disassemble (i : Instr) : tokens (disassemble i) = i.op.descriptor.name.toList :: operandText i := by
  have hops := fun t (h : t ∈ operandText i) => isToken_of_mem_operandText h
  unfold disassemble
  split
  case h_1 h => rw [h, tokens_of_isToken (isToken_name i.op)]
  case h_2 t ts h =>
    rw [h] at hops ⊢
    obtain ⟨ht, hts⟩ := List.forall_mem_cons.1 hops
    rw [List.append_assoc, List.append_assoc, List.singleton_append, tokens_append_cons (isToken_name i.op) rfl,
      tokens_append_flatMap_comma ht hts]

/-! ### The line of the canonical text -/

/-- The canonical text holds the characters of its tokens and the separators of R89. -/
theorem isPlain_or_of_mem_disassemble {i : Instr} {c : Char} (h : c ∈ disassemble i) :
    isPlain c = true ∨ c = ',' ∨ c = ' ' := by
  have hname := (isToken_name i.op).2
  have hops := fun t (h : t ∈ operandText i) => (isToken_of_mem_operandText h).2
  unfold disassemble at h
  split at h
  case h_1 => exact .inl (hname c h)
  case h_2 t ts hts =>
    rw [hts] at hops
    obtain ⟨ht, hts⟩ := List.forall_mem_cons.1 hops
    simp only [List.mem_append, List.mem_flatMap, comma, List.mem_cons, List.not_mem_nil, or_false] at h
    rcases h with ((h | h) | h) | ⟨u, hu, (h | h) | h⟩
    · exact .inl (hname c h)
    · exact .inr (.inr h)
    · exact .inl (ht c h)
    · exact .inr (.inl h)
    · exact .inr (.inr h)
    · exact .inl (hts u hu c h)

/-- The canonical text has neither a line end nor a comment. -/
theorem ne_of_mem_disassemble {i : Instr} {c : Char} (h : c ∈ disassemble i) : c ≠ '\n' ∧ c ≠ ';' := by
  rcases isPlain_or_of_mem_disassemble h with hc | rfl | rfl
  · simp only [isPlain, Bool.and_eq_true, bne_iff_ne] at hc
    exact ⟨hc.1.2, hc.2⟩
  · decide
  · decide

theorem splitLines_disassemble (i : Instr) : splitLines (disassemble i) = [disassemble i] := by
  rw [splitLines, List.splitOn_eq_splitOnP]
  exact List.splitOnP_eq_singleton fun c hc => beq_false_of_ne (ne_of_mem_disassemble hc).1

theorem stripComment_disassemble (i : Instr) : stripComment (disassemble i) = disassemble i :=
  List.takeWhile_eq_self_iff.2 fun _ hc => bne_iff_ne.2 (ne_of_mem_disassemble hc).2

/-- A line of whitespace has no token (R103). -/
theorem tokens_of_all_isSpace {body : Text} (h : body.all isSpace = true) : tokens body = [] := by
  induction body with
  | nil => rfl
  | cons c body ih =>
    rw [List.all_cons, Bool.and_eq_true] at h
    obtain ⟨hc, hbody⟩ := h
    rw [tokens_cons_of_isSeparator (by rw [isSeparator, hc, Bool.true_or]), ih hbody]

/-- The canonical text is an instruction line: its first token, the mnemonic, does not end in a colon (R104, R105). -/
theorem classify_disassemble (i : Instr) :
    classify (disassemble i) = .code (i.op.descriptor.name.toList :: operandText i) := by
  have hlast : i.op.descriptor.name.toList.getLast? ≠ some ':' := by
    cases i.op <;> decide
  have hbody : ¬ (disassemble i).all isSpace = true := fun h =>
    List.cons_ne_nil _ _ ((tokens_disassemble i).symm.trans (tokens_of_all_isSpace h))
  simp [classify, stripComment_disassemble, hbody, tokens_disassemble, hlast]

/-- A text of one instruction line that parses assembles to the one word of its instruction (R100, R108). -/
theorem assemble_of_one_line {text : Text} {toks : List Text} {i : Instr} (hlines : splitLines text = [text])
    (hclass : classify text = .code toks) (hparse : parseInstr [] 0 toks = .ok i) : assemble text = .ok [encode i] := by
  refine (assemble_eq_ok_iff _ _).2 ⟨[], [i], ?_, ?_, rfl⟩
  · simp [hlines, pass1, hclass]
  · simp [hlines, pass2, hclass, hparse, Except.map]

end Sys2Proof.Machine

/-! The assembler reads the disassembler's text (30_encoding.md R89). -/

namespace Sys2Proof.Machine

/-- Settles O55: the canonical text is one instruction line, whose tokens parse to the instruction. -/
theorem assembleOfDisassembly : Obligations.AssembleOfDisassembly := fun i h =>
  assemble_of_one_line (splitLines_disassemble i) (classify_disassemble i) (parseInstr_operandText [] 0 h)

end Sys2Proof.Machine
